-- ==== Sys2Proof/Word.lean ====
section
/-! DEFINITION. The word type: every register, index, ring cell and frame field of the block is one unsigned byte
(`00_scope.md` 5.1, R53). -/

namespace Sys2Proof

/-- A byte, also the type of ring indices: `+` and `-` on it are the spec's `+8` and `-8` (R106). -/
abbrev Byte := BitVec 8

end Sys2Proof
end

