-- ==== Sys2Proof/Config.lean ====
section
/-! DEFINITION. What one device fixes (the parameters of `00_scope.md` section 4) and the free values the spec leaves
open. A parameter is plain data, held by State in a field nothing writes (log 1); a free value is an opaque constant, so
that no proof can see what it is. -/

namespace Sys2Proof

/-- `OVERFLOW_POLICY` (R12, R125). -/
inductive OverflowPolicy where
  | fault
  | wrap
deriving DecidableEq, Repr

/-- `HDR_RECHECK` (R12, R145). -/
inductive HdrRecheck where
  | latched
  | draw
deriving DecidableEq, Repr

/-- `STOP_RETURNS` (R12, R205). -/
inductive StopReturns where
  | any
  | always
  | never
deriving DecidableEq, Repr

/-- The widths a recognised format character may have (R9). -/
inductive Width where
  | one
  | two
  | four
  | eight
deriving DecidableEq, Repr

/-- One registered command as configured (R8): its three strings, slots 0, 1 and 2 of introspection. -/
structure Command where
  name : List Byte
  paramFormat : List Byte
  returnFormat : List Byte
deriving DecidableEq, Repr

/-- The parameters of one device (R6 to R12). `NFUNC` is the number of `commands`; entries 0 and 1 are the built-ins;
`alphabet` lists the recognised format characters, every other byte having width 0 (R9). -/
structure Config where
  marker : Byte
  commands : List Command
  alphabet : List (Byte × Width)
  tickBits : Nat
  timeoutReset : Nat
  overflowPolicy : OverflowPolicy
  hdrRecheck : HdrRecheck
  stopReturns : StopReturns
deriving DecidableEq, Repr

/-- What a user handler may do to the watchdog (R176 item 3, R224). -/
inductive WdEffect where
  | keep
  | heartbeat
  | setTimeout (t : Nat)
deriving DecidableEq, Repr, Inhabited

/-- What a user handler does when invoked (R224): it peeks argument bytes, named by their positions from its offset
(modulo 256) in the order it reads them, and replies; or it breaks its contract in another way (R176; log 8). -/
inductive HandlerAnswer where
  | reply (reads : List Byte) (status : Byte) (payload : List Byte) (effect : WdEffect)
  | breach
deriving DecidableEq, Repr, Inhabited

/-- One move of one agent (R219, R220). -/
inductive Move where
  | core
  | arrive
  | txReady (r : Bool)
  | tick
deriving DecidableEq, Repr, Inhabited

/-- FREE VALUE (log 10): the outcome of the `n`-th draw where it is a boolean (R145, R180, R205). -/
opaque Config.freeBool (n : Nat) : Bool

/-- FREE VALUE (log 6): the byte the host sends at the `n`-th draw (R221, R223). -/
opaque Config.freeByte (n : Nat) : Byte

/-- FREE VALUE (log 5): the agent that moves at the `n`-th draw (R220). -/
opaque Config.freeMove (n : Nat) : Move

/-- FREE VALUE (log 8): what the handler of user command `f` answers at the `n`-th draw, given its offset and the cells
of its window (R59, R177, R224; `none` is a cell never written). -/
opaque Config.freeAnswer (n : Nat) (f offset : Byte) (window : List (Option Byte)) : HandlerAnswer

end Sys2Proof
end

