-- ==== Sys2Proof/Machine/TableRom.lean ====
section
/-! DEFINITION. The command table as a read-only store (R31) and how startup computes it from the configured commands
(R170, R171). -/

namespace Sys2Proof.Machine

/-- The collaborator registered for a command (R8, R31): ids 0 and 1 are the two built-ins (R77), every other id is a
user handler. -/
inductive Handler where
  | commandCount
  | commandNames
  | user
deriving DecidableEq, Repr

/-- One entry of the table ROM (R31). -/
structure Entry where
  name : List Byte
  paramFormat : List Byte
  returnFormat : List Byte
  required : Nat
  handler : Handler
deriving DecidableEq, Repr

/-- The table ROM (R31); `Table.count` is the number of its entries (log 23). -/
structure Table where
  entries : List Entry
deriving DecidableEq, Repr

/-- `Table.count = NFUNC` (R31, R174; log 23, and log 27 for a malformed table). -/
def tableCount (t : Table) : Nat := t.entries.length

/-- The number of bytes of a field of the given width (R78). -/
def widthBytes : Width → Nat
  | .one => 1
  | .two => 2
  | .four => 4
  | .eight => 8

/-- The width an alphabet gives a character; unrecognised characters have width 0 (R9, U6). -/
def widthIn : List (Byte × Width) → Byte → Nat
  | [], _ => 0
  | (k, w) :: rest, c => if k = c then widthBytes w else widthIn rest c

/-- `width_of` (R9). -/
def widthOf (cfg : Config) (c : Byte) : Nat := widthIn cfg.alphabet c

/-- The sum of the widths of a format string, on natural numbers (R79, R170). -/
def formatBytes (cfg : Config) : List Byte → Nat
  | [] => 0
  | c :: rest => widthOf cfg c + formatBytes cfg rest

/-- Which collaborator an id has (R77, R177 to R179). -/
def handlerAt : Nat → Handler
  | 0 => .commandCount
  | 1 => .commandNames
  | _ => .user

/-- The entries for the commands from id `i` on (R170): only the parameter format is summed. -/
def buildEntries (cfg : Config) : Nat → List Command → List Entry
  | _, [] => []
  | i, c :: rest =>
    { name := c.name, paramFormat := c.paramFormat, returnFormat := c.returnFormat,
      required := formatBytes cfg c.paramFormat, handler := handlerAt i } :: buildEntries cfg (i + 1) rest

/-- `table_build` as a function of the configuration (R170, R171): `none` is TableMalformed. -/
def buildTable (cfg : Config) : Option Table :=
  if 2 ≤ cfg.commands.length ∧ cfg.commands.length ≤ 255 then some { entries := buildEntries cfg 0 cfg.commands }
  else none

end Sys2Proof.Machine
end

