-- ==== Sys2Proof/Machine/Profile.lean ====
section
/-! DEFINITION. The one configuration `State.reset` stands for (log 2). The spec leaves every value of it OPEN, and every
statement about the machine holds for every configuration: this one only makes the machine after reset a definite
value. -/

namespace Sys2Proof.Machine

/-- DESIGN CHOICE (log 2): MARKER 0; the two built-in commands alone, spelled as rows 0 and 1 of the example
configuration of `95_test_vectors.md`; its format alphabet and tick width; TIMEOUT_RESET 0 (disarmed); the spec's
defaults for the three policies (R12). -/
def resetConfig : Config :=
  { marker := 0x00#8
    commands :=
      [ { name := [0x63#8, 0x6F#8, 0x75#8, 0x6E#8, 0x74#8], paramFormat := [], returnFormat := [0x42#8] },
        { name := [0x6E#8, 0x61#8, 0x6D#8, 0x65#8, 0x73#8], paramFormat := [0x42#8, 0x42#8],
          returnFormat := [0x73#8] } ]
    alphabet := [(0x42#8, .one), (0x48#8, .two), (0x49#8, .four), (0x51#8, .eight)]
    tickBits := 16
    timeoutReset := 0
    overflowPolicy := .fault
    hdrRecheck := .latched
    stopReturns := .any }

end Sys2Proof.Machine
end

