-- ==== Sys2Proof/Syntax.lean ====
section
/-! DEFINITION. The instruction set as data: one constructor per row of spec/opcode_table.json, in the table's order
(`00_scope.md` section 7: eight inbound frame forms, two outbound frame forms, thirty internal operations). -/

namespace Sys2Proof

/-- The two ring buffers (R20, R21). -/
inductive RingId where
  | rxb
  | txb
deriving DecidableEq, Repr

/-- The rows of the opcode table. In a frame form `m`, `s`, `l`, `f` are the marker, status, length and function id
bytes of R81 and R82. A form with a variable tail does not carry its length byte: it is `1 + args.length` inbound (R74)
and `payload.length` outbound. -/
inductive Instr where
  -- inbound frames (R81)
  | badMarker (m s l : Byte)
  | badStatus (m s l : Byte)
  | reqAck (m : Byte)
  | badFunc (m f : Byte) (args : List Byte)
  | badCount (m f : Byte) (args : List Byte)
  | reqCount (m : Byte)
  | reqNames (m id slot : Byte)
  | reqUser (m f : Byte) (args : List Byte)
  -- outbound frames (R82)
  | rspStatus (m s : Byte)
  | rspData (m s : Byte) (payload : List Byte)
  -- ring primitives (R100 to R105)
  | rbCount (b : RingId)
  | rbPush (b : RingId) (v : Byte)
  | rbPop (b : RingId)
  | rbEmpty (b : RingId)
  | rbPeek (b : RingId) (i : Byte)
  | rbFlush (b : RingId)
  -- byte transport (R120 to R125)
  | tryReceive
  | rxService
  | tryTransmit
  | txService
  | enqueueOutbound (v : Byte)
  -- framing state machine (R141 to R147)
  | parseService
  | headerStep
  | payloadStep
  -- command table (R170 to R175)
  | tableBuild
  | name (id slot : Byte)
  | requiredBytes (id : Byte)
  | count
  | invoke (id offset : Byte)
  -- response encoder (R190 to R192)
  | send (payload : List Byte) (length : Byte) (status : Byte := 0x00#8)
  | sendString (bytes : List Byte)
  | sendStatus (status : Byte)
  -- watchdog (R200 to R206)
  | wdCheck
  | wdTick
  | wdHeartbeat
  | stop
  | wdSetTimeout (t : Nat)
  -- poll loop and environment (R216, R221)
  | coreStep
  | envRxArrive (v : Byte)
  | envTxReady (r : Bool)
deriving DecidableEq, Repr

end Sys2Proof
end

