-- ==== Sys2Proof/WellFormed.lean ====
section
/-! DEFINITION. Which instructions are well formed on a given device: the constraint column of the opcode table, with
the forms made exclusive by R81's "a form is selected by the first row that matches" (log 17), and the operand ranges of
the internal operations. -/

namespace Sys2Proof

/-- What the decoder and the operand ranges need to know of a device: `MARKER` (R7), `required_bytes` of every command
(R31; its length is `NFUNC`) and `TICK_BITS` (R10). -/
structure View where
  marker : Byte
  required : List Nat
  tickBits : Nat
deriving DecidableEq, Repr

/-- `NFUNC` (R8). -/
def View.nfunc (v : View) : Nat := v.required.length

/-- The constraint column of the opcode table, row by row. -/
def WellFormed (v : View) : Instr → Bool
  | .badMarker m _ _ => m != v.marker
  | .badStatus m s _ => m == v.marker && s != 0x00#8
  | .reqAck m => m == v.marker
  | .badFunc m f args => m == v.marker && decide (v.nfunc ≤ f.toNat) && decide (args.length ≤ 254)
  | .badCount m f args =>
    m == v.marker && decide (f.toNat < v.nfunc) && v.required[f.toNat]? != some args.length
      && decide (args.length ≤ 254)
  | .reqCount m => m == v.marker && v.required[0]? == some 0
  | .reqNames m _ _ => m == v.marker && v.required[1]? == some 2
  | .reqUser m f args =>
    m == v.marker && decide (2 ≤ f.toNat) && v.required[f.toNat]? == some args.length && decide (args.length ≤ 254)
  | .rspStatus m _ => m == v.marker
  | .rspData m _ payload => m == v.marker && decide (1 ≤ payload.length) && decide (payload.length ≤ 255)
  | .rbCount _ => true
  | .rbPush _ _ => true
  | .rbPop _ => true
  | .rbEmpty _ => true
  | .rbPeek _ _ => true
  | .rbFlush _ => true
  | .tryReceive => true
  | .rxService => true
  | .tryTransmit => true
  | .txService => true
  | .enqueueOutbound _ => true
  | .parseService => true
  | .headerStep => true
  | .payloadStep => true
  | .tableBuild => true
  | .name id slot => decide (id.toNat < v.nfunc) && decide (slot.toNat ≤ 2)
  | .requiredBytes id => decide (id.toNat < v.nfunc)
  | .count => true
  | .invoke id _ => decide (id.toNat < v.nfunc)
  | .send payload length _ => decide (length.toNat ≤ payload.length)
  | .sendString _ => true
  | .sendStatus _ => true
  | .wdCheck => true
  | .wdTick => true
  | .wdHeartbeat => true
  | .stop => true
  | .wdSetTimeout t => decide (t < 2 ^ v.tickBits)
  | .coreStep => true
  | .envRxArrive _ => true
  | .envTxReady _ => true

end Sys2Proof
end

