-- ==== Sys2Proof/Decode.lean ====
section
/-! DEFINITION. Decoding frames: total on any bytes, rejecting by name, in the order of R81 (inbound) and R82 (outbound);
then the encoder, from the same tables. -/

namespace Sys2Proof

/-- Why bytes are not (yet) a frame. `truncatedHeader` and `truncatedPayload`: R140's gate would still be closed.
`builtinWidth`: the table gives a built-in command another width than its form has (R178, R179 fix 0 and 2), so the
frame is none of R81's forms (log 24). `markerExpected`: an outbound frame starts with MARKER (R72). -/
inductive DecodeError where
  | truncatedHeader
  | truncatedPayload
  | builtinWidth
  | markerExpected
deriving DecidableEq, Repr

/-- The five forms with a good header and `L >= 1`, once the `L - 1` argument bytes are known (R81, R147). -/
def decodeCommand (v : View) (m f : Byte) (args : List Byte) : Except DecodeError Instr :=
  match v.required[f.toNat]? with
  | none => .ok (.badFunc m f args)
  | some n =>
    if args.length ≠ n then .ok (.badCount m f args)
    else if f = 0x00#8 then
      match args with
      | [] => .ok (.reqCount m)
      | _ => .error .builtinWidth
    else if f = 0x01#8 then
      match args with
      | [id, slot] => .ok (.reqNames m id slot)
      | _ => .error .builtinWidth
    else .ok (.reqUser m f args)

/-- The payload of a frame with length byte `l >= 1`: the function id, then `l - 1` argument bytes (R74, R77). -/
def decodePayload (v : View) (m l : Byte) : List Byte → Except DecodeError (Instr × List Byte)
  | [] => .error .truncatedPayload
  | f :: rest =>
    if rest.length < l.toNat - 1 then .error .truncatedPayload
    else
      match decodeCommand v m f (rest.take (l.toNat - 1)) with
      | .ok i => .ok (i, rest.drop (l.toNat - 1))
      | .error e => .error e

/-- An inbound frame at the front of a byte list, with the bytes after it (R70, R81: the first row that matches). -/
def decodeInbound (v : View) : List Byte → Except DecodeError (Instr × List Byte)
  | m :: s :: l :: rest =>
    if m ≠ v.marker then .ok (.badMarker m s l, rest)
    else if s ≠ 0x00#8 then .ok (.badStatus m s l, rest)
    else if l = 0x00#8 then .ok (.reqAck m, rest)
    else decodePayload v m l rest
  | _ => .error .truncatedHeader

/-- An outbound frame at the front of a byte list, with the bytes after it (R82), as the host reads it. -/
def decodeOutbound (v : View) : List Byte → Except DecodeError (Instr × List Byte)
  | m :: s :: n :: rest =>
    if m ≠ v.marker then .error .markerExpected
    else if n = 0x00#8 then .ok (.rspStatus m s, rest)
    else if rest.length < n.toNat then .error .truncatedPayload
    else .ok (.rspData m s (rest.take n.toNat), rest.drop n.toNat)
  | _ => .error .truncatedHeader

/-- The bytes of a frame in wire order (R70, R81, R82); internal operations have no encoding. -/
def encode : Instr → Option (List Byte)
  | .badMarker m s l => some [m, s, l]
  | .badStatus m s l => some [m, s, l]
  | .reqAck m => some [m, 0x00#8, 0x00#8]
  | .badFunc m f args => some (m :: 0x00#8 :: BitVec.ofNat 8 (args.length + 1) :: f :: args)
  | .badCount m f args => some (m :: 0x00#8 :: BitVec.ofNat 8 (args.length + 1) :: f :: args)
  | .reqCount m => some [m, 0x00#8, 0x01#8, 0x00#8]
  | .reqNames m id slot => some [m, 0x00#8, 0x03#8, 0x01#8, id, slot]
  | .reqUser m f args => some (m :: 0x00#8 :: BitVec.ofNat 8 (args.length + 1) :: f :: args)
  | .rspStatus m s => some [m, s, 0x00#8]
  | .rspData m s payload => some (m :: s :: BitVec.ofNat 8 payload.length :: payload)
  | .rbCount _ => none
  | .rbPush _ _ => none
  | .rbPop _ => none
  | .rbEmpty _ => none
  | .rbPeek _ _ => none
  | .rbFlush _ => none
  | .tryReceive => none
  | .rxService => none
  | .tryTransmit => none
  | .txService => none
  | .enqueueOutbound _ => none
  | .parseService => none
  | .headerStep => none
  | .payloadStep => none
  | .tableBuild => none
  | .name _ _ => none
  | .requiredBytes _ => none
  | .count => none
  | .invoke _ _ => none
  | .send _ _ _ => none
  | .sendString _ => none
  | .sendStatus _ => none
  | .wdCheck => none
  | .wdTick => none
  | .wdHeartbeat => none
  | .stop => none
  | .wdSetTimeout _ => none
  | .coreStep => none
  | .envRxArrive _ => none
  | .envTxReady _ => none

/-- What the decoder needs to know of a device whose table ROM is `t`. -/
def tableView (cfg : Config) (t : Machine.Table) : View :=
  { marker := cfg.marker, required := t.entries.map (·.required), tickBits := cfg.tickBits }

/-- The same for a device as startup leaves it (R170). -/
def configView (cfg : Config) : View :=
  tableView cfg ((Machine.buildTable cfg).getD { entries := [] })

/-- The bytes of a table row's word alone, in wire order: opcode_table.json reads a row's pattern as one number, the
first byte on the wire being its most significant (log 18). -/
def wordBytes (w : Nat) : Nat → List Byte
  | 0 => []
  | n + 1 => BitVec.ofNat 8 (w >>> (8 * n)) :: wordBytes w n

/-- The whole frame a table row's word begins: the bytes the word does not reach, up to the frame's end at `3 + L`
(R71), are 0. -/
def tableWordBytes (nbits w : Nat) : List Byte :=
  match wordBytes w (nbits / 8) with
  | m :: s :: l :: rest => m :: s :: l :: (rest ++ List.replicate (l.toNat - rest.length) 0x00#8)
  | bs => bs

/-- The instruction the inbound decoder reads from a table row's word on the device `State.reset` stands for. -/
def decodeTableWord (nbits w : Nat) : Option Instr :=
  match decodeInbound (configView Machine.resetConfig) (tableWordBytes nbits w) with
  | .ok (i, _) => some i
  | .error _ => none

end Sys2Proof
end

