-- ==== Sys2Proof/Machine/State.lean ====
section
/-! DEFINITION. The state of the machine as plain data: every piece `10_state.md` names, the parameters, and the model's
own fields (`ret`, `env`), with the reasons a step can stop and the state after reset. -/

namespace Sys2Proof.Machine

/-- The cells of one ring array that have been written, in rising order of index; an unlisted cell has no value (R40,
R57). -/
abbrev Memory := List Host.Cell

/-- One ring buffer (R20, R21). -/
structure Ring where
  data : Memory
  head : Byte
  tail : Byte
deriving DecidableEq, Repr

/-- `PS.stage` (R27). -/
inductive Stage where
  | awaitingHeader
  | awaitingPayload
deriving DecidableEq, Repr

/-- The parser state `PS` (R27, R28). -/
structure Parser where
  stage : Stage
  wait : Byte
deriving DecidableEq, Repr

/-- The watchdog registers (R29), unsigned numbers below `2 ^ TICK_BITS` (log 15). -/
structure Watchdog where
  elapsed : Nat
  timeout : Nat
deriving DecidableEq, Repr

/-- `SEQ.phase` (R32). -/
inductive Phase where
  | a
  | b
  | c
  | d
deriving DecidableEq, Repr

/-- The hardware receive register as the core sees it (R25). -/
structure RxRegister where
  valid : Bool
  data : Byte
deriving DecidableEq, Repr

/-- The hardware transmit register as the core sees it (R26). -/
structure TxRegister where
  ready : Bool
deriving DecidableEq, Repr

/-- The model faults of R246, recorded in the latch `State.fault` by `raise`. -/
inductive ModelFault where
  | ringOverflow (b : RingId)
  | unwrittenRead (b : RingId) (i : Byte)
  | stringTooLong (n : Nat)
  | handlerContract
  | tableMalformed
deriving DecidableEq, Repr

/-- The externally visible events (R35). -/
inductive Event where
  | rx (v : Byte)
  | tx (v : Byte)
  | invoke (f offset : Byte)
  | stop
  | tick
  | heartbeat
deriving DecidableEq, Repr

/-- What an operation of the opcode table returns (log 11). -/
inductive Ret where
  | unit
  | byte (v : Byte)
  | flag (v : Bool)
  | optByte (v : Option Byte)
  | bytes (v : List Byte)
  | nat (n : Nat)
deriving DecidableEq, Repr

/-- The model's view of what lies outside the block: the moves of the agents to come (log 5), the bytes the host has
sent that are not yet delivered (R221, log 6), the outcomes of draws already fixed from outside (log 8, log 10), and how
many free values have been drawn (log 12). -/
structure Env where
  moves : List Move
  line : List Byte
  bools : List Bool
  answers : List HandlerAnswer
  drawn : Nat
deriving DecidableEq, Repr

/-- The whole state (`10_state.md` section 1). -/
structure State where
  cfg : Config
  table : Table
  rxb : Ring
  txb : Ring
  ps : Parser
  wd : Watchdog
  phase : Phase
  rxr : RxRegister
  txr : TxRegister
  halted : Bool
  fault : Option ModelFault
  history : List Event
  ret : Ret
  env : Env
deriving DecidableEq, Repr

/-- Why the machine stops: the core is asked for a step it does not have (R34, R216, S10; log 4). -/
inductive Fault where
  /-- Raised by core_step when `halted` is true: stop() did not return. Safe: the spec says the core takes no step. -/
  | coreHalted
  /-- Raised by core_step when the fault latch is set. Safe: the spec says the core takes no step. -/
  | coreFaulted (f : ModelFault)
deriving DecidableEq, Repr

/-- Why an instruction has no effect to take. -/
inductive Refusal where
  /-- Raised by an arm of `exec` whose instruction has no meaning yet. Safe. -/
  | notModelled (mnemonic : String)
  /-- Raised by name, required_bytes, invoke and send outside the operand range their rules give (R172, R173, R175,
  R190): there the spec says the operation is not defined. Safe. -/
  | operandOutOfRange (mnemonic : String)
  /-- Raised by env_rx_arrive while RXR holds a byte: receive overrun is not given a step (R221, S9). Safe against the
  spec; R275 (1) says what it leaves out. -/
  | receiveOverrun
  /-- Raised by env_rx_arrive of a byte that is not the next one on the line (R221: in order, none invented). Safe. -/
  | notNextOnLine
deriving DecidableEq, Repr

/-- A ring with both indices 0 and every cell unwritten (R40). -/
def emptyRing : Ring := { data := [], head := 0x00#8, tail := 0x00#8 }

/-- The machine before its table is built. -/
def State.cold (cfg : Config) : State :=
  { cfg := cfg
    table := { entries := [] }
    rxb := emptyRing
    txb := emptyRing
    ps := { stage := .awaitingHeader, wait := 0x03#8 }
    wd := { elapsed := 0, timeout := cfg.timeoutReset }
    phase := .a
    rxr := { valid := false, data := 0x00#8 }
    txr := { ready := false }
    halted := false
    fault := none
    history := []
    ret := .unit
    env := { moves := [], line := [], bools := [], answers := [], drawn := 0 } }

/-- The machine of any configuration right after startup (R40 to R45): the table is built before the first poll
iteration (R44), a malformed one latching its fault (R170). What the table then holds is the model's choice (log 27): no
entry, so that `count()` is 0. -/
def State.resetWith (cfg : Config) : State :=
  match buildTable cfg with
  | some t => { State.cold cfg with table := t }
  | none => { State.cold cfg with fault := some .tableMalformed }

/-- The machine right after reset, for the configuration of log 2. -/
def State.reset : State := State.resetWith resetConfig

end Sys2Proof.Machine
end

