-- ==== Sys2Proof/Machine/Ops.lean ====
section
/-! DEFINITION. The named operations the instructions share: ring memory, the updates of State, sequencing with `raise`,
the ring primitives of `40_ring_buffer.md`, draws, and the entry and return of the protocol errors. -/

namespace Sys2Proof.Machine

/-! Ring memory (R50 to R57). -/

/-- The value of cell `a`, if it has ever been written (R57). -/
def Memory.read : Memory → Nat → Option Byte
  | [], _ => none
  | (k, v) :: rest, a => if k = a then some v else Memory.read rest a

/-- Writes cell `a`, keeping the cells in rising order. -/
def Memory.write : Memory → Nat → Byte → Memory
  | [], a, v => [(a, v)]
  | (k, w) :: rest, a, v =>
    if a < k then (a, v) :: (k, w) :: rest
    else if a = k then (a, v) :: rest
    else (k, w) :: Memory.write rest a v

/-- The canonical form from index `lo` on: indices strictly rising and below 256. -/
def Memory.wfFrom : Nat → Memory → Bool
  | _, [] => true
  | lo, (k, _) :: rest => decide (lo ≤ k) && decide (k < 256) && Memory.wfFrom (k + 1) rest

/-- The canonical form of a ring array: equal arrays are equal lists. -/
def Memory.wf (m : Memory) : Bool := Memory.wfFrom 0 m

/-! Updates of State. -/

def ringOf (s : State) : RingId → Ring
  | .rxb => s.rxb
  | .txb => s.txb

def setRing (s : State) (b : RingId) (r : Ring) : State :=
  match b with
  | .rxb => { s with rxb := r }
  | .txb => { s with txb := r }

def setTable (s : State) (t : Table) : State := { s with table := t }

def setParser (s : State) (p : Parser) : State := { s with ps := p }

def setElapsed (s : State) (n : Nat) : State := { s with wd := { s.wd with elapsed := n } }

def setTimeout (s : State) (n : Nat) : State := { s with wd := { s.wd with timeout := n } }

def setPhase (s : State) (p : Phase) : State := { s with phase := p }

def setRxr (s : State) (r : RxRegister) : State := { s with rxr := r }

def setTxr (s : State) (r : TxRegister) : State := { s with txr := r }

def setHalted (s : State) : State := { s with halted := true }

def setRet (s : State) (r : Ret) : State := { s with ret := r }

def setEnv (s : State) (e : Env) : State := { s with env := e }

/-- `emit` (R35). -/
def emit (e : Event) (s : State) : State := { s with history := s.history ++ [e] }

/-- Sets the fault latch; a latch that is set stays as it is (R34, D29; log 22). -/
def latch (f : ModelFault) (s : State) : State :=
  { s with fault := match s.fault with
      | some g => some g
      | none => some f }

/-! Sequencing. -/

/-- How an operation ends: with a value, or stopped by `raise` in the state reached so far (`00_scope.md` 5.3). -/
inductive Res (α : Type) where
  | ok (a : α) (s : State)
  | raised (s : State)

/-- One operation after another; what follows a `raise` does not happen. -/
def Res.bind {α β : Type} (r : Res α) (k : α → State → Res β) : Res β :=
  match r with
  | .ok a s => k a s
  | .raised s => .raised s

/-- Applies a function to the returned value. -/
def Res.map {α β : Type} (g : α → β) (r : Res α) : Res β :=
  match r with
  | .ok a s => .ok (g a) s
  | .raised s => .raised s

/-- The state an operation leaves, raised or not. -/
def Res.state {α : Type} : Res α → State
  | .ok _ s => s
  | .raised s => s

/-- `raise f` (`00_scope.md` 5.3, R34, R246). -/
def raise {α : Type} (f : ModelFault) (s : State) : Res α := .raised (latch f s)

/-- The outcome of an operation that returns nothing: a `raise` is a next state with the latch set (log 3). -/
def done (r : Res Unit) : Host.Outcome State Fault Refusal := .next r.state

/-- The outcome of an operation that returns a value (log 11). -/
def answer (r : Res Ret) : Host.Outcome State Fault Refusal :=
  match r with
  | .ok v s => .next (setRet s v)
  | .raised s => .next s

/-! Ring primitives (R100 to R105). -/

/-- R100. -/
def rbCount (b : RingId) (s : State) : Byte := (ringOf s b).head - (ringOf s b).tail

/-- R103. -/
def rbEmpty (b : RingId) (s : State) : Bool := (ringOf s b).head == (ringOf s b).tail

/-- `MemRead(B, i, 1)` (R53, R57). -/
def memRead (b : RingId) (i : Byte) (s : State) : Res Byte :=
  match Memory.read (ringOf s b).data i.toNat with
  | some v => .ok v s
  | none => raise (.unwrittenRead b i) s

/-- `MemWrite(B, i, 1, v)` (R53). -/
def memWrite (b : RingId) (i v : Byte) (s : State) : State :=
  setRing s b { ringOf s b with data := Memory.write (ringOf s b).data i.toNat v }

def setHead (b : RingId) (i : Byte) (s : State) : State := setRing s b { ringOf s b with head := i }

def setTail (b : RingId) (i : Byte) (s : State) : State := setRing s b { ringOf s b with tail := i }

/-- R101: store at the write position, then advance it. -/
def rbPush (b : RingId) (v : Byte) (s : State) : State :=
  setHead b ((ringOf s b).head + 1) (memWrite b (ringOf s b).head v s)

/-- R102: read at the read position, then advance it. -/
def rbPop (b : RingId) (s : State) : Res Byte :=
  (memRead b (ringOf s b).tail s).bind fun v s1 => .ok v (setTail b ((ringOf s1 b).tail + 1) s1)

/-- R104. -/
def rbPeek (b : RingId) (i : Byte) (s : State) : Res Byte := memRead b i s

/-- R105. -/
def rbFlush (b : RingId) (s : State) : State := setTail b (ringOf s b).head s

/-- The guarded push of R121 and R125: under `OVERFLOW_POLICY = fault` a push at count 255 raises. -/
def guardedPush (b : RingId) (v : Byte) (s : State) : Res Unit :=
  if s.cfg.overflowPolicy = .fault ∧ rbCount b s = 0xFF#8 then raise (.ringOverflow b) s
  else .ok () (rbPush b v s)

/-! Draws: an outcome fixed from outside if there is one, else a free value. -/

/-- Draws a boolean (R145, R180, R205; log 10). -/
def drawBool (s : State) : Bool × State :=
  match s.env.bools with
  | r :: rest => (r, setEnv s { s.env with bools := rest })
  | [] => (Config.freeBool s.env.drawn, setEnv s { s.env with drawn := s.env.drawn + 1 })

/-- Draws the answer of the handler of user command `f` called with offset `o` (R224; log 8). -/
def drawAnswer (f o : Byte) (window : List (Option Byte)) (s : State) : HandlerAnswer × State :=
  match s.env.answers with
  | r :: rest => (r, setEnv s { s.env with answers := rest })
  | [] => (Config.freeAnswer s.env.drawn f o window, setEnv s { s.env with drawn := s.env.drawn + 1 })

/-! The reply frames (`44_response_encoder.md`), which every error needs. -/

/-- R125. -/
def enqueueOutbound (v : Byte) (s : State) : Res Unit := guardedPush .txb v s

/-- R125, on a list of bytes in order. -/
def enqueueAll : List Byte → State → Res Unit
  | [], s => .ok () s
  | v :: rest, s => (enqueueOutbound v s).bind fun _ s1 => enqueueAll rest s1

/-- R190: marker, status, length, then the first `length` bytes of the payload. -/
def sendFrame (payload : List Byte) (length status : Byte) (s : State) : Res Unit :=
  enqueueAll (s.cfg.marker :: status :: length :: payload.take length.toNat) s

/-- R192. -/
def sendStatusFrame (status : Byte) (s : State) : Res Unit := sendFrame [] 0x00#8 status s

/-! The parser's positions and the exceptions of the block: protocol errors (R230 to R235, R241, R243). -/

/-- The parser back in AWAITING_HEADER with wait count 3 (R27, R28). -/
def resetParser (s : State) : State := setParser s { stage := .awaitingHeader, wait := 0x03#8 }

/-- The parser waiting for `l` payload bytes (R146). -/
def awaitPayload (l : Byte) (s : State) : State := setParser s { stage := .awaitingPayload, wait := l }

/-- The end of every payload step (R147) and the return from an error found there (R243): flush, back to a header. -/
def finishFrame (s : State) : State := resetParser (rbFlush .rxb s)

/-- Taking a protocol error of the payload stage (R231, R232, R241): the reply, the flush, the parser back. -/
def takeError (code : Byte) (s : State) : Res Unit :=
  (sendStatusFrame code s).bind fun _ s1 => .ok () (finishFrame s1)

/-- One failing header check (R143, R230): flush, then the reply; R143 returns the parser after both checks. -/
def rejectHeader (s : State) : Res Unit := sendStatusFrame 0x05#8 (rbFlush .rxb s)

/-- Moves the inbound read position past bytes the parser has taken. -/
def skipInbound (n : Byte) (s : State) : State := setTail .rxb (s.rxb.tail + n) s

end Sys2Proof.Machine
end

