-- ==== Sys2Proof/Machine/Operands.lean ====
section
/-! DEFINITION. The operand forms: the one addressing mode (an index modulo 256, R56), the handler's window (R59), the
argument fields of a parameter format (R78), strings (R88, R191) and status codes (R75). -/

namespace Sys2Proof.Machine

/-! Status codes (R75). -/

abbrev statusOk : Byte := 0x00#8
abbrev statusBusy : Byte := 0x01#8
abbrev statusError : Byte := 0x02#8
abbrev statusUndefinedFunction : Byte := 0x03#8
abbrev statusByteCountError : Byte := 0x04#8
abbrev statusCommunicationError : Byte := 0x05#8
abbrev statusChecksumError : Byte := 0x06#8
abbrev statusValueError : Byte := 0x07#8

/-- The index of the `k`-th byte after index `i`: `i +8 k` (R56). -/
def indexAt (i : Byte) (k : Nat) : Byte := i + BitVec.ofNat 8 k

/-- The `n` cells of a ring from index `i` on, each with its value if it has one (R56, R59). -/
def cellsFrom (b : RingId) (s : State) (i : Byte) : Nat → List (Option Byte)
  | 0 => []
  | n + 1 => Memory.read (ringOf s b).data i.toNat :: cellsFrom b s (i + 1) n

/-- The window of a handler called with offset `o` for a command of `required` argument bytes (R59). -/
def window (o : Byte) (required : Nat) (s : State) : List (Option Byte) := cellsFrom .rxb s o required

/-- Where argument `j` of a parameter format starts in the payload: after the function id and the fields before it
(R78). -/
def argumentOffset (cfg : Config) (format : List Byte) (j : Nat) : Nat := 1 + formatBytes cfg (format.take j)

/-- The bytes of a string before its first zero byte (R88, R191). Where the list holds no zero byte, which a null-terminated
string does not, its end stands for the terminator: the model's choice (log 28). -/
def stringBytes (s : List Byte) : List Byte := s.takeWhile (· != 0x00#8)

/-- `name(id, slot)` (R172): slot 0 the name, 1 the parameter format, 2 the return format; `none` outside the range. -/
def tableString (t : Table) (id slot : Byte) : Option (List Byte) :=
  match t.entries[id.toNat]? with
  | none => none
  | some e =>
    if slot = 0x00#8 then some e.name
    else if slot = 0x01#8 then some e.paramFormat
    else if slot = 0x02#8 then some e.returnFormat
    else none

/-- A watchdog value as the register holds it: `TICK_BITS` bits (R29, R207; log 15). -/
def tickWord (cfg : Config) (n : Nat) : Nat := n % 2 ^ cfg.tickBits

end Sys2Proof.Machine
end

