-- ==== Sys2Proof/Machine/Flags.lean ====
section
/-! DEFINITION. The five derived conditions of R33: the block stores no flag. -/

namespace Sys2Proof.Machine

/-- `rx_empty`. -/
def rxEmpty (s : State) : Bool := rbEmpty .rxb s

/-- `tx_empty`. -/
def txEmpty (s : State) : Bool := rbEmpty .txb s

/-- `gate` (R140): unsigned bytes, no wrap. -/
def gate (s : State) : Bool := decide (s.ps.wait ≤ rbCount .rxb s)

/-- `armed` (R30, R201). -/
def armed (s : State) : Bool := s.wd.timeout != 0

/-- `expired` (R33, R200): strict. -/
def expired (s : State) : Bool := armed s && decide (s.wd.timeout < s.wd.elapsed)

end Sys2Proof.Machine
end

