-- ==== Sys2Proof/Machine/Encoder.lean ====
section
/-! DEFINITION. The response encoder (`44_response_encoder.md`) and the two outbound frame forms (R82), whose effect on
the block is that the encoder enqueues them (log 20). -/

namespace Sys2Proof.Machine

/-- `send_string` (R191); a list without a zero byte ends where its terminator would stand (log 28). -/
def sendStringFrame (str : List Byte) (s : State) : Res Unit :=
  if 255 < (stringBytes str).length then raise (.stringTooLong (stringBytes str).length) s
  else sendFrame str (BitVec.ofNat 8 (stringBytes str).length) statusOk s

/-- send (R190); a payload shorter than `length` is outside the rule's operands (log 21). -/
def execSend (payload : List Byte) (length status : Byte) (s : State) : Host.Outcome State Fault Refusal :=
  if length.toNat ≤ payload.length then done (sendFrame payload length status s)
  else .refused (.operandOutOfRange "send")

/-- send_string (R191). -/
def execSendString (str : List Byte) (s : State) : Host.Outcome State Fault Refusal := done (sendStringFrame str s)

/-- send_status (R192). -/
def execSendStatus (status : Byte) (s : State) : Host.Outcome State Fault Refusal := done (sendStatusFrame status s)

/-- RSP.STATUS (R82, R192): the encoder sends the device's marker, which a well-formed `m` equals. -/
def execRspStatus (_m status : Byte) (s : State) : Host.Outcome State Fault Refusal :=
  done (sendFrame [] 0x00#8 status s)

/-- RSP.DATA (R82, R190); more than 255 payload bytes are outside the form (log 21). -/
def execRspData (_m status : Byte) (payload : List Byte) (s : State) : Host.Outcome State Fault Refusal :=
  if payload.length ≤ 255 then done (sendFrame payload (BitVec.ofNat 8 payload.length) status s)
  else .refused (.operandOutOfRange "RSP.DATA")

end Sys2Proof.Machine
end

