-- ==== Sys2Proof/Machine/Watchdog.lean ====
section
/-! DEFINITION. The heartbeat watchdog (`45_watchdog.md`). -/

namespace Sys2Proof.Machine

/-- `wd_tick` (R203): `+T 1`, wrapping at `2 ^ TICK_BITS`. -/
def tickWatchdog (s : State) : State := emit .tick (setElapsed s (tickWord s.cfg (s.wd.elapsed + 1)))

/-- `wd_heartbeat` (R204). -/
def heartbeat (s : State) : State := emit .heartbeat (setElapsed s 0)

/-- `wd_set_timeout` (R206). -/
def writeTimeout (t : Nat) (s : State) : State := setTimeout s (tickWord s.cfg t)

/-- `stop` (R205). -/
def callStop (s : State) : State :=
  match s.cfg.stopReturns with
  | .always => s
  | .never => setHalted s
  | .any => if (drawBool s).1 then (drawBool s).2 else setHalted (drawBool s).2

/-- `wd_check`, phase (d) (R200). -/
def checkWatchdog (s : State) : State := if expired s then callStop (emit .stop s) else s

/-- wd_check (R200). -/
def execWdCheck (s : State) : Host.Outcome State Fault Refusal := done (.ok () (checkWatchdog s))

/-- wd_tick (R203). -/
def execWdTick (s : State) : Host.Outcome State Fault Refusal := done (.ok () (tickWatchdog s))

/-- wd_heartbeat (R204). -/
def execWdHeartbeat (s : State) : Host.Outcome State Fault Refusal := done (.ok () (heartbeat s))

/-- stop (R205). -/
def execStop (s : State) : Host.Outcome State Fault Refusal := done (.ok () (callStop s))

/-- wd_set_timeout (R206). -/
def execWdSetTimeout (t : Nat) (s : State) : Host.Outcome State Fault Refusal := done (.ok () (writeTimeout t s))

end Sys2Proof.Machine
end

