-- ==== Sys2Proof/Machine/Commands.lean ====
section
/-! DEFINITION. The command table's operations, the handlers of the two built-in commands and the interface of user
handlers (`43_command_table.md`). -/

namespace Sys2Proof.Machine

/-- command-count (R178). -/
def commandCount (s : State) : Res Unit :=
  sendFrame [BitVec.ofNat 8 (tableCount s.table)] 0x01#8 statusOk s

/-- The error reply of get-command-names (R179); with both arguments bad the status is a draw (R180, log 10). -/
def namesError (id slot : Byte) (s : State) : Res Unit :=
  if tableCount s.table ≤ id.toNat then
    if 2 < slot.toNat then
      sendStatusFrame (if (drawBool s).1 then statusUndefinedFunction else statusValueError) (drawBool s).2
    else sendStatusFrame statusUndefinedFunction s
  else sendStatusFrame statusValueError s

/-- get-command-names once its two arguments are read (R179): `tableString` is defined on exactly the valid pairs. -/
def namesReply (id slot : Byte) (s : State) : Res Unit :=
  match tableString s.table id slot with
  | some str => sendStringFrame str s
  | none => namesError id slot s

/-- get-command-names (R179), reading its arguments from the inbound ring. -/
def commandNames (o : Byte) (s : State) : Res Unit :=
  (rbPeek .rxb o s).bind fun id s1 => (rbPeek .rxb (indexAt o 1) s1).bind fun slot s2 => namesReply id slot s2

/-- What a handler does to the watchdog (R176 item 3, R224). -/
def applyEffect : WdEffect → State → State
  | .keep, s => s
  | .heartbeat, s => heartbeat s
  | .setTimeout t, s => writeTimeout t s

/-- One peek of a handler called with offset `o`, at position `k`: inside its window the cell has a value or the read
raises UnwrittenRead (R57, R59); outside, an unwritten cell raises the same and a written one is the breach of R176 item
1, HandlerContract (log 8). -/
def peekArgument (o : Byte) (win : List (Option Byte)) (k : Byte) (s : State) : Res Unit :=
  match win[k.toNat]? with
  | some (some _) => .ok () s
  | some none => raise (.unwrittenRead .rxb (o + k)) s
  | none => (rbPeek .rxb (o + k) s).bind fun _ s1 => raise .handlerContract s1

/-- The peeks of a handler, in its order (R176 item 1, R224). -/
def peekArguments (o : Byte) (win : List (Option Byte)) : List Byte → State → Res Unit
  | [], s => .ok () s
  | k :: rest, s => (peekArgument o win k s).bind fun _ s1 => peekArguments o win rest s1

/-- What the core does with the rest of a handler's answer (R224): its watchdog effect, then the one `send` on its behalf
(log 9); more than 255 payload bytes are a breach (log 8). -/
def sendAnswer (status : Byte) (payload : List Byte) (effect : WdEffect) (s : State) : Res Unit :=
  if payload.length ≤ 255 then sendFrame payload (BitVec.ofNat 8 payload.length) status (applyEffect effect s)
  else raise .handlerContract s

/-- A user handler as an oracle (R176, R177, R224): its peeks, its effect, its one reply (log 9), or the fault
HandlerContract (log 8). -/
def userHandler (f o : Byte) (win : List (Option Byte)) (s : State) : Res Unit :=
  match drawAnswer f o win s with
  | (.breach, s1) => raise .handlerContract s1
  | (.reply reads status payload effect, s1) =>
    (peekArguments o win reads s1).bind fun _ s2 => sendAnswer status payload effect s2

/-- `Table.handler[f](o)` (R175). -/
def callHandler (e : Entry) (f o : Byte) (s : State) : Res Unit :=
  match e.handler with
  | .commandCount => commandCount s
  | .commandNames => commandNames o s
  | .user => userHandler f o (window o e.required s) s

/-- `table_build` (R170). A table that is malformed raises before any entry is written, so the table is as it was: the
rule's pseudocode does not place the check, and this is the model's choice (log 27). -/
def rebuildTable (s : State) : Res Unit :=
  match buildTable s.cfg with
  | some t => .ok () (setTable s t)
  | none => raise .tableMalformed s

/-- table_build (R170). -/
def execTableBuild (s : State) : Host.Outcome State Fault Refusal := done (rebuildTable s)

/-- name (R172). -/
def execName (id slot : Byte) (s : State) : Host.Outcome State Fault Refusal :=
  match tableString s.table id slot with
  | some str => answer (.ok (.bytes str) s)
  | none => .refused (.operandOutOfRange "name")

/-- required_bytes (R173). -/
def execRequiredBytes (id : Byte) (s : State) : Host.Outcome State Fault Refusal :=
  match s.table.entries[id.toNat]? with
  | some e => answer (.ok (.nat e.required) s)
  | none => .refused (.operandOutOfRange "required_bytes")

/-- count (R174). -/
def execCount (s : State) : Host.Outcome State Fault Refusal := answer (.ok (.nat (tableCount s.table)) s)

/-- invoke (R175). -/
def execInvoke (id offset : Byte) (s : State) : Host.Outcome State Fault Refusal :=
  match s.table.entries[id.toNat]? with
  | some e => done (callHandler e id offset s)
  | none => .refused (.operandOutOfRange "invoke")

end Sys2Proof.Machine
end

