-- ==== Sys2Proof/Machine/Framing.lean ====
section
/-! DEFINITION. The framing state machine (`42_framing.md`): the pseudocode of R141, R143 and R147. -/

namespace Sys2Proof.Machine

/-- The second header check (R143, R145): the frame's own status byte, or a draw when `HDR_RECHECK = draw` and the
marker is bad. -/
def secondCheck (badM : Bool) (st : Byte) (s : State) : Bool × State :=
  if s.cfg.hdrRecheck = .draw ∧ badM = true then drawBool s else (st != 0x00#8, s)

/-- One check of the header: a failing one flushes and replies (R143). -/
def reportIf (bad : Bool) (s : State) : Res Unit := if bad then rejectHeader s else .ok () s

/-- The header step once its three bytes are popped (R143, R144, R146, R153 (1)). -/
def judgeHeader (m st l : Byte) (s : State) : Res Unit :=
  (reportIf (m != s.cfg.marker) s).bind fun _ s1 =>
    (reportIf (secondCheck (m != s.cfg.marker) st s1).1 (secondCheck (m != s.cfg.marker) st s1).2).bind fun _ s2 =>
      if (m != s.cfg.marker || (secondCheck (m != s.cfg.marker) st s1).1) = true then .ok () (resetParser s2)
      else if l = 0x00#8 then sendStatusFrame statusOk s2
      else .ok () (awaitPayload l s2)

/-- `header_step` (R142, R143). -/
def headerStep (s : State) : Res Unit :=
  (rbPop .rxb s).bind fun m s1 =>
    (rbPop .rxb s1).bind fun st s2 =>
      (rbPop .rxb s2).bind fun l s3 => judgeHeader m st l s3

/-- The payload step once the function id is popped (R147): range, then byte count, then the handler (R153 (2) to (4)). -/
def judgePayload (l f : Byte) (s : State) : Res Unit :=
  match s.table.entries[f.toNat]? with
  | none => takeError statusUndefinedFunction s
  | some e =>
    if l.toNat ≠ 1 + e.required then takeError statusByteCountError s
    else
      (callHandler e f s.rxb.tail (emit (.invoke f s.rxb.tail) s)).bind fun _ s1 => .ok () (finishFrame s1)

/-- `payload_step` (R147). -/
def payloadStep (s : State) : Res Unit :=
  (rbPop .rxb s).bind fun f s1 => judgePayload s.ps.wait f s1

/-- `parse_service`, phase (c) (R141). -/
def parseService (s : State) : Res Unit :=
  if gate s then
    match s.ps.stage with
    | .awaitingHeader => headerStep s
    | .awaitingPayload => payloadStep s
  else .ok () s

/-- parse_service (R141). -/
def execParseService (s : State) : Host.Outcome State Fault Refusal := done (parseService s)

/-- header_step (R143). -/
def execHeaderStep (s : State) : Host.Outcome State Fault Refusal := done (headerStep s)

/-- payload_step (R147). -/
def execPayloadStep (s : State) : Host.Outcome State Fault Refusal := done (payloadStep s)

end Sys2Proof.Machine
end

