-- ==== Sys2Proof/Machine/Frames.lean ====
section
/-! DEFINITION. The meanings of the eight inbound frame forms (R81): what the parser does with a frame once its bytes are
fetched. A header form runs in the header step that completes it; a form with a payload runs in the payload step that
completes it, its header already taken (log 16). -/

namespace Sys2Proof.Machine

/-- The dispatch of a valid frame for command `f` (R147): past the function id, the `invoke` event with the offset of the
first argument byte, the handler, the end of the frame. -/
def dispatched (f : Byte) (handler : State → Res Unit) (s : State) : Res Unit :=
  (handler (emit (.invoke f (s.rxb.tail + 1)) (skipInbound 1 s))).bind fun _ s1 => .ok () (finishFrame s1)

/-- BAD.MARKER (R143). -/
def execBadMarker (m st l : Byte) (s : State) : Host.Outcome State Fault Refusal :=
  done (judgeHeader m st l (skipInbound 3 s))

/-- BAD.STATUS (R143). -/
def execBadStatus (m st l : Byte) (s : State) : Host.Outcome State Fault Refusal :=
  done (judgeHeader m st l (skipInbound 3 s))

/-- REQ.ACK (R144): no flush. -/
def execReqAck (_m : Byte) (s : State) : Host.Outcome State Fault Refusal :=
  done (sendStatusFrame statusOk (skipInbound 3 s))

/-- BAD.FUNC (R147, R231). -/
def execBadFunc (_m _f : Byte) (_args : List Byte) (s : State) : Host.Outcome State Fault Refusal :=
  done (takeError statusUndefinedFunction (skipInbound 1 s))

/-- BAD.COUNT (R147, R232). -/
def execBadCount (_m _f : Byte) (_args : List Byte) (s : State) : Host.Outcome State Fault Refusal :=
  done (takeError statusByteCountError (skipInbound 1 s))

/-- REQ.COUNT (R178). -/
def execReqCount (_m : Byte) (s : State) : Host.Outcome State Fault Refusal := done (dispatched 0x00#8 commandCount s)

/-- REQ.NAMES (R179). -/
def execReqNames (_m id slot : Byte) (s : State) : Host.Outcome State Fault Refusal :=
  done (dispatched 0x01#8 (namesReply id slot) s)

/-- REQ.USER (R177): the handler's offset is the index after the function id, its window holds the frame's argument bytes
(R59). -/
def execReqUser (_m f : Byte) (args : List Byte) (s : State) : Host.Outcome State Fault Refusal :=
  done (dispatched f (userHandler f (s.rxb.tail + 1) (args.map some)) s)

end Sys2Proof.Machine
end

