-- ==== Sys2Proof/Machine/Transport.lean ====
section
/-! DEFINITION. The byte transport (`41_transport.md`). -/

namespace Sys2Proof.Machine

/-- `try_receive` (R120). -/
def tryReceive (s : State) : Res (Option Byte) :=
  if s.rxr.valid then .ok (some s.rxr.data) (emit (.rx s.rxr.data) (setRxr s { s.rxr with valid := false }))
  else .ok none s

/-- `rx_service`, phase (a) (R121). -/
def rxService (s : State) : Res Unit :=
  (tryReceive s).bind fun r s1 =>
    match r with
    | none => .ok () s1
    | some v => guardedPush .rxb v s1

/-- `try_transmit` (R122). -/
def tryTransmit (s : State) : Res Unit :=
  if txEmpty s = false ∧ s.txr.ready = true then (rbPop .txb s).bind fun v s1 => .ok () (emit (.tx v) s1)
  else .ok () s

/-- `tx_service`, phase (b) (R123). -/
def txService (s : State) : Res Unit := tryTransmit s

/-- try_receive (R120). -/
def execTryReceive (s : State) : Host.Outcome State Fault Refusal := answer ((tryReceive s).map Ret.optByte)

/-- rx_service (R121). -/
def execRxService (s : State) : Host.Outcome State Fault Refusal := done (rxService s)

/-- try_transmit (R122). -/
def execTryTransmit (s : State) : Host.Outcome State Fault Refusal := done (tryTransmit s)

/-- tx_service (R123). -/
def execTxService (s : State) : Host.Outcome State Fault Refusal := done (txService s)

/-- enqueue_outbound (R125). -/
def execEnqueueOutbound (v : Byte) (s : State) : Host.Outcome State Fault Refusal := done (enqueueOutbound v s)

end Sys2Proof.Machine
end

