-- ==== Sys2Proof/Machine/Poll.lean ====
section
/-! DEFINITION. The poll loop's step and the steps of the serial environment (`46_poll_loop.md`). -/

namespace Sys2Proof.Machine

/-- The operation of the current phase (R215, R216). -/
def phaseOperation (s : State) : Res Unit :=
  match s.phase with
  | .a => rxService s
  | .b => txService s
  | .c => parseService s
  | .d => .ok () (checkWatchdog s)

/-- The phase after `p` (R32). -/
def nextPhase : Phase → Phase
  | .a => .b
  | .b => .c
  | .c => .d
  | .d => .a

/-- The advance of `SEQ.phase` after phase `p` (R216): a core that stop() halted stays in phase (d). -/
def advancePhase (p : Phase) (s : State) : State := if s.halted then s else setPhase s (nextPhase p)

/-- core_step (R216): without `require (not halted) and fault == none` the core has no step (R34, log 4). -/
def execCoreStep (s : State) : Host.Outcome State Fault Refusal :=
  if s.halted then .fault .coreHalted
  else
    match s.fault with
    | some f => .fault (.coreFaulted f)
    | none =>
      match phaseOperation s with
      | .ok _ s1 => .next (advancePhase s.phase s1)
      | .raised s1 => .next s1

/-- A byte enters RXR (R221). -/
def deliver (v : Byte) (s : State) : State := setRxr s { valid := true, data := v }

/-- env_rx_arrive (R221): only into an empty RXR, only the next byte of the line; where nothing is waiting on the line
the host sends `v` now (log 6). -/
def execEnvRxArrive (v : Byte) (s : State) : Host.Outcome State Fault Refusal :=
  if s.rxr.valid then .refused .receiveOverrun
  else
    match s.env.line with
    | [] => .next (deliver v s)
    | w :: rest =>
      if w = v then .next (deliver v (setEnv s { s.env with line := rest })) else .refused .notNextOnLine

/-- env_tx_ready (R221). -/
def execEnvTxReady (r : Bool) (s : State) : Host.Outcome State Fault Refusal := .next (setTxr s { ready := r })

end Sys2Proof.Machine
end

