-- ==== Sys2Proof/Machine/Ring.lean ====
section
/-! DEFINITION. The meanings of the ring primitives (`40_ring_buffer.md`): one call each of the shared operation. -/

namespace Sys2Proof.Machine

/-- rb_count (R100). -/
def execRbCount (b : RingId) (s : State) : Host.Outcome State Fault Refusal := answer (.ok (.byte (rbCount b s)) s)

/-- rb_push (R101). -/
def execRbPush (b : RingId) (v : Byte) (s : State) : Host.Outcome State Fault Refusal := done (.ok () (rbPush b v s))

/-- rb_pop (R102). -/
def execRbPop (b : RingId) (s : State) : Host.Outcome State Fault Refusal := answer ((rbPop b s).map Ret.byte)

/-- rb_empty (R103). -/
def execRbEmpty (b : RingId) (s : State) : Host.Outcome State Fault Refusal := answer (.ok (.flag (rbEmpty b s)) s)

/-- rb_peek (R104). -/
def execRbPeek (b : RingId) (i : Byte) (s : State) : Host.Outcome State Fault Refusal :=
  answer ((rbPeek b i s).map Ret.byte)

/-- rb_flush (R105). -/
def execRbFlush (b : RingId) (s : State) : Host.Outcome State Fault Refusal := done (.ok () (rbFlush b s))

end Sys2Proof.Machine
end

