-- ==== Sys2Proof/Machine/Dispatch.lean ====
section
/-! DEFINITION. The dispatch: one arm per constructor of Instr, in the order of the opcode table. -/

namespace Sys2Proof.Machine

def exec (i : Instr) (s : State) : Host.Outcome State Fault Refusal :=
  match i with
  | .badMarker m st l => Sys2Proof.Machine.execBadMarker m st l s
  | .badStatus m st l => Sys2Proof.Machine.execBadStatus m st l s
  | .reqAck m => Sys2Proof.Machine.execReqAck m s
  | .badFunc m f args => Sys2Proof.Machine.execBadFunc m f args s
  | .badCount m f args => Sys2Proof.Machine.execBadCount m f args s
  | .reqCount m => Sys2Proof.Machine.execReqCount m s
  | .reqNames m id slot => Sys2Proof.Machine.execReqNames m id slot s
  | .reqUser m f args => Sys2Proof.Machine.execReqUser m f args s
  | .rspStatus m st => Sys2Proof.Machine.execRspStatus m st s
  | .rspData m st payload => Sys2Proof.Machine.execRspData m st payload s
  | .rbCount b => Sys2Proof.Machine.execRbCount b s
  | .rbPush b v => Sys2Proof.Machine.execRbPush b v s
  | .rbPop b => Sys2Proof.Machine.execRbPop b s
  | .rbEmpty b => Sys2Proof.Machine.execRbEmpty b s
  | .rbPeek b k => Sys2Proof.Machine.execRbPeek b k s
  | .rbFlush b => Sys2Proof.Machine.execRbFlush b s
  | .tryReceive => Sys2Proof.Machine.execTryReceive s
  | .rxService => Sys2Proof.Machine.execRxService s
  | .tryTransmit => Sys2Proof.Machine.execTryTransmit s
  | .txService => Sys2Proof.Machine.execTxService s
  | .enqueueOutbound v => Sys2Proof.Machine.execEnqueueOutbound v s
  | .parseService => Sys2Proof.Machine.execParseService s
  | .headerStep => Sys2Proof.Machine.execHeaderStep s
  | .payloadStep => Sys2Proof.Machine.execPayloadStep s
  | .tableBuild => Sys2Proof.Machine.execTableBuild s
  | .name id slot => Sys2Proof.Machine.execName id slot s
  | .requiredBytes id => Sys2Proof.Machine.execRequiredBytes id s
  | .count => Sys2Proof.Machine.execCount s
  | .invoke id offset => Sys2Proof.Machine.execInvoke id offset s
  | .send payload length status => Sys2Proof.Machine.execSend payload length status s
  | .sendString bytes => Sys2Proof.Machine.execSendString bytes s
  | .sendStatus status => Sys2Proof.Machine.execSendStatus status s
  | .wdCheck => Sys2Proof.Machine.execWdCheck s
  | .wdTick => Sys2Proof.Machine.execWdTick s
  | .wdHeartbeat => Sys2Proof.Machine.execWdHeartbeat s
  | .stop => Sys2Proof.Machine.execStop s
  | .wdSetTimeout t => Sys2Proof.Machine.execWdSetTimeout t s
  | .coreStep => Sys2Proof.Machine.execCoreStep s
  | .envRxArrive v => Sys2Proof.Machine.execEnvRxArrive v s
  | .envTxReady r => Sys2Proof.Machine.execEnvTxReady r s

end Sys2Proof.Machine
end

