-- ==== Sys2Proof/Machine/Fetch.lean ====
section
/-! DEFINITION. What one step does around `exec`: which agent moves (R220), which frame the parser has complete before it
(R81, R140), and the phase advance (R216). -/

namespace Sys2Proof.Machine

/-- The agent that moves now: the next of `env.moves`, else a free choice (R220; log 5). -/
def takeMove (s : State) : Move × State :=
  match s.env.moves with
  | m :: rest => (m, setEnv s { s.env with moves := rest })
  | [] => (Config.freeMove s.env.drawn, setEnv s { s.env with drawn := s.env.drawn + 1 })

/-- The byte the serial environment delivers: the next on the line, else the one the host sends now (R221; log 6). -/
def takeByte (s : State) : Byte × State :=
  match s.env.line with
  | v :: _ => (v, s)
  | [] => (Config.freeByte s.env.drawn, setEnv s { s.env with drawn := s.env.drawn + 1 })

/-- The `n` bytes of the inbound ring from index `i` on, if all were written (R57). -/
def fetchBytes (s : State) (i : Byte) : Nat → Option (List Byte)
  | 0 => some []
  | n + 1 =>
    match Memory.read s.rxb.data i.toNat, fetchBytes s (i + 1) n with
    | some v, some rest => some (v :: rest)
    | _, _ => none

/-- The bytes of the frame that stands before the parser: in AWAITING_HEADER the header (R142); in AWAITING_PAYLOAD the
header already taken, whose marker and status were good and whose length is `PS.wait` (R27), and the payload. -/
def frameBytes (s : State) : Option (List Byte) :=
  match s.ps.stage with
  | .awaitingHeader => fetchBytes s s.rxb.tail 3
  | .awaitingPayload =>
    if s.ps.wait = 0x00#8 then none
    else
      match fetchBytes s s.rxb.tail s.ps.wait.toNat with
      | some bs => some (s.cfg.marker :: 0x00#8 :: s.ps.wait :: bs)
      | none => none

/-- The frame form the next parser step completes, if it completes one: in phase (c), the core enabled, the gate open,
and the bytes a whole form (a good header with `L >= 1` is not one yet). -/
def fetchFrame (s : State) : Option Instr :=
  if s.phase = .c ∧ s.halted = false ∧ s.fault = none ∧ gate s = true then
    match frameBytes s with
    | none => none
    | some bs =>
      match decodeInbound (tableView s.cfg s.table) bs with
      | .ok (i, _) => some i
      | .error _ => none
  else none

/-- The end of the parser step that ran a frame (R216): phase (d), unless it raised. -/
def afterFrame : Host.Outcome State Fault Refusal → Host.Outcome State Fault Refusal
  | .next s => .next (if s.fault = none then setPhase s .d else s)
  | .fault f => .fault f
  | .refused r => .refused r

/-- A move of the core (R216): the frame before the parser if a parser step completes one, else one phase. -/
def coreMove (s : State) : Host.Outcome State Fault Refusal :=
  match fetchFrame s with
  | some i => afterFrame (exec i s)
  | none => exec .coreStep s

/-- A delivery by the serial environment (R221): while RXR holds a byte, the next one is held back (log 7). -/
def arriveMove (s : State) : Host.Outcome State Fault Refusal :=
  if s.rxr.valid then .next s else exec (.envRxArrive (takeByte s).1) (takeByte s).2

/-- One move of one agent (R219, R220). -/
def runMove (m : Move) (s : State) : Host.Outcome State Fault Refusal :=
  match m with
  | .core => coreMove s
  | .arrive => arriveMove s
  | .txReady r => exec (.envTxReady r) s
  | .tick => exec .wdTick s

/-- Writes bytes to the inbound ring from index `i` on. -/
def writeCells (i : Byte) : List Byte → State → State
  | [], s => s
  | v :: rest, s => writeCells (i + 1) rest (memWrite .rxb i v s)

/-- Places a frame where the parser takes its next one and makes the core's parser step the next move (log 19): a frame
that ends with its header stands at the read position in AWAITING_HEADER; of any other the header is already taken and
the payload stands at the read position in AWAITING_PAYLOAD. -/
def placeFrame (bs : List Byte) (s : State) : State :=
  match bs with
  | m :: st :: l :: rest =>
    if m ≠ s.cfg.marker ∨ st ≠ 0x00#8 ∨ l = 0x00#8 then
      let s1 := writeCells s.rxb.tail [m, st, l] s
      let s2 := resetParser (setHead .rxb (s1.rxb.tail + 3) s1)
      { s2 with phase := .c, halted := false, fault := none, env := { s.env with moves := .core :: s.env.moves } }
    else
      let s1 := writeCells s.rxb.tail (m :: st :: l :: rest.take l.toNat) s
      let s2 := awaitPayload l (setHead .rxb (s1.rxb.tail + 3 + l) (skipInbound 3 s1))
      { s2 with phase := .c, halted := false, fault := none, env := { s.env with moves := .core :: s.env.moves } }
  | _ => s

end Sys2Proof.Machine
end

