-- ==== Sys2Proof/Machine/Step.lean ====
section
/-! DEFINITION. The step relation of the whole machine (R220) as one function, and the placing of a frame before the
parser for the host's questions. -/

namespace Sys2Proof.Machine

/-- One step: the agent whose turn it is makes one move (R216, R219, R220). -/
def step (s : State) : Host.Outcome State Fault Refusal := runMove (takeMove s).1 (takeMove s).2

/-- `s` with a table row's word standing where the parser takes its next frame (log 18, log 19). -/
def State.withFetchWord (s : State) (nbits w : Nat) : State := placeFrame (tableWordBytes nbits w) s

end Sys2Proof.Machine
end

