-- ==== Sys2Proof/Safety.lean ====
section
/-! DEFINITION. What counts as a safe machine: the launch premises (R263), the invariants the prose states (R27, R29,
R31, R150, R151), the quiescent states (R225), and the vocabulary the statements use for runs of raw pushes and pops
(R107, R108). -/

namespace Sys2Proof.Machine

/-- The parameters a device may have (R8, R10, R181): 2 to 255 commands, the built-ins taking 0 and 2 argument bytes, a
tick width, a timeout that fits it. -/
def ConfigOk (cfg : Config) : Prop :=
  2 ≤ cfg.commands.length ∧ cfg.commands.length ≤ 255 ∧
    (cfg.commands[0]?.map fun c => formatBytes cfg c.paramFormat) = some 0 ∧
    (cfg.commands[1]?.map fun c => formatBytes cfg c.paramFormat) = some 2 ∧
    1 ≤ cfg.tickBits ∧ cfg.timeoutReset < 2 ^ cfg.tickBits

/-- The core is enabled (R216, R220). -/
def Running (s : State) : Prop := s.halted = false ∧ s.fault = none

/-- The table ROM is what startup built for the parameters, which are legal (R31, R44, R263). -/
def TableOk (s : State) : Prop := ConfigOk s.cfg ∧ buildTable s.cfg = some s.table

/-- Both ring arrays are in their canonical form. -/
def RingsWf (s : State) : Prop := Memory.wf s.rxb.data = true ∧ Memory.wf s.txb.data = true

/-- The invariant of the parser state (R27). -/
def ParserOk (s : State) : Prop :=
  match s.ps.stage with
  | .awaitingHeader => s.ps.wait = 0x03#8
  | .awaitingPayload => s.ps.wait ≠ 0x00#8

/-- Inbound occupancy (R151): below the wait count outside phases (b) and (c), at most the wait count inside. -/
def OccupancyOk (s : State) : Prop :=
  match s.phase with
  | .a => (rbCount .rxb s).toNat < s.ps.wait.toNat
  | .b => (rbCount .rxb s).toNat ≤ s.ps.wait.toNat
  | .c => (rbCount .rxb s).toNat ≤ s.ps.wait.toNat
  | .d => (rbCount .rxb s).toNat < s.ps.wait.toNat

/-- Every queued cell of a ring has been written (R22, R150). -/
def QueuedWritten (b : RingId) (s : State) : Prop :=
  ∀ k, k < (rbCount b s).toNat → (Memory.read (ringOf s b).data (indexAt (ringOf s b).tail k).toNat).isSome = true

/-- The watchdog registers hold `TICK_BITS`-bit values (R29). -/
def WatchdogOk (s : State) : Prop := s.wd.elapsed < 2 ^ s.cfg.tickBits ∧ s.wd.timeout < 2 ^ s.cfg.tickBits

/-- The state of a device that was started with legal parameters, whatever the host and the environment did since. -/
def Sound (s : State) : Prop :=
  TableOk s ∧ ParserOk s ∧ OccupancyOk s ∧ QueuedWritten .rxb s ∧ QueuedWritten .txb s

/-- Quiescent (R225). -/
def Quiescent (s : State) : Prop :=
  s.fault = none ∧ s.phase = .a ∧ s.rxr.valid = false ∧ s.env.line = [] ∧ rbEmpty .txb s = true ∧ gate s = false

/-- The queued bytes of a ring, oldest first, where all have been written (R22). -/
def Queued (b : RingId) (s : State) (bs : List Byte) : Prop :=
  cellsFrom b s (ringOf s b).tail (rbCount b s).toNat = bs.map some

/-- There is room for `n` more bytes in the outbound ring (R125, R265); under `OVERFLOW_POLICY = wrap` nothing is
checked. -/
def Room (n : Nat) (s : State) : Prop := s.cfg.overflowPolicy = .wrap ∨ (rbCount .txb s).toNat + n ≤ 255

/-- `t` is `s` but for ring `b`, to which the bytes `bs` were appended (R101, R190): `head` has moved past them, `tail`
is where it was, each of them (the last 256, where there are more) stands at its index, and every other cell reads as
before. -/
def Appended (b : RingId) (bs : List Byte) (s t : State) : Prop :=
  t = setRing s b (ringOf t b) ∧
    (ringOf t b).head = indexAt (ringOf s b).head bs.length ∧
    (ringOf t b).tail = (ringOf s b).tail ∧
    (∀ k v, bs[k]? = some v → bs.length ≤ k + 256 →
      Memory.read (ringOf t b).data (indexAt (ringOf s b).head k).toNat = some v) ∧
    ∀ a, (∀ k, k < bs.length → a ≠ (indexAt (ringOf s b).head k).toNat) →
      Memory.read (ringOf t b).data a = Memory.read (ringOf s b).data a

/-- The state once the parser has finished with a frame (R147, R241): nothing buffered, back in AWAITING_HEADER. -/
def frameEnd (s : State) : State :=
  { s with rxb := { s.rxb with tail := s.rxb.head }, ps := { stage := .awaitingHeader, wait := 0x03#8 } }

/-- The state with nothing buffered inbound (R105), the parser where it was. -/
def flushed (s : State) : State := { s with rxb := { s.rxb with tail := s.rxb.head } }

/-- `r` is the outcome of one boolean draw in `s`, after which `env` is `e`: an outcome fixed from outside decides and is
consumed, else a free value is drawn (log 10). -/
def Drew (r : Bool) (s : State) (e : Env) : Prop :=
  (∀ b rest, s.env.bools = b :: rest → r = b ∧ e = { s.env with bools := rest }) ∧
    (s.env.bools = [] → e = { s.env with drawn := s.env.drawn + 1 })

/-- The state with the parser's read position moved past `n` bytes. -/
def pastBytes (n : Byte) (s : State) : State := { s with rxb := { s.rxb with tail := s.rxb.tail + n } }

/-- The state with events appended to the history (R35). -/
def noted (evs : List Event) (s : State) : State := { s with history := s.history ++ evs }

/-- The state with the watchdog effect a handler chose (R204, R206, R224). -/
def withEffect : WdEffect → State → State
  | .keep, s => s
  | .heartbeat, s => noted [.heartbeat] { s with wd := { s.wd with elapsed := 0 } }
  | .setTimeout t, s => { s with wd := { s.wd with timeout := t % 2 ^ s.cfg.tickBits } }

/-- The operation the poll loop runs in a phase (R215). -/
def phaseInstr : Phase → Instr
  | .a => .rxService
  | .b => .txService
  | .c => .parseService
  | .d => .wdCheck

/-- Raw pushes in order (R107, R108). -/
def pushAll (b : RingId) : List Byte → State → State
  | [], s => s
  | v :: rest, s => pushAll b rest (rbPush b v s)

/-- `n` raw pops in order and the bytes they return (R107). -/
def popMany (b : RingId) : Nat → State → Res (List Byte)
  | 0, s => .ok [] s
  | n + 1, s => (rbPop b s).bind fun v s1 => (popMany b n s1).map fun vs => v :: vs

/-- `n` steps of the machine, whichever agents move (R219, R220). -/
def steps : Nat → State → Host.Outcome State Fault Refusal
  | 0, s => .next s
  | n + 1, s =>
    match step s with
    | .next t => steps n t
    | .fault f => .fault f
    | .refused r => .refused r

/-- `n` watchdog ticks in a row (R203, R208). -/
def ticks : Nat → State → State
  | 0, s => s
  | n + 1, s => ticks n (tickWatchdog s)

end Sys2Proof.Machine
end

