-- ==== Sys2Proof/Certificates/Slice0/Obligations.lean ====
section
/-! DEFINITION. The statements for the provers, by family of the opcode table. `exec` and `step` are the model's; the
words used for what a state must look like are Safety.lean's. Where a statement rests on a decision or an inference the
spec marks as its own, its docstring says so. -/

open Sys2Proof Sys2Proof.Machine

/-! Ring primitives (`40_ring_buffer.md`). -/

/-- R100, R103, R104: the three reading primitives return their value, whatever the state, and change nothing else; an
unwritten cell raises. -/
def Obligations.RingReadsReturnValues : Prop :=
  ∀ (b : RingId) (s : State),
    exec (.rbCount b) s = .next { s with ret := .byte ((ringOf s b).head - (ringOf s b).tail) } ∧
    exec (.rbEmpty b) s = .next { s with ret := .flag (decide ((ringOf s b).head = (ringOf s b).tail)) } ∧
    ((rbCount b s).toNat = 0 ↔ (ringOf s b).head = (ringOf s b).tail) ∧
    ∀ i : Byte,
      (∀ v, Memory.read (ringOf s b).data i.toNat = some v →
        exec (.rbPeek b i) s = .next { s with ret := .byte v }) ∧
      (Memory.read (ringOf s b).data i.toNat = none → s.fault = none →
        exec (.rbPeek b i) s = .next { s with fault := some (.unwrittenRead b i) })

/-- R101 (store before increment is the spec's decision D3): the byte stands at the old head, the head has moved by one
modulo 256, no other cell, register or ring changed. -/
def Obligations.PushStoresAtHeadAndAdvances : Prop :=
  ∀ (b : RingId) (v : Byte) (s : State), ∃ t,
    exec (.rbPush b v) s = .next t ∧
    t = setRing s b (ringOf t b) ∧
    (ringOf t b).head = (ringOf s b).head + 1 ∧
    (ringOf t b).tail = (ringOf s b).tail ∧
    Memory.read (ringOf t b).data (ringOf s b).head.toNat = some v ∧
    ∀ a, a ≠ (ringOf s b).head.toNat → Memory.read (ringOf t b).data a = Memory.read (ringOf s b).data a

/-- R102, R57 (the spec's decisions D3, D25): a pop returns the byte at the tail, moves the tail and erases nothing; on
a cell never written it raises UnwrittenRead and moves nothing. -/
def Obligations.PopReadsAtTailOrRaises : Prop :=
  ∀ (b : RingId) (s : State),
    (∀ v, Memory.read (ringOf s b).data (ringOf s b).tail.toNat = some v →
      exec (.rbPop b) s =
        .next { setRing s b { ringOf s b with tail := (ringOf s b).tail + 1 } with ret := .byte v }) ∧
    (Memory.read (ringOf s b).data (ringOf s b).tail.toNat = none → s.fault = none →
      exec (.rbPop b) s = .next { s with fault := some (.unwrittenRead b (ringOf s b).tail) })

/-- R105: the flush moves the tail to the head and nothing else; the ring then reads as empty and, the wait count not
being 0, the gate is closed. -/
def Obligations.FlushEmptiesTheRing : Prop :=
  ∀ (b : RingId) (s : State), ∃ t,
    exec (.rbFlush b) s = .next t ∧
    t = setRing s b { ringOf s b with tail := (ringOf s b).head } ∧
    rbEmpty b t = true ∧
    (b = .rxb → s.ps.wait ≠ 0x00#8 → gate t = false)

/-- R107 (the spec's inference from R101 and R102): up to 256 bytes pushed into an empty ring come back in order, from
any start index. -/
def Obligations.PushedBytesComeBackInOrder : Prop :=
  ∀ (b : RingId) (s : State) (vs : List Byte), rbEmpty b s = true → vs.length ≤ 256 →
    ∃ t, popMany b vs.length (pushAll b vs s) = .ok vs t ∧ rbEmpty b t = true

/-- R108 (the spec's inference): after 256 pushes into an empty ring it reads as empty, and the next push destroys the
oldest byte: the ring reads as holding one byte and a pop returns the newest. -/
def Obligations.FullRingReadsEmptyThenLosesTheOldest : Prop :=
  ∀ (b : RingId) (s : State) (vs : List Byte) (v : Byte), rbEmpty b s = true → vs.length = 256 →
    rbEmpty b (pushAll b vs s) = true ∧
    (rbCount b (rbPush b v (pushAll b vs s))).toNat = 1 ∧
    ∃ t, rbPop b (rbPush b v (pushAll b vs s)) = .ok v t ∧ rbEmpty b t = true

/-- R106 law (2): after pushes and pops the count is the old count plus pushes minus pops, modulo 256. -/
def Obligations.CountFollowsPushesAndPops : Prop :=
  ∀ (b : RingId) (s t : State) (vs bs : List Byte) (m : Nat), popMany b m (pushAll b vs s) = .ok bs t →
    rbCount b t = rbCount b s + BitVec.ofNat 8 vs.length - BitVec.ofNat 8 m

/-! Byte transport (`41_transport.md`). -/

/-- R120 (the register's shape is the spec's decision D21): a byte in RXR is taken, once; an empty RXR returns nothing.
-/
def Obligations.TryReceiveTakesTheByte : Prop :=
  ∀ s : State,
    (s.rxr.valid = true →
      exec .tryReceive s = .next { s with rxr := { s.rxr with valid := false }
                                          history := s.history ++ [.rx s.rxr.data]
                                          ret := .optByte (some s.rxr.data) }) ∧
    (s.rxr.valid = false → exec .tryReceive s = .next { s with ret := .optByte none })

/-- R121 (the overflow policy is the spec's decision D4): phase (a) moves one byte from RXR to the head of RXB, or does
nothing; under the policy `fault` a push at count 255 raises after the byte was taken. -/
def Obligations.RxServiceMovesOneByte : Prop :=
  ∀ s : State,
    (s.rxr.valid = false → exec .rxService s = .next s) ∧
    (s.rxr.valid = true → (s.cfg.overflowPolicy = .wrap ∨ (rbCount .rxb s).toNat < 255) →
      ∃ t, exec .rxService s = .next t ∧
        Appended .rxb [s.rxr.data] (noted [.rx s.rxr.data] { s with rxr := { s.rxr with valid := false } }) t) ∧
    (s.rxr.valid = true → s.cfg.overflowPolicy = .fault → (rbCount .rxb s).toNat = 255 → s.fault = none →
      exec .rxService s = .next { noted [.rx s.rxr.data] { s with rxr := { s.rxr with valid := false } } with
        fault := some (.ringOverflow .rxb) })

/-- R122, R123: a byte moves from the tail of TXB to the transmitter when TXB is not empty and TXR is ready; otherwise
nothing changes. The pop of a cell never written raises: R57, the spec's decision D25 (log 14). -/
def Obligations.TransmitMovesOneByteIfReady : Prop :=
  ∀ (s : State) (i : Instr), i = .tryTransmit ∨ i = .txService →
    ((rbEmpty .txb s = true ∨ s.txr.ready = false) → exec i s = .next s) ∧
    (∀ v, rbEmpty .txb s = false → s.txr.ready = true → Memory.read s.txb.data s.txb.tail.toNat = some v →
      exec i s = .next (noted [.tx v] { s with txb := { s.txb with tail := s.txb.tail + 1 } })) ∧
    (rbEmpty .txb s = false → s.txr.ready = true → Memory.read s.txb.data s.txb.tail.toNat = none → s.fault = none →
      exec i s = .next { s with fault := some (.unwrittenRead .txb s.txb.tail) })

/-- R125 (the policy and the threshold 255 are the spec's decision D4): one byte appended to TXB, or, under the policy
`fault` at count 255, RingOverflow(TXB) and nothing else. -/
def Obligations.EnqueueAppendsOrOverflows : Prop :=
  ∀ (v : Byte) (s : State),
    (Room 1 s → ∃ t, exec (.enqueueOutbound v) s = .next t ∧ Appended .txb [v] s t) ∧
    (s.cfg.overflowPolicy = .fault → (rbCount .txb s).toNat = 255 → s.fault = none →
      exec (.enqueueOutbound v) s = .next { s with fault := some (.ringOverflow .txb) })

/-! Response encoder (`44_response_encoder.md`). -/

/-- R190, R71, R72: `send` appends marker, status, length and the first `length` payload bytes to TXB, changing nothing
else; under the policy `fault` it raises exactly when count + 3 + length exceeds 255, the bytes that fit staying
enqueued. -/
def Obligations.SendEnqueuesOneFrame : Prop :=
  ∀ (payload : List Byte) (length status : Byte) (s : State), length.toNat ≤ payload.length →
    (Room (3 + length.toNat) s → ∃ t, exec (.send payload length status) s = .next t ∧
      Appended .txb (s.cfg.marker :: status :: length :: payload.take length.toNat) s t) ∧
    (s.fault = none → s.cfg.overflowPolicy = .fault → 255 < (rbCount .txb s).toNat + 3 + length.toNat →
      ∃ t, exec (.send payload length status) s = .next { t with fault := some (.ringOverflow .txb) } ∧
        (rbCount .txb t).toNat = 255 ∧
        Appended .txb ((s.cfg.marker :: status :: length :: payload.take length.toNat).take
          (255 - (rbCount .txb s).toNat)) s t)

/-- R192, R82: the frames without payload: `send_status` and the outbound form RSP.STATUS append marker, status, 0. That
the encoder enqueues an outbound form, and sends the device's marker whatever the operand `m` is, is log 20 (DEDUCED).
-/
def Obligations.StatusFramesAreThreeBytes : Prop :=
  ∀ (m status : Byte) (s : State) (i : Instr), i = .sendStatus status ∨ i = .rspStatus m status →
    (Room 3 s → ∃ t, exec i s = .next t ∧ Appended .txb [s.cfg.marker, status, 0x00#8] s t) ∧
    (s.fault = none → s.cfg.overflowPolicy = .fault → 252 < (rbCount .txb s).toNat →
      ∃ t, exec i s = .next { t with fault := some (.ringOverflow .txb) } ∧
        Appended .txb ([s.cfg.marker, status, 0x00#8].take (255 - (rbCount .txb s).toNat)) s t)

/-- R82, R71: the outbound form RSP.DATA appends marker, status, the payload's length and the payload. That the encoder
enqueues an outbound form, and sends the device's marker whatever the operand `m` is, is log 20 (DEDUCED). A frame that
does not fit is left out here: the form does what `send` does (SendEnqueuesOneFrame). -/
def Obligations.DataFramesCarryTheirLength : Prop :=
  ∀ (m status : Byte) (payload : List Byte) (s : State), payload.length ≤ 255 → Room (3 + payload.length) s →
    ∃ t, exec (.rspData m status payload) s = .next t ∧
      Appended .txb (s.cfg.marker :: status :: BitVec.ofNat 8 payload.length :: payload) s t

/-- R191 (that a longer string raises is the spec's decision D11): the bytes before the first zero are sent with status
OK; more than 255 of them raise StringTooLong and nothing is enqueued. That a list without a zero byte is sent whole is
the model's choice (log 28, DESIGN CHOICE). -/
def Obligations.SendStringStopsAtTheZero : Prop :=
  ∀ (str rest : List Byte) (s : State), (∀ v ∈ str, v ≠ 0x00#8) → (rest = [] ∨ rest.head? = some 0x00#8) →
    (str.length ≤ 255 → Room (3 + str.length) s → ∃ t, exec (.sendString (str ++ rest)) s = .next t ∧
      Appended .txb (s.cfg.marker :: 0x00#8 :: BitVec.ofNat 8 str.length :: str) s t) ∧
    (255 < str.length → s.fault = none →
      exec (.sendString (str ++ rest)) s = .next { s with fault := some (.stringTooLong str.length) })

/-- The model's choice (log 21): outside the operand range the rules R172, R173, R175, R190 give, the operation is
refused by name. -/
def Obligations.OperandsOutOfRangeAreRefused : Prop :=
  ∀ (s : State) (id slot offset length status : Byte) (payload : List Byte),
    (tableCount s.table ≤ id.toNat → exec (.requiredBytes id) s = .refused (.operandOutOfRange "required_bytes") ∧
      exec (.invoke id offset) s = .refused (.operandOutOfRange "invoke")) ∧
    (tableCount s.table ≤ id.toNat ∨ 2 < slot.toNat → exec (.name id slot) s = .refused (.operandOutOfRange "name")) ∧
    (payload.length < length.toNat → exec (.send payload length status) s = .refused (.operandOutOfRange "send"))

/-! Framing state machine (`42_framing.md`). -/

/-- R143, R142, R230 (pop three, then check, is the spec's decision D5): a bad header gets one COMMUNICATION_ERROR reply
per failing check and leaves nothing buffered and the parser in AWAITING_HEADER, the length byte not looked at (R153
(1)). R244, R270: where the replies do not fit (the policy is decision D4) RingOverflow(TXB) is recorded, the bytes that
fit stay enqueued, a first reply that fits whole among them, and the parser is not returned. -/
def Obligations.BadHeaderIsRejected : Prop :=
  ∀ (m st l : Byte) (s : State) (i : Instr) (rs : List Byte),
    (m ≠ s.cfg.marker ∨ st ≠ 0x00#8) → (s.cfg.hdrRecheck = .latched ∨ m = s.cfg.marker) →
    (i = .badMarker m st l ∨ i = .badStatus m st l ∨
      (i = .headerStep ∧ cellsFrom .rxb s s.rxb.tail 3 = [some m, some st, some l])) →
    rs = (if m = s.cfg.marker then [] else [s.cfg.marker, 0x05#8, 0x00#8]) ++
      (if st = 0x00#8 then [] else [s.cfg.marker, 0x05#8, 0x00#8]) →
    (Room rs.length s → ∃ t, exec i s = .next t ∧ Appended .txb rs (frameEnd s) t) ∧
    (s.fault = none → s.cfg.overflowPolicy = .fault → 255 < (rbCount .txb s).toNat + rs.length →
      ∃ t, exec i s = .next { t with fault := some (.ringOverflow .txb) } ∧
        Appended .txb (rs.take (255 - (rbCount .txb s).toNat)) (flushed s) t)

/-- R145 (the spec's decision D5): with HDR_RECHECK = draw a bad marker gets one or two replies by a draw, whatever the
status byte. That the draw is the next outcome fixed from outside, consumed, and else a free value is log 10 (DESIGN
CHOICE). R244, R270 (the policy is decision D4): where the first reply does
not fit, RingOverflow(TXB) comes before the draw; where only the second does not, the draw decides. -/
def Obligations.BadMarkerUnderDraw : Prop :=
  ∀ (m st l : Byte) (s : State) (i : Instr) (err : List Byte), m ≠ s.cfg.marker → s.cfg.hdrRecheck = .draw →
    (i = .badMarker m st l ∨ i = .badStatus m st l ∨
      (i = .headerStep ∧ cellsFrom .rxb s s.rxb.tail 3 = [some m, some st, some l])) →
    err = [s.cfg.marker, 0x05#8, 0x00#8] →
    (Room 6 s → ∃ t again, exec i s = .next t ∧ Drew again s t.env ∧
      Appended .txb (err ++ (if again = true then err else [])) { frameEnd s with env := t.env } t) ∧
    (s.fault = none → s.cfg.overflowPolicy = .fault →
      (252 < (rbCount .txb s).toNat → ∃ t, exec i s = .next { t with fault := some (.ringOverflow .txb) } ∧
        Appended .txb (err.take (255 - (rbCount .txb s).toNat)) (flushed s) t) ∧
      (249 < (rbCount .txb s).toNat → (rbCount .txb s).toNat ≤ 252 → ∃ t again, Drew again s t.env ∧
        (again = false → exec i s = .next t ∧ Appended .txb err { frameEnd s with env := t.env } t) ∧
        (again = true → exec i s = .next { t with fault := some (.ringOverflow .txb) } ∧
          Appended .txb ((err ++ err).take (255 - (rbCount .txb s).toNat)) { flushed s with env := t.env } t)))

/-- R144 (no flush is the spec's decision D6): a good header with length 0 is acknowledged; the bytes behind it stay.
R244 (the policy is decision D4): where the reply does not fit, RingOverflow(TXB) is recorded and the bytes that fit
stay. -/
def Obligations.AckRequestIsAnswered : Prop :=
  ∀ (s : State) (i : Instr),
    (i = .reqAck s.cfg.marker ∨
      (i = .headerStep ∧ cellsFrom .rxb s s.rxb.tail 3 = [some s.cfg.marker, some 0x00#8, some 0x00#8])) →
    (Room 3 s →
      ∃ t, exec i s = .next t ∧ Appended .txb [s.cfg.marker, 0x00#8, 0x00#8] (pastBytes 3 s) t) ∧
    (s.fault = none → s.cfg.overflowPolicy = .fault → 252 < (rbCount .txb s).toNat →
      ∃ t, exec i s = .next { t with fault := some (.ringOverflow .txb) } ∧
        Appended .txb ([s.cfg.marker, 0x00#8, 0x00#8].take (255 - (rbCount .txb s).toNat)) (pastBytes 3 s) t)

/-- R146: a good header with length L >= 1 sets the parser to wait for L bytes; nothing is sent and nothing flushed. -/
def Obligations.GoodHeaderWaitsForItsPayload : Prop :=
  ∀ (l : Byte) (s : State), l ≠ 0x00#8 →
    cellsFrom .rxb s s.rxb.tail 3 = [some s.cfg.marker, some 0x00#8, some l] →
    exec .headerStep s = .next { pastBytes 3 s with ps := { stage := .awaitingPayload, wait := l } }

/-- R147: the payload step pops the function id, checks its range, then the byte count on natural numbers, and replies
0x03 or 0x04, or else emits `invoke` and runs the handler with the index of the first argument byte; unless that raised,
the flush and the parser's return to AWAITING_HEADER follow on all three paths. -/
def Obligations.PayloadStepChecksThenDispatches : Prop :=
  ∀ (f : Byte) (s : State), Memory.read s.rxb.data s.rxb.tail.toNat = some f → s.fault = none →
    (s.table.entries[f.toNat]? = none →
      ∃ t, exec (.sendStatus 0x03#8) (pastBytes 1 s) = .next t ∧
        exec .payloadStep s = .next (if t.fault = none then frameEnd t else t)) ∧
    ∀ e, s.table.entries[f.toNat]? = some e →
      (s.ps.wait.toNat ≠ 1 + e.required →
        ∃ t, exec (.sendStatus 0x04#8) (pastBytes 1 s) = .next t ∧
          exec .payloadStep s = .next (if t.fault = none then frameEnd t else t)) ∧
      (s.ps.wait.toNat = 1 + e.required →
        ∃ t, exec (.invoke f (s.rxb.tail + 1)) (noted [.invoke f (s.rxb.tail + 1)] (pastBytes 1 s)) = .next t ∧
          exec .payloadStep s = .next (if t.fault = none then frameEnd t else t))

/-- R147, R153 (3) and (4), R231, R232: the rejected frames BAD.FUNC and BAD.COUNT get one reply, 0x03 or 0x04; no
handler runs, nothing stays buffered. -/
def Obligations.RejectedFramesGetOneReply : Prop :=
  ∀ (m f : Byte) (args : List Byte) (s : State), Room 3 s →
    (∃ t, exec (.badFunc m f args) s = .next t ∧ Appended .txb [s.cfg.marker, 0x03#8, 0x00#8] (frameEnd s) t) ∧
    (∃ t, exec (.badCount m f args) s = .next t ∧ Appended .txb [s.cfg.marker, 0x04#8, 0x00#8] (frameEnd s) t)

/-- R141, R140 (one step per iteration is the spec's decision D2): phase (c) does nothing with the gate closed and else
makes exactly the step of the parser's stage. -/
def Obligations.ParseServiceObeysTheGate : Prop :=
  ∀ s : State,
    ((rbCount .rxb s).toNat < s.ps.wait.toNat → exec .parseService s = .next s) ∧
    (s.ps.wait.toNat ≤ (rbCount .rxb s).toNat → ∃ t, exec .parseService s = .next t ∧
      (s.ps.stage = .awaitingHeader → exec .headerStep s = .next t) ∧
      (s.ps.stage = .awaitingPayload → exec .payloadStep s = .next t))

/-! Command table and built-in commands (`43_command_table.md`). -/

/-- R170, R31: `table_build` gives every command its strings, its handler and the sum of the widths of its parameter
format, on natural numbers. That ids 0 and 1 are the built-ins is R77, an inference of the spec, with its decision D9
(log 23); that a table of fewer than 2 or more than 255 commands raises TableMalformed is R8 with decision D20, and that
the table is then as it was is log 27. -/
def Obligations.TableBuildSumsTheFormats : Prop :=
  ∀ s : State,
    (2 ≤ s.cfg.commands.length → s.cfg.commands.length ≤ 255 →
      ∃ t, exec .tableBuild s = .next { s with table := t } ∧ t.entries.length = s.cfg.commands.length ∧
        ∀ (i : Nat) (c : Command), s.cfg.commands[i]? = some c → ∃ e : Entry, t.entries[i]? = some e ∧
          e.name = c.name ∧ e.paramFormat = c.paramFormat ∧ e.returnFormat = c.returnFormat ∧
          e.handler = (if i = 0 then Handler.commandCount else if i = 1 then .commandNames else .user) ∧
          e.required = (c.paramFormat.map (widthOf s.cfg)).sum) ∧
    (s.cfg.commands.length < 2 ∨ 255 < s.cfg.commands.length → s.fault = none →
      exec .tableBuild s = .next { s with fault := some .tableMalformed })

/-- R173, R174: `required_bytes` and `count` return what the ROM holds and change nothing else. That NFUNC is the number
of entries of the ROM, in every state, is log 23 (DEDUCED); after a malformed reset that number is 0 by log 27 (DESIGN
CHOICE, unsafe). -/
def Obligations.RequiredBytesAndCountReadTheRom : Prop :=
  ∀ s : State,
    exec .count s = .next { s with ret := .nat s.table.entries.length } ∧
    ∀ (id : Byte) (e : Entry), s.table.entries[id.toNat]? = some e →
      exec (.requiredBytes id) s = .next { s with ret := .nat e.required }

/-- R172 (which slot is which string is the spec's decision D9): `name` returns the string of the slot and changes
nothing else. -/
def Obligations.NameReturnsTheSlot : Prop :=
  ∀ (s : State) (id slot : Byte) (e : Entry) (str : List Byte), s.table.entries[id.toNat]? = some e →
    [e.name, e.paramFormat, e.returnFormat][slot.toNat]? = some str →
    exec (.name id slot) s = .next { s with ret := .bytes str }

/-- R175, R178: `invoke` of an entry whose handler is command-count sends the one-byte count of commands. That
NFUNC is the number of entries of the ROM is log 23 (DEDUCED). -/
def Obligations.InvokeCommandCount : Prop :=
  ∀ (id offset : Byte) (s : State) (e : Entry), s.table.entries[id.toNat]? = some e → e.handler = .commandCount →
    Room 4 s → ∃ t, exec (.invoke id offset) s = .next t ∧
      Appended .txb [s.cfg.marker, 0x00#8, 0x01#8, BitVec.ofNat 8 s.table.entries.length] s t

/-- R178: REQ.COUNT, the frame MARKER 0 1 0, is answered with NFUNC in one byte; the `invoke` event carries id 0 and the
index after the function id, and the frame then ends (R147). A reply that does not fit raises (R125, R190, the spec's
decision D4), the bytes that fit staying enqueued and the frame not ended (R147). The frame run as an instruction is
log 16; that NFUNC is the number of entries of the ROM is log 23 (DEDUCED). -/
def Obligations.CountRequestIsAnswered : Prop :=
  ∀ (m : Byte) (s : State), encode (.reqCount m) = some [m, 0x00#8, 0x01#8, 0x00#8] ∧
    (Room 4 s → ∃ t, exec (.reqCount m) s = .next t ∧
      Appended .txb [s.cfg.marker, 0x00#8, 0x01#8, BitVec.ofNat 8 s.table.entries.length]
        (frameEnd (noted [.invoke 0x00#8 (s.rxb.tail + 1)] s)) t) ∧
    (s.fault = none → s.cfg.overflowPolicy = .fault → 251 < (rbCount .txb s).toNat →
      ∃ t, exec (.reqCount m) s = .next { t with fault := some (.ringOverflow .txb) } ∧
        Appended .txb ([s.cfg.marker, 0x00#8, 0x01#8, BitVec.ofNat 8 s.table.entries.length].take
          (255 - (rbCount .txb s).toNat)) (noted [.invoke 0x00#8 (s.rxb.tail + 1)] (pastBytes 1 s)) t)

/-- R179, R191 (the slot order is the spec's decision D9): get-command-names with both arguments valid sends the bytes
of the selected string, as a frame (REQ.NAMES) and through `invoke`, which reads the arguments from the inbound ring.
That a string the table holds without a zero byte is sent whole is the model's choice (log 28, DESIGN CHOICE). -/
def Obligations.NamesRequestSendsTheString : Prop :=
  ∀ (m id slot : Byte) (s : State) (e : Entry) (str : List Byte), s.table.entries[id.toNat]? = some e →
    [e.name, e.paramFormat, e.returnFormat][slot.toNat]? = some str → (∀ v ∈ str, v ≠ 0x00#8) →
    str.length ≤ 255 → Room (3 + str.length) s →
    (∃ t, exec (.reqNames m id slot) s = .next t ∧
      Appended .txb (s.cfg.marker :: 0x00#8 :: BitVec.ofNat 8 str.length :: str)
        (frameEnd (noted [.invoke 0x01#8 (s.rxb.tail + 1)] s)) t) ∧
    ∀ (f offset : Byte) (h : Entry), s.table.entries[f.toNat]? = some h → h.handler = .commandNames →
      cellsFrom .rxb s offset 2 = [some id, some slot] →
      ∃ t, exec (.invoke f offset) s = .next t ∧
        Appended .txb (s.cfg.marker :: 0x00#8 :: BitVec.ofNat 8 str.length :: str) s t

/-- R179, R233, R239: with one invalid argument get-command-names replies UNDEFINED_FUNCTION for the id or VALUE_ERROR
for the slot; with both, one of the two, by a draw (R180, the spec's decision D10): an outcome fixed from outside
decides and is consumed, else a free value is drawn (log 10). -/
def Obligations.NamesRequestReportsItsError : Prop :=
  ∀ (m id slot : Byte) (s : State), Room 3 s → tableCount s.table ≤ id.toNat ∨ 2 < slot.toNat →
    ∃ t code, exec (.reqNames m id slot) s = .next t ∧
      Appended .txb [s.cfg.marker, code, 0x00#8]
        { frameEnd (noted [.invoke 0x01#8 (s.rxb.tail + 1)] s) with env := t.env } t ∧
      (slot.toNat ≤ 2 → code = 0x03#8 ∧ t.env = s.env) ∧
      (id.toNat < tableCount s.table → code = 0x07#8 ∧ t.env = s.env) ∧
      (tableCount s.table ≤ id.toNat → 2 < slot.toNat →
        ∃ r, Drew r s t.env ∧ code = if r = true then 0x03#8 else 0x07#8)

/-- R177, R147, R153 (2) (what a handler may do is the spec's decision D12, its answer log 8; its peeks, its effect and
its reply in this order are log 9): a user command's frame makes exactly one handler call, with the index after the
function id as its offset, and one reply, the oracle's, and has its watchdog effect; then the frame ends. -/
def Obligations.UserRequestSendsTheAnswer : Prop :=
  ∀ (m f status : Byte) (args reads payload : List Byte) (effect : WdEffect) (s s1 : State),
    drawAnswer f (s.rxb.tail + 1) (args.map some) s = (.reply reads status payload effect, s1) →
    (∀ k ∈ reads, k.toNat < args.length) → payload.length ≤ 255 → Room (3 + payload.length) s →
    ∃ t, exec (.reqUser m f args) s = .next t ∧
      Appended .txb (s.cfg.marker :: status :: BitVec.ofNat 8 payload.length :: payload)
        (frameEnd (withEffect effect (noted [.invoke f (s.rxb.tail + 1)] { s with env := s1.env }))) t

/-- R175, R59, R224 (the spec's decision D12; the answer is log 8, the order log 9): `invoke` of a user handler gives it
its offset and the cells of its window, lets it peek any of them that was written, and sends its answer. -/
def Obligations.InvokeUserHandler : Prop :=
  ∀ (id offset status : Byte) (reads payload : List Byte) (effect : WdEffect) (s s1 : State) (e : Entry),
    s.table.entries[id.toNat]? = some e → e.handler = .user →
    drawAnswer id offset (cellsFrom .rxb s offset e.required) s = (.reply reads status payload effect, s1) →
    (∀ k ∈ reads, k.toNat < e.required ∧ ∃ v, Memory.read s.rxb.data (offset + k).toNat = some v) →
    payload.length ≤ 255 → Room (3 + payload.length) s →
    ∃ t, exec (.invoke id offset) s = .next t ∧
      Appended .txb (s.cfg.marker :: status :: BitVec.ofNat 8 payload.length :: payload)
        (withEffect effect { s with env := s1.env }) t

/-- R176, R246 (the spec's decision D12): a handler that breaks its contract raises HandlerContract, and so does one
whose payload has more than 255 bytes (R224). The call is in the history and the frame is not finished. That nothing is
enqueued and nothing else of what the handler did is seen, neither its effect nor a first reply, is the model's choice
(log 8, DESIGN CHOICE). -/
def Obligations.HandlerBreachRaises : Prop :=
  ∀ (m f : Byte) (args : List Byte) (answer : HandlerAnswer) (s s1 : State), s.fault = none →
    drawAnswer f (s.rxb.tail + 1) (args.map some) s = (answer, s1) →
    (answer = .breach ∨ ∃ reads status payload effect, answer = .reply reads status payload effect ∧
      (∀ k ∈ reads, k.toNat < args.length) ∧ 255 < payload.length) →
    exec (.reqUser m f args) s =
      .next { noted [.invoke f (s.rxb.tail + 1)] (pastBytes 1 s) with env := s1.env, fault := some .handlerContract }

/-! Heartbeat watchdog (`45_watchdog.md`). -/

/-- R200, R201: the check calls stop() exactly when the timeout is not 0 and the elapsed count is strictly above it, and
else changes nothing. -/
def Obligations.CheckCallsStopWhenExpired : Prop :=
  ∀ s : State,
    (s.wd.timeout ≠ 0 ∧ s.wd.timeout < s.wd.elapsed →
      ∃ t, exec .wdCheck s = .next t ∧ exec .stop (noted [.stop] s) = .next t ∧ t.wd = s.wd) ∧
    (s.wd.timeout = 0 ∨ s.wd.elapsed ≤ s.wd.timeout → exec .wdCheck s = .next s)

/-- R205 (the spec's decision D15): stop() returns or sets `halted`, as STOP_RETURNS says, by a draw for `any`. That the
draw is the next outcome fixed from outside, consumed, and else a free value is log 10 (DESIGN CHOICE). -/
def Obligations.StopReturnsOrHalts : Prop :=
  ∀ s : State,
    (s.cfg.stopReturns = .always → exec .stop s = .next s) ∧
    (s.cfg.stopReturns = .never → exec .stop s = .next { s with halted := true }) ∧
    (s.cfg.stopReturns = .any →
      (∀ r rest, s.env.bools = r :: rest →
        exec .stop s = .next { s with halted := s.halted || !r, env := { s.env with bools := rest } }) ∧
      (s.env.bools = [] → ∃ r, exec .stop s =
        .next { s with halted := s.halted || !r, env := { s.env with drawn := s.env.drawn + 1 } }))

/-- R203, R204, R206 (the wrap is the spec's decision D13, the write D14): the three writes of the watchdog registers.
-/
def Obligations.WatchdogWrites : Prop :=
  ∀ (s : State) (n : Nat),
    exec .wdTick s = .next (noted [.tick] { s with wd := { s.wd with elapsed := (s.wd.elapsed + 1) % 2 ^ s.cfg.tickBits } }) ∧
    exec .wdHeartbeat s = .next (noted [.heartbeat] { s with wd := { s.wd with elapsed := 0 } }) ∧
    (n < 2 ^ s.cfg.tickBits → exec (.wdSetTimeout n) s = .next { s with wd := { s.wd with timeout := n } })

/-- R208 (the spec's inference): armed, elapsed 0, then n ticks with the timeout below n and no wrap: the next check
calls stop(). The ticks come in a row, or in a run of the machine in which the core, the serial environment and the tick
source move as they like and no heartbeat occurs: the elapsed count is the number of ticks, and the check of phase (d)
calls stop(). -/
def Obligations.TicksPastTheDeadlineCallStop : Prop :=
  (∀ (s : State) (n : Nat), s.wd.timeout ≠ 0 → s.wd.elapsed = 0 → s.wd.timeout < n → n < 2 ^ s.cfg.tickBits →
    ∃ t, exec .wdCheck (ticks n s) = .next t ∧ ∃ evs, t.history = s.history ++ evs ∧ Event.stop ∈ evs) ∧
  ∀ (s t : State) (k : Nat) (evs : List Event), s.wd.elapsed = 0 → steps k s = .next t →
    t.history = s.history ++ evs → Event.heartbeat ∉ evs → evs.count .tick < 2 ^ s.cfg.tickBits →
    t.wd.elapsed = evs.count .tick ∧
    (t.wd.timeout ≠ 0 → t.wd.timeout < evs.count .tick →
      (∃ u, exec .wdCheck t = .next u ∧ u.history = t.history ++ [.stop]) ∧
      (Running t → t.phase = .d → ∃ u, exec .coreStep t = .next u ∧ u.history = t.history ++ [.stop]))

/-- R240 (the spec's inference from the phase order): a heartbeat done by the handler of a frame in phase (c) keeps the
check of the same iteration from calling stop(). That it does so also where the handler's reply does not fit rests on
the model's order, the effect before the reply (log 9, DEDUCED, unsafe). -/
def Obligations.HeartbeatPreventsStop : Prop :=
  ∀ (m f status : Byte) (args reads payload : List Byte) (s s1 t : State),
    drawAnswer f (s.rxb.tail + 1) (args.map some) s = (.reply reads status payload .heartbeat, s1) →
    (∀ k ∈ reads, k.toNat < args.length) → payload.length ≤ 255 →
    exec (.reqUser m f args) s = .next t → t.wd.elapsed = 0 ∧ exec .wdCheck t = .next t

/-! Poll loop, environment and the step (`46_poll_loop.md`). -/

/-- R215, R216 (one phase per step is the spec's decision D2): an enabled core runs the operation of its phase and then
moves to the next phase in the order a, b, c, d, a, unless the operation raised or stop() did not return. -/
def Obligations.CoreStepRunsOnePhase : Prop :=
  ∀ s : State, Running s → ∃ t, exec (phaseInstr s.phase) s = .next t ∧
    exec .coreStep s = .next
      (if t.fault = none ∧ t.halted = false then
        { t with phase := match s.phase with
            | .a => .b
            | .b => .c
            | .c => .d
            | .d => .a }
      else t)

/-- R34, R216 (the spec's decisions D15, D29; the Fault is log 4): a halted or faulted core has no step. -/
def Obligations.StoppedCoreHasNoStep : Prop :=
  ∀ s : State,
    (s.halted = true → exec .coreStep s = .fault .coreHalted) ∧
    (∀ f, s.halted = false → s.fault = some f → exec .coreStep s = .fault (.coreFaulted f))

/-- R221 (the spec's decision D21; the line is log 6): a byte is delivered only into an empty RXR and only the next one
of the line; the transmitter's readiness is set freely. -/
def Obligations.EnvironmentSteps : Prop :=
  ∀ (s : State) (v : Byte) (r : Bool),
    exec (.envTxReady r) s = .next { s with txr := { ready := r } } ∧
    (s.rxr.valid = false → s.env.line = [] →
      exec (.envRxArrive v) s = .next { s with rxr := { valid := true, data := v } }) ∧
    (∀ w rest, s.rxr.valid = false → s.env.line = w :: rest →
      exec (.envRxArrive w) s =
        .next { s with rxr := { valid := true, data := w }, env := { s.env with line := rest } } ∧
      (v ≠ w → exec (.envRxArrive v) s = .refused .notNextOnLine)) ∧
    (s.rxr.valid = true → exec (.envRxArrive v) s = .refused .receiveOverrun)

/-- R219, R220 (the spec's decision D2; who moves is log 5): a step is one move of one agent, the next in `env.moves`.
-/
def Obligations.StepIsOneMove : Prop :=
  ∀ (s : State) (m : Move) (rest : List Move), s.env.moves = m :: rest →
    (m = .tick → step s = exec .wdTick { s with env := { s.env with moves := rest } }) ∧
    (∀ r, m = .txReady r → step s = exec (.envTxReady r) { s with env := { s.env with moves := rest } }) ∧
    (m = .arrive → s.rxr.valid = true → step s = .next { s with env := { s.env with moves := rest } }) ∧
    (∀ v line, m = .arrive → s.rxr.valid = false → s.env.line = v :: line →
      step s = exec (.envRxArrive v) { s with env := { s.env with moves := rest } }) ∧
    (m = .core → s.phase ≠ .c → step s = exec .coreStep { s with env := { s.env with moves := rest } })

/-- R81, R141, R216 (one step per phase is the spec's decision D2; frames as instructions is log 16): when the core
moves in phase (c) with the gate open and the bytes before the parser decode to a well-formed frame, the step is that
frame's `exec`, and then phase (d) unless it raised. -/
def Obligations.StepRunsTheDecodedFrame : Prop :=
  ∀ (s : State) (rest : List Move) (bs : List Byte) (i : Instr) (left : List Byte),
    s.env.moves = .core :: rest → Running s → s.phase = .c → s.ps.wait.toNat ≤ (rbCount .rxb s).toNat →
    frameBytes s = some bs → decodeInbound (tableView s.cfg s.table) bs = .ok (i, left) →
    ∃ t, exec i { s with env := { s.env with moves := rest } } = .next t ∧
      step s = .next (if t.fault = none then { t with phase := .d } else t)

/-- R216, R147, R143 (frames as instructions is log 16): decoding a frame and running its form is the same as one phase
of the poll loop, for every device whose table is as startup built it. -/
def Obligations.DecodedStepIsThePollLoop : Prop :=
  ∀ s : State, TableOk s → coreMove s = exec .coreStep s

/-- R225 (the spec's decision D24): from a quiescent state of an enabled core whose watchdog has not expired, core steps
change nothing but the phase, and four of them come back to the same state. -/
def Obligations.QuiescentStatesStayQuiet : Prop :=
  ∀ s : State, Quiescent s → s.halted = false → (s.wd.timeout = 0 ∨ s.wd.elapsed ≤ s.wd.timeout) →
    exec .coreStep s = .next { s with phase := .b } ∧
    exec .coreStep { s with phase := .b } = .next { s with phase := .c } ∧
    exec .coreStep { s with phase := .c } = .next { s with phase := .d } ∧
    exec .coreStep { s with phase := .d } = .next s

/-! Encoding (`30_encoding.md`). -/

/-- R70, R81: words written out from the tables decode to the forms they stand for, with MARKER 0x7E and four commands
of 0, 2, 0 and 4 argument bytes. -/
def Obligations.FrameWordsDecode : Prop :=
  let v : View := { marker := 0x7E#8, required := [0, 2, 0, 4], tickBits := 16 }
  decodeInbound v [0x55#8, 0x01#8, 0x09#8] = .ok (.badMarker 0x55#8 0x01#8 0x09#8, []) ∧
  decodeInbound v [0x7E#8, 0x01#8, 0x00#8] = .ok (.badStatus 0x7E#8 0x01#8 0x00#8, []) ∧
  decodeInbound v [0x7E#8, 0x00#8, 0x00#8, 0x7E#8] = .ok (.reqAck 0x7E#8, [0x7E#8]) ∧
  decodeInbound v [0x7E#8, 0x00#8, 0x03#8, 0x01#8, 0x02#8, 0x03#8] = .ok (.reqNames 0x7E#8 0x02#8 0x03#8, []) ∧
  decodeInbound v [0x7E#8, 0x00#8, 0x02#8, 0x01#8] = .error .truncatedPayload ∧
  decodeOutbound v [0x7E#8, 0x05#8, 0x00#8] = .ok (.rspStatus 0x7E#8 0x05#8, [])

/-- R81, R71: decoding an encoded well-formed inbound frame gives it back, with the bytes after it. -/
def Obligations.InboundFramesRoundTrip : Prop :=
  ∀ (v : View) (i : Instr) (bs rest : List Byte), WellFormed v i = true → encode i = some bs →
    (∀ m s, i ≠ .rspStatus m s) → (∀ m s p, i ≠ .rspData m s p) →
    decodeInbound v (bs ++ rest) = .ok (i, rest)

/-- R82, R71: the same for the outbound frames, as the host reads them. -/
def Obligations.OutboundFramesRoundTrip : Prop :=
  ∀ (v : View) (i : Instr) (bs rest : List Byte), WellFormed v i = true → encode i = some bs →
    ((∃ m s, i = .rspStatus m s) ∨ ∃ m s p, i = .rspData m s p) →
    decodeOutbound v (bs ++ rest) = .ok (i, rest)

/-- R81, R83: what the inbound decoder accepts is well formed, and its encoding is the bytes it was read from. -/
def Obligations.DecodedFramesAreWellFormed : Prop :=
  ∀ (v : View) (i : Instr) (bs rest : List Byte), decodeInbound v bs = .ok (i, rest) →
    WellFormed v i = true ∧ ∃ ws, encode i = some ws ∧ ws ++ rest = bs

/-! Invariants and whole-machine rules. -/

/-- R40 to R44 (the spec's decision D16): the machine of every legal configuration right after reset. -/
def Obligations.ResetLeavesTheStatedValues : Prop :=
  ∀ cfg : Config, ConfigOk cfg →
    ∃ t, buildTable cfg = some t ∧
      let s := State.resetWith cfg
      s.cfg = cfg ∧ s.table = t ∧
      s.rxb = { data := [], head := 0x00#8, tail := 0x00#8 } ∧ s.txb = { data := [], head := 0x00#8, tail := 0x00#8 } ∧
      s.ps = { stage := .awaitingHeader, wait := 0x03#8 } ∧ s.wd = { elapsed := 0, timeout := cfg.timeoutReset } ∧
      s.phase = .a ∧ s.halted = false ∧ s.fault = none ∧ s.history = []

/-- R27, R29, R31, R150, R151: the invariants hold after reset, of every legal configuration, and `State.reset` is the
reset of one. -/
def Obligations.ResetIsSound : Prop :=
  (∀ cfg : Config, ConfigOk cfg →
    Sound (State.resetWith cfg) ∧ RingsWf (State.resetWith cfg) ∧ WatchdogOk (State.resetWith cfg)) ∧
  ConfigOk State.reset.cfg ∧ State.reset = State.resetWith State.reset.cfg

/-- The canonical form of the two ring arrays is kept by every instruction and every step. -/
def Obligations.RingArraysStayCanonical : Prop :=
  (∀ (i : Instr) (s t : State), RingsWf s → exec i s = .next t → RingsWf t) ∧
  ∀ s t : State, RingsWf s → step s = .next t → RingsWf t

/-- R29, R207: the watchdog registers hold TICK_BITS-bit values, after every instruction and every step. -/
def Obligations.WatchdogRegistersKeepTheirWidth : Prop :=
  (∀ (i : Instr) (s t : State), WatchdogOk s → exec i s = .next t → WatchdogOk t) ∧
  ∀ s t : State, WatchdogOk s → step s = .next t → WatchdogOk t

/-- R151, R150, R27 (inferences of the spec): every step of any agent keeps a sound state sound, whatever the host sends
and however the agents interleave. -/
def Obligations.StepsKeepStatesSound : Prop :=
  ∀ s t : State, Sound s → step s = .next t → Sound t

/-- R150, R151, R246, R57 (inferences of the spec): in a sound state no step raises RingOverflow(RXB) or TableMalformed,
and UnwrittenRead only in the call of a user handler that peeks outside its window; else only a reply that does not fit,
a string that is too long or a handler's breach can fault. -/
def Obligations.OnlyRepliesAndHandlersFault : Prop :=
  ∀ (s t : State) (f : ModelFault), Sound s → s.fault = none → step s = .next t → t.fault = some f →
    f = .ringOverflow .txb ∨ (∃ n, f = .stringTooLong n) ∨ f = .handlerContract ∨
      ∃ id o k e, f = .unwrittenRead .rxb (o + k) ∧ t.history = s.history ++ [.invoke id o] ∧
        s.table.entries[id.toNat]? = some e ∧ e.handler = .user ∧ e.required ≤ k.toNat

/-- R34 (the spec's decisions D15, D29): no instruction clears the fault latch or the halt latch. -/
def Obligations.LatchesAreNeverCleared : Prop :=
  ∀ (i : Instr) (s t : State), exec i s = .next t →
    (s.halted = true → t.halted = true) ∧ ∀ f, s.fault = some f → t.fault = some f

/-- R31, R67: no instruction changes a parameter, none but `table_build` changes the table, and `table_build` on a table
that startup built changes nothing. -/
def Obligations.ParametersAndTableAreImmutable : Prop :=
  ∀ (i : Instr) (s t : State), exec i s = .next t →
    t.cfg = s.cfg ∧ (i ≠ .tableBuild → t.table = s.table) ∧ (TableOk s → t.table = s.table)

/-- R35 (the spec's decision D24): the history only grows, and what was in it stays first. -/
def Obligations.HistoryOnlyGrows : Prop :=
  ∀ (i : Instr) (s t : State), exec i s = .next t → ∃ evs, t.history = s.history ++ evs

/-- R24: each index has one mutator: per phase, what a core step may change of the two rings, and by how much; the other
agents change neither ring. -/
def Obligations.OneMutatorPerIndex : Prop :=
  (∀ s t : State, exec .coreStep s = .next t →
    (s.phase = .a → t.txb = s.txb ∧ t.rxb.tail = s.rxb.tail ∧ t.ps = s.ps ∧
      (t.rxb = s.rxb ∨ t.rxb.head = s.rxb.head + 1)) ∧
    (s.phase = .b → t.rxb = s.rxb ∧ t.txb.head = s.txb.head ∧ t.txb.data = s.txb.data ∧ t.ps = s.ps ∧
      (t.txb.tail = s.txb.tail ∨ t.txb.tail = s.txb.tail + 1)) ∧
    (s.phase = .c → t.rxb.head = s.rxb.head ∧ t.rxb.data = s.rxb.data ∧ t.txb.tail = s.txb.tail ∧
      t.rxr = s.rxr ∧ t.txr = s.txr) ∧
    (s.phase = .d → t.rxb = s.rxb ∧ t.txb = s.txb ∧ t.ps = s.ps ∧ t.wd = s.wd)) ∧
  ∀ (s t : State) (i : Instr) (v : Byte) (r : Bool), i = .wdTick ∨ i = .envRxArrive v ∨ i = .envTxReady r →
    exec i s = .next t → t.rxb = s.rxb ∧ t.txb = s.txb ∧ t.ps = s.ps

/-! The peeks of user handlers (`20_memory.md` section 4, `43_command_table.md` section 3), beside InvokeUserHandler. -/

/-- R57, R59, R176, R246 (the spec's decisions D12, D25): the first peek of a user handler that is not of a written cell
of its window raises: UnwrittenRead where the cell was never written, inside the window or outside, HandlerContract
where it is outside and written. Which of the two an unwritten cell outside gives, and that nothing else of what the
handler did is seen, is the model's choice (log 8). -/
def Obligations.HandlerPeeksItsWindow : Prop :=
  ∀ (id offset status k : Byte) (before rest payload : List Byte) (effect : WdEffect) (s s1 : State) (e : Entry),
    s.fault = none → s.table.entries[id.toNat]? = some e → e.handler = .user →
    drawAnswer id offset (cellsFrom .rxb s offset e.required) s =
      (.reply (before ++ k :: rest) status payload effect, s1) →
    (∀ j ∈ before, j.toNat < e.required ∧ ∃ v, Memory.read s.rxb.data (offset + j).toNat = some v) →
    (Memory.read s.rxb.data (offset + k).toNat = none →
      exec (.invoke id offset) s =
        .next { s with env := s1.env, fault := some (.unwrittenRead .rxb (offset + k)) }) ∧
    (∀ v, e.required ≤ k.toNat → Memory.read s.rxb.data (offset + k).toNat = some v →
      exec (.invoke id offset) s = .next { s with env := s1.env, fault := some .handlerContract })
end

