-- ==== Sys2Proof/Laws/Memory.lean ====
section
/-! SUPPORT. Reading and writing ring memory, and its canonical form. -/

namespace Sys2Proof.Machine

theorem Memory.read_write_same (m : Memory) (a : Nat) (v : Byte) : Memory.read (Memory.write m a v) a = some v := by
  induction m with
  | nil => simp [Memory.write, Memory.read]
  | cons c rest ih =>
    obtain ⟨k, w⟩ := c
    simp only [Memory.write]
    split
    · simp [Memory.read]
    · split
      · simp [Memory.read]
      · have : k ≠ a := by omega
        simp [Memory.read, this, ih]

theorem Memory.read_write_other (m : Memory) (a a' : Nat) (v : Byte) (h : a' ≠ a) :
    Memory.read (Memory.write m a v) a' = Memory.read m a' := by
  have h' : a ≠ a' := Ne.symm h
  induction m with
  | nil => simp [Memory.write, Memory.read, h']
  | cons c rest ih =>
    obtain ⟨k, w⟩ := c
    simp only [Memory.write]
    split
    · simp [Memory.read, h']
    · split
      · rename_i _ hk
        subst hk
        simp [Memory.read, h']
      · simp [Memory.read, ih]

theorem Memory.wfFrom_weaken (m : Memory) (lo lo' : Nat) (h : lo' ≤ lo) (hw : Memory.wfFrom lo m = true) :
    Memory.wfFrom lo' m = true := by
  cases m with
  | nil => rfl
  | cons c rest =>
    obtain ⟨k, w⟩ := c
    simp only [Memory.wfFrom, Bool.and_eq_true, decide_eq_true_eq] at hw ⊢
    exact ⟨⟨by omega, hw.1.2⟩, hw.2⟩

theorem Memory.wfFrom_write (m : Memory) (lo a : Nat) (v : Byte) (hw : Memory.wfFrom lo m = true) (hlo : lo ≤ a)
    (ha : a < 256) : Memory.wfFrom lo (Memory.write m a v) = true := by
  induction m generalizing lo with
  | nil => simp [Memory.write, Memory.wfFrom, hlo, ha]
  | cons c rest ih =>
    obtain ⟨k, w⟩ := c
    simp only [Memory.wfFrom, Bool.and_eq_true, decide_eq_true_eq] at hw
    simp only [Memory.write]
    split
    · simp only [Memory.wfFrom, Bool.and_eq_true, decide_eq_true_eq]
      exact ⟨⟨hlo, ha⟩, ⟨by omega, hw.1.2⟩, hw.2⟩
    · split
      · rename_i _ hk
        subst hk
        simp only [Memory.wfFrom, Bool.and_eq_true, decide_eq_true_eq]
        exact ⟨⟨hlo, ha⟩, hw.2⟩
      · simp only [Memory.wfFrom, Bool.and_eq_true, decide_eq_true_eq]
        exact ⟨hw.1, ih (k + 1) hw.2 (by omega)⟩

/-- A write at an 8-bit index keeps the canonical form. -/
theorem Memory.wf_write (m : Memory) (i v : Byte) (h : Memory.wf m = true) :
    Memory.wf (Memory.write m i.toNat v) = true :=
  Memory.wfFrom_write m 0 i.toNat v h (Nat.zero_le _) i.isLt

/-- A canonical array lists nothing outside the 256 cells. -/
theorem Memory.read_out_of_range (m : Memory) (lo a : Nat) (h : Memory.wfFrom lo m = true) (ha : 256 ≤ a) :
    Memory.read m a = none := by
  induction m generalizing lo with
  | nil => rfl
  | cons c rest ih =>
    obtain ⟨k, w⟩ := c
    simp only [Memory.wfFrom, Bool.and_eq_true, decide_eq_true_eq] at h
    have : k ≠ a := by omega
    simp [Memory.read, this, ih (k + 1) h.2]

/-- The array of the state after reset is canonical. -/
theorem emptyRing_wf : Memory.wf emptyRing.data = true := rfl

end Sys2Proof.Machine
end

