-- ==== Sys2Proof/Laws/State.lean ====
section
/-! SUPPORT. One lemma per field per update of State, so that no proof unfolds a record update. -/

namespace Sys2Proof.Machine

/-! Rings. -/

@[simp] theorem ringOf_rxb (s : State) : ringOf s .rxb = s.rxb := rfl
@[simp] theorem ringOf_txb (s : State) : ringOf s .txb = s.txb := rfl
@[simp] theorem setRing_rxb_rxb (s : State) (r : Ring) : (setRing s .rxb r).rxb = r := rfl
@[simp] theorem setRing_rxb_txb (s : State) (r : Ring) : (setRing s .rxb r).txb = s.txb := rfl
@[simp] theorem setRing_txb_rxb (s : State) (r : Ring) : (setRing s .txb r).rxb = s.rxb := rfl
@[simp] theorem setRing_txb_txb (s : State) (r : Ring) : (setRing s .txb r).txb = r := rfl
@[simp] theorem ringOf_setRing (s : State) (b : RingId) (r : Ring) : ringOf (setRing s b r) b = r := by cases b <;> rfl
@[simp] theorem setRing_setRing (s : State) (b : RingId) (r q : Ring) : setRing (setRing s b r) b q = setRing s b q := by
  cases b <;> rfl
@[simp] theorem setRing_ringOf (s : State) (b : RingId) : setRing s b (ringOf s b) = s := by cases b <;> rfl
@[simp] theorem setRing_cfg (s : State) (b : RingId) (r : Ring) : (setRing s b r).cfg = s.cfg := by cases b <;> rfl
@[simp] theorem setRing_table (s : State) (b : RingId) (r : Ring) : (setRing s b r).table = s.table := by cases b <;> rfl
@[simp] theorem setRing_ps (s : State) (b : RingId) (r : Ring) : (setRing s b r).ps = s.ps := by cases b <;> rfl
@[simp] theorem setRing_wd (s : State) (b : RingId) (r : Ring) : (setRing s b r).wd = s.wd := by cases b <;> rfl
@[simp] theorem setRing_phase (s : State) (b : RingId) (r : Ring) : (setRing s b r).phase = s.phase := by cases b <;> rfl
@[simp] theorem setRing_rxr (s : State) (b : RingId) (r : Ring) : (setRing s b r).rxr = s.rxr := by cases b <;> rfl
@[simp] theorem setRing_txr (s : State) (b : RingId) (r : Ring) : (setRing s b r).txr = s.txr := by cases b <;> rfl
@[simp] theorem setRing_halted (s : State) (b : RingId) (r : Ring) : (setRing s b r).halted = s.halted := by cases b <;> rfl
@[simp] theorem setRing_fault (s : State) (b : RingId) (r : Ring) : (setRing s b r).fault = s.fault := by cases b <;> rfl
@[simp] theorem setRing_history (s : State) (b : RingId) (r : Ring) : (setRing s b r).history = s.history := by cases b <;> rfl
@[simp] theorem setRing_ret (s : State) (b : RingId) (r : Ring) : (setRing s b r).ret = s.ret := by cases b <;> rfl
@[simp] theorem setRing_env (s : State) (b : RingId) (r : Ring) : (setRing s b r).env = s.env := by cases b <;> rfl

/-! setTable. -/

@[simp] theorem setTable_cfg (s : State) (t : Table) : (setTable s t).cfg = s.cfg := rfl
@[simp] theorem setTable_table (s : State) (t : Table) : (setTable s t).table = t := rfl
@[simp] theorem setTable_rxb (s : State) (t : Table) : (setTable s t).rxb = s.rxb := rfl
@[simp] theorem setTable_txb (s : State) (t : Table) : (setTable s t).txb = s.txb := rfl
@[simp] theorem setTable_ps (s : State) (t : Table) : (setTable s t).ps = s.ps := rfl
@[simp] theorem setTable_wd (s : State) (t : Table) : (setTable s t).wd = s.wd := rfl
@[simp] theorem setTable_phase (s : State) (t : Table) : (setTable s t).phase = s.phase := rfl
@[simp] theorem setTable_rxr (s : State) (t : Table) : (setTable s t).rxr = s.rxr := rfl
@[simp] theorem setTable_txr (s : State) (t : Table) : (setTable s t).txr = s.txr := rfl
@[simp] theorem setTable_halted (s : State) (t : Table) : (setTable s t).halted = s.halted := rfl
@[simp] theorem setTable_fault (s : State) (t : Table) : (setTable s t).fault = s.fault := rfl
@[simp] theorem setTable_history (s : State) (t : Table) : (setTable s t).history = s.history := rfl
@[simp] theorem setTable_ret (s : State) (t : Table) : (setTable s t).ret = s.ret := rfl
@[simp] theorem setTable_env (s : State) (t : Table) : (setTable s t).env = s.env := rfl
@[simp] theorem setTable_ringOf (s : State) (t : Table) (b : RingId) : ringOf (setTable s t) b = ringOf s b := by cases b <;> rfl

/-! setParser. -/

@[simp] theorem setParser_cfg (s : State) (p : Parser) : (setParser s p).cfg = s.cfg := rfl
@[simp] theorem setParser_table (s : State) (p : Parser) : (setParser s p).table = s.table := rfl
@[simp] theorem setParser_rxb (s : State) (p : Parser) : (setParser s p).rxb = s.rxb := rfl
@[simp] theorem setParser_txb (s : State) (p : Parser) : (setParser s p).txb = s.txb := rfl
@[simp] theorem setParser_ps (s : State) (p : Parser) : (setParser s p).ps = p := rfl
@[simp] theorem setParser_wd (s : State) (p : Parser) : (setParser s p).wd = s.wd := rfl
@[simp] theorem setParser_phase (s : State) (p : Parser) : (setParser s p).phase = s.phase := rfl
@[simp] theorem setParser_rxr (s : State) (p : Parser) : (setParser s p).rxr = s.rxr := rfl
@[simp] theorem setParser_txr (s : State) (p : Parser) : (setParser s p).txr = s.txr := rfl
@[simp] theorem setParser_halted (s : State) (p : Parser) : (setParser s p).halted = s.halted := rfl
@[simp] theorem setParser_fault (s : State) (p : Parser) : (setParser s p).fault = s.fault := rfl
@[simp] theorem setParser_history (s : State) (p : Parser) : (setParser s p).history = s.history := rfl
@[simp] theorem setParser_ret (s : State) (p : Parser) : (setParser s p).ret = s.ret := rfl
@[simp] theorem setParser_env (s : State) (p : Parser) : (setParser s p).env = s.env := rfl
@[simp] theorem setParser_ringOf (s : State) (p : Parser) (b : RingId) : ringOf (setParser s p) b = ringOf s b := by cases b <;> rfl

/-! setElapsed. -/

@[simp] theorem setElapsed_cfg (s : State) (n : Nat) : (setElapsed s n).cfg = s.cfg := rfl
@[simp] theorem setElapsed_table (s : State) (n : Nat) : (setElapsed s n).table = s.table := rfl
@[simp] theorem setElapsed_rxb (s : State) (n : Nat) : (setElapsed s n).rxb = s.rxb := rfl
@[simp] theorem setElapsed_txb (s : State) (n : Nat) : (setElapsed s n).txb = s.txb := rfl
@[simp] theorem setElapsed_ps (s : State) (n : Nat) : (setElapsed s n).ps = s.ps := rfl
@[simp] theorem setElapsed_wd (s : State) (n : Nat) : (setElapsed s n).wd = { s.wd with elapsed := n } := rfl
@[simp] theorem setElapsed_phase (s : State) (n : Nat) : (setElapsed s n).phase = s.phase := rfl
@[simp] theorem setElapsed_rxr (s : State) (n : Nat) : (setElapsed s n).rxr = s.rxr := rfl
@[simp] theorem setElapsed_txr (s : State) (n : Nat) : (setElapsed s n).txr = s.txr := rfl
@[simp] theorem setElapsed_halted (s : State) (n : Nat) : (setElapsed s n).halted = s.halted := rfl
@[simp] theorem setElapsed_fault (s : State) (n : Nat) : (setElapsed s n).fault = s.fault := rfl
@[simp] theorem setElapsed_history (s : State) (n : Nat) : (setElapsed s n).history = s.history := rfl
@[simp] theorem setElapsed_ret (s : State) (n : Nat) : (setElapsed s n).ret = s.ret := rfl
@[simp] theorem setElapsed_env (s : State) (n : Nat) : (setElapsed s n).env = s.env := rfl
@[simp] theorem setElapsed_ringOf (s : State) (n : Nat) (b : RingId) : ringOf (setElapsed s n) b = ringOf s b := by cases b <;> rfl

/-! setTimeout. -/

@[simp] theorem setTimeout_cfg (s : State) (n : Nat) : (setTimeout s n).cfg = s.cfg := rfl
@[simp] theorem setTimeout_table (s : State) (n : Nat) : (setTimeout s n).table = s.table := rfl
@[simp] theorem setTimeout_rxb (s : State) (n : Nat) : (setTimeout s n).rxb = s.rxb := rfl
@[simp] theorem setTimeout_txb (s : State) (n : Nat) : (setTimeout s n).txb = s.txb := rfl
@[simp] theorem setTimeout_ps (s : State) (n : Nat) : (setTimeout s n).ps = s.ps := rfl
@[simp] theorem setTimeout_wd (s : State) (n : Nat) : (setTimeout s n).wd = { s.wd with timeout := n } := rfl
@[simp] theorem setTimeout_phase (s : State) (n : Nat) : (setTimeout s n).phase = s.phase := rfl
@[simp] theorem setTimeout_rxr (s : State) (n : Nat) : (setTimeout s n).rxr = s.rxr := rfl
@[simp] theorem setTimeout_txr (s : State) (n : Nat) : (setTimeout s n).txr = s.txr := rfl
@[simp] theorem setTimeout_halted (s : State) (n : Nat) : (setTimeout s n).halted = s.halted := rfl
@[simp] theorem setTimeout_fault (s : State) (n : Nat) : (setTimeout s n).fault = s.fault := rfl
@[simp] theorem setTimeout_history (s : State) (n : Nat) : (setTimeout s n).history = s.history := rfl
@[simp] theorem setTimeout_ret (s : State) (n : Nat) : (setTimeout s n).ret = s.ret := rfl
@[simp] theorem setTimeout_env (s : State) (n : Nat) : (setTimeout s n).env = s.env := rfl
@[simp] theorem setTimeout_ringOf (s : State) (n : Nat) (b : RingId) : ringOf (setTimeout s n) b = ringOf s b := by cases b <;> rfl

/-! setPhase. -/

@[simp] theorem setPhase_cfg (s : State) (p : Phase) : (setPhase s p).cfg = s.cfg := rfl
@[simp] theorem setPhase_table (s : State) (p : Phase) : (setPhase s p).table = s.table := rfl
@[simp] theorem setPhase_rxb (s : State) (p : Phase) : (setPhase s p).rxb = s.rxb := rfl
@[simp] theorem setPhase_txb (s : State) (p : Phase) : (setPhase s p).txb = s.txb := rfl
@[simp] theorem setPhase_ps (s : State) (p : Phase) : (setPhase s p).ps = s.ps := rfl
@[simp] theorem setPhase_wd (s : State) (p : Phase) : (setPhase s p).wd = s.wd := rfl
@[simp] theorem setPhase_phase (s : State) (p : Phase) : (setPhase s p).phase = p := rfl
@[simp] theorem setPhase_rxr (s : State) (p : Phase) : (setPhase s p).rxr = s.rxr := rfl
@[simp] theorem setPhase_txr (s : State) (p : Phase) : (setPhase s p).txr = s.txr := rfl
@[simp] theorem setPhase_halted (s : State) (p : Phase) : (setPhase s p).halted = s.halted := rfl
@[simp] theorem setPhase_fault (s : State) (p : Phase) : (setPhase s p).fault = s.fault := rfl
@[simp] theorem setPhase_history (s : State) (p : Phase) : (setPhase s p).history = s.history := rfl
@[simp] theorem setPhase_ret (s : State) (p : Phase) : (setPhase s p).ret = s.ret := rfl
@[simp] theorem setPhase_env (s : State) (p : Phase) : (setPhase s p).env = s.env := rfl
@[simp] theorem setPhase_ringOf (s : State) (p : Phase) (b : RingId) : ringOf (setPhase s p) b = ringOf s b := by cases b <;> rfl

/-! setRxr. -/

@[simp] theorem setRxr_cfg (s : State) (r : RxRegister) : (setRxr s r).cfg = s.cfg := rfl
@[simp] theorem setRxr_table (s : State) (r : RxRegister) : (setRxr s r).table = s.table := rfl
@[simp] theorem setRxr_rxb (s : State) (r : RxRegister) : (setRxr s r).rxb = s.rxb := rfl
@[simp] theorem setRxr_txb (s : State) (r : RxRegister) : (setRxr s r).txb = s.txb := rfl
@[simp] theorem setRxr_ps (s : State) (r : RxRegister) : (setRxr s r).ps = s.ps := rfl
@[simp] theorem setRxr_wd (s : State) (r : RxRegister) : (setRxr s r).wd = s.wd := rfl
@[simp] theorem setRxr_phase (s : State) (r : RxRegister) : (setRxr s r).phase = s.phase := rfl
@[simp] theorem setRxr_rxr (s : State) (r : RxRegister) : (setRxr s r).rxr = r := rfl
@[simp] theorem setRxr_txr (s : State) (r : RxRegister) : (setRxr s r).txr = s.txr := rfl
@[simp] theorem setRxr_halted (s : State) (r : RxRegister) : (setRxr s r).halted = s.halted := rfl
@[simp] theorem setRxr_fault (s : State) (r : RxRegister) : (setRxr s r).fault = s.fault := rfl
@[simp] theorem setRxr_history (s : State) (r : RxRegister) : (setRxr s r).history = s.history := rfl
@[simp] theorem setRxr_ret (s : State) (r : RxRegister) : (setRxr s r).ret = s.ret := rfl
@[simp] theorem setRxr_env (s : State) (r : RxRegister) : (setRxr s r).env = s.env := rfl
@[simp] theorem setRxr_ringOf (s : State) (r : RxRegister) (b : RingId) : ringOf (setRxr s r) b = ringOf s b := by cases b <;> rfl

/-! setTxr. -/

@[simp] theorem setTxr_cfg (s : State) (r : TxRegister) : (setTxr s r).cfg = s.cfg := rfl
@[simp] theorem setTxr_table (s : State) (r : TxRegister) : (setTxr s r).table = s.table := rfl
@[simp] theorem setTxr_rxb (s : State) (r : TxRegister) : (setTxr s r).rxb = s.rxb := rfl
@[simp] theorem setTxr_txb (s : State) (r : TxRegister) : (setTxr s r).txb = s.txb := rfl
@[simp] theorem setTxr_ps (s : State) (r : TxRegister) : (setTxr s r).ps = s.ps := rfl
@[simp] theorem setTxr_wd (s : State) (r : TxRegister) : (setTxr s r).wd = s.wd := rfl
@[simp] theorem setTxr_phase (s : State) (r : TxRegister) : (setTxr s r).phase = s.phase := rfl
@[simp] theorem setTxr_rxr (s : State) (r : TxRegister) : (setTxr s r).rxr = s.rxr := rfl
@[simp] theorem setTxr_txr (s : State) (r : TxRegister) : (setTxr s r).txr = r := rfl
@[simp] theorem setTxr_halted (s : State) (r : TxRegister) : (setTxr s r).halted = s.halted := rfl
@[simp] theorem setTxr_fault (s : State) (r : TxRegister) : (setTxr s r).fault = s.fault := rfl
@[simp] theorem setTxr_history (s : State) (r : TxRegister) : (setTxr s r).history = s.history := rfl
@[simp] theorem setTxr_ret (s : State) (r : TxRegister) : (setTxr s r).ret = s.ret := rfl
@[simp] theorem setTxr_env (s : State) (r : TxRegister) : (setTxr s r).env = s.env := rfl
@[simp] theorem setTxr_ringOf (s : State) (r : TxRegister) (b : RingId) : ringOf (setTxr s r) b = ringOf s b := by cases b <;> rfl

/-! setHalted. -/

@[simp] theorem setHalted_cfg (s : State) : (setHalted s).cfg = s.cfg := rfl
@[simp] theorem setHalted_table (s : State) : (setHalted s).table = s.table := rfl
@[simp] theorem setHalted_rxb (s : State) : (setHalted s).rxb = s.rxb := rfl
@[simp] theorem setHalted_txb (s : State) : (setHalted s).txb = s.txb := rfl
@[simp] theorem setHalted_ps (s : State) : (setHalted s).ps = s.ps := rfl
@[simp] theorem setHalted_wd (s : State) : (setHalted s).wd = s.wd := rfl
@[simp] theorem setHalted_phase (s : State) : (setHalted s).phase = s.phase := rfl
@[simp] theorem setHalted_rxr (s : State) : (setHalted s).rxr = s.rxr := rfl
@[simp] theorem setHalted_txr (s : State) : (setHalted s).txr = s.txr := rfl
@[simp] theorem setHalted_halted (s : State) : (setHalted s).halted = true := rfl
@[simp] theorem setHalted_fault (s : State) : (setHalted s).fault = s.fault := rfl
@[simp] theorem setHalted_history (s : State) : (setHalted s).history = s.history := rfl
@[simp] theorem setHalted_ret (s : State) : (setHalted s).ret = s.ret := rfl
@[simp] theorem setHalted_env (s : State) : (setHalted s).env = s.env := rfl
@[simp] theorem setHalted_ringOf (s : State) (b : RingId) : ringOf (setHalted s) b = ringOf s b := by cases b <;> rfl

/-! setRet. -/

@[simp] theorem setRet_cfg (s : State) (r : Ret) : (setRet s r).cfg = s.cfg := rfl
@[simp] theorem setRet_table (s : State) (r : Ret) : (setRet s r).table = s.table := rfl
@[simp] theorem setRet_rxb (s : State) (r : Ret) : (setRet s r).rxb = s.rxb := rfl
@[simp] theorem setRet_txb (s : State) (r : Ret) : (setRet s r).txb = s.txb := rfl
@[simp] theorem setRet_ps (s : State) (r : Ret) : (setRet s r).ps = s.ps := rfl
@[simp] theorem setRet_wd (s : State) (r : Ret) : (setRet s r).wd = s.wd := rfl
@[simp] theorem setRet_phase (s : State) (r : Ret) : (setRet s r).phase = s.phase := rfl
@[simp] theorem setRet_rxr (s : State) (r : Ret) : (setRet s r).rxr = s.rxr := rfl
@[simp] theorem setRet_txr (s : State) (r : Ret) : (setRet s r).txr = s.txr := rfl
@[simp] theorem setRet_halted (s : State) (r : Ret) : (setRet s r).halted = s.halted := rfl
@[simp] theorem setRet_fault (s : State) (r : Ret) : (setRet s r).fault = s.fault := rfl
@[simp] theorem setRet_history (s : State) (r : Ret) : (setRet s r).history = s.history := rfl
@[simp] theorem setRet_ret (s : State) (r : Ret) : (setRet s r).ret = r := rfl
@[simp] theorem setRet_env (s : State) (r : Ret) : (setRet s r).env = s.env := rfl
@[simp] theorem setRet_ringOf (s : State) (r : Ret) (b : RingId) : ringOf (setRet s r) b = ringOf s b := by cases b <;> rfl

/-! setEnv. -/

@[simp] theorem setEnv_cfg (s : State) (e : Env) : (setEnv s e).cfg = s.cfg := rfl
@[simp] theorem setEnv_table (s : State) (e : Env) : (setEnv s e).table = s.table := rfl
@[simp] theorem setEnv_rxb (s : State) (e : Env) : (setEnv s e).rxb = s.rxb := rfl
@[simp] theorem setEnv_txb (s : State) (e : Env) : (setEnv s e).txb = s.txb := rfl
@[simp] theorem setEnv_ps (s : State) (e : Env) : (setEnv s e).ps = s.ps := rfl
@[simp] theorem setEnv_wd (s : State) (e : Env) : (setEnv s e).wd = s.wd := rfl
@[simp] theorem setEnv_phase (s : State) (e : Env) : (setEnv s e).phase = s.phase := rfl
@[simp] theorem setEnv_rxr (s : State) (e : Env) : (setEnv s e).rxr = s.rxr := rfl
@[simp] theorem setEnv_txr (s : State) (e : Env) : (setEnv s e).txr = s.txr := rfl
@[simp] theorem setEnv_halted (s : State) (e : Env) : (setEnv s e).halted = s.halted := rfl
@[simp] theorem setEnv_fault (s : State) (e : Env) : (setEnv s e).fault = s.fault := rfl
@[simp] theorem setEnv_history (s : State) (e : Env) : (setEnv s e).history = s.history := rfl
@[simp] theorem setEnv_ret (s : State) (e : Env) : (setEnv s e).ret = s.ret := rfl
@[simp] theorem setEnv_env (s : State) (e : Env) : (setEnv s e).env = e := rfl
@[simp] theorem setEnv_ringOf (s : State) (e : Env) (b : RingId) : ringOf (setEnv s e) b = ringOf s b := by cases b <;> rfl

/-! emit. -/

@[simp] theorem emit_cfg (s : State) (e : Event) : (emit e s).cfg = s.cfg := rfl
@[simp] theorem emit_table (s : State) (e : Event) : (emit e s).table = s.table := rfl
@[simp] theorem emit_rxb (s : State) (e : Event) : (emit e s).rxb = s.rxb := rfl
@[simp] theorem emit_txb (s : State) (e : Event) : (emit e s).txb = s.txb := rfl
@[simp] theorem emit_ps (s : State) (e : Event) : (emit e s).ps = s.ps := rfl
@[simp] theorem emit_wd (s : State) (e : Event) : (emit e s).wd = s.wd := rfl
@[simp] theorem emit_phase (s : State) (e : Event) : (emit e s).phase = s.phase := rfl
@[simp] theorem emit_rxr (s : State) (e : Event) : (emit e s).rxr = s.rxr := rfl
@[simp] theorem emit_txr (s : State) (e : Event) : (emit e s).txr = s.txr := rfl
@[simp] theorem emit_halted (s : State) (e : Event) : (emit e s).halted = s.halted := rfl
@[simp] theorem emit_fault (s : State) (e : Event) : (emit e s).fault = s.fault := rfl
@[simp] theorem emit_history (s : State) (e : Event) : (emit e s).history = s.history ++ [e] := rfl
@[simp] theorem emit_ret (s : State) (e : Event) : (emit e s).ret = s.ret := rfl
@[simp] theorem emit_env (s : State) (e : Event) : (emit e s).env = s.env := rfl
@[simp] theorem emit_ringOf (s : State) (e : Event) (b : RingId) : ringOf (emit e s) b = ringOf s b := by cases b <;> rfl

/-! latch. -/

@[simp] theorem latch_cfg (s : State) (f : ModelFault) : (latch f s).cfg = s.cfg := rfl
@[simp] theorem latch_table (s : State) (f : ModelFault) : (latch f s).table = s.table := rfl
@[simp] theorem latch_rxb (s : State) (f : ModelFault) : (latch f s).rxb = s.rxb := rfl
@[simp] theorem latch_txb (s : State) (f : ModelFault) : (latch f s).txb = s.txb := rfl
@[simp] theorem latch_ps (s : State) (f : ModelFault) : (latch f s).ps = s.ps := rfl
@[simp] theorem latch_wd (s : State) (f : ModelFault) : (latch f s).wd = s.wd := rfl
@[simp] theorem latch_phase (s : State) (f : ModelFault) : (latch f s).phase = s.phase := rfl
@[simp] theorem latch_rxr (s : State) (f : ModelFault) : (latch f s).rxr = s.rxr := rfl
@[simp] theorem latch_txr (s : State) (f : ModelFault) : (latch f s).txr = s.txr := rfl
@[simp] theorem latch_halted (s : State) (f : ModelFault) : (latch f s).halted = s.halted := rfl
@[simp] theorem latch_history (s : State) (f : ModelFault) : (latch f s).history = s.history := rfl
@[simp] theorem latch_ret (s : State) (f : ModelFault) : (latch f s).ret = s.ret := rfl
@[simp] theorem latch_env (s : State) (f : ModelFault) : (latch f s).env = s.env := rfl
@[simp] theorem latch_ringOf (s : State) (f : ModelFault) (b : RingId) : ringOf (latch f s) b = ringOf s b := by cases b <;> rfl

theorem latch_fault_none (s : State) (f : ModelFault) (h : s.fault = none) : (latch f s).fault = some f := by
  simp [latch, h]

theorem latch_fault_some (s : State) (f g : ModelFault) (h : s.fault = some g) : (latch f s).fault = some g := by
  simp [latch, h]

theorem latch_fault_ne_none (s : State) (f : ModelFault) : (latch f s).fault ≠ none := by
  unfold latch
  cases s.fault <;> simp

end Sys2Proof.Machine
end

