-- ==== Sys2Proof/Laws/Ring.lean ====
section
/-! SUPPORT. The ring primitives: each as one update of its ring, and runs of pushes. -/

namespace Sys2Proof.Machine

theorem memWrite_eq (b : RingId) (i v : Byte) (s : State) :
    memWrite b i v s = setRing s b { ringOf s b with data := Memory.write (ringOf s b).data i.toNat v } := rfl

theorem setHead_eq (b : RingId) (i : Byte) (s : State) : setHead b i s = setRing s b { ringOf s b with head := i } := rfl

theorem setTail_eq (b : RingId) (i : Byte) (s : State) : setTail b i s = setRing s b { ringOf s b with tail := i } := rfl

theorem rbPush_eq (b : RingId) (v : Byte) (s : State) :
    rbPush b v s = setRing s b
      { data := Memory.write (ringOf s b).data (ringOf s b).head.toNat v
        head := (ringOf s b).head + 1
        tail := (ringOf s b).tail } := by
  cases b <;> rfl

theorem rbFlush_eq (b : RingId) (s : State) :
    rbFlush b s = setRing s b { ringOf s b with tail := (ringOf s b).head } := rfl

theorem skipInbound_eq (n : Byte) (s : State) :
    skipInbound n s = setRing s .rxb { s.rxb with tail := s.rxb.tail + n } := rfl

theorem memRead_some {b : RingId} {i v : Byte} {s : State} (h : Memory.read (ringOf s b).data i.toNat = some v) :
    memRead b i s = .ok v s := by
  simp [memRead, h]

theorem memRead_none {b : RingId} {i : Byte} {s : State} (h : Memory.read (ringOf s b).data i.toNat = none) :
    memRead b i s = .raised (latch (.unwrittenRead b i) s) := by
  simp [memRead, raise, h]

theorem rbPop_some {b : RingId} {v : Byte} {s : State}
    (h : Memory.read (ringOf s b).data (ringOf s b).tail.toNat = some v) :
    rbPop b s = .ok v (setRing s b { ringOf s b with tail := (ringOf s b).tail + 1 }) := by
  simp [rbPop, memRead_some h, Res.bind, setTail_eq]

theorem rbPop_none {b : RingId} {s : State} (h : Memory.read (ringOf s b).data (ringOf s b).tail.toNat = none) :
    rbPop b s = .raised (latch (.unwrittenRead b (ringOf s b).tail) s) := by
  simp [rbPop, memRead_none h, Res.bind]

/-- A pop returns the byte at the read position and moves past it, or raises on an unwritten cell. -/
theorem rbPop_cases (b : RingId) (s : State) :
    (∃ v, Memory.read (ringOf s b).data (ringOf s b).tail.toNat = some v ∧
      rbPop b s = .ok v (setRing s b { ringOf s b with tail := (ringOf s b).tail + 1 })) ∨
    (Memory.read (ringOf s b).data (ringOf s b).tail.toNat = none ∧
      rbPop b s = .raised (latch (.unwrittenRead b (ringOf s b).tail) s)) := by
  cases h : Memory.read (ringOf s b).data (ringOf s b).tail.toNat with
  | some v => exact .inl ⟨v, rfl, rbPop_some h⟩
  | none => exact .inr ⟨rfl, rbPop_none h⟩

/-! Indices. -/

theorem indexAt_zero (i : Byte) : indexAt i 0 = i := by simp [indexAt]

theorem indexAt_toNat (i : Byte) (k : Nat) : (indexAt i k).toNat = (i.toNat + k) % 256 := by
  simp [indexAt, BitVec.toNat_add, BitVec.toNat_ofNat]

theorem indexAt_succ (i : Byte) (k : Nat) : indexAt i (k + 1) = indexAt (i + 1) k := by
  have h : (i + 1).toNat = (i.toNat + 1) % 256 := by simp [BitVec.toNat_add]
  apply BitVec.eq_of_toNat_eq
  rw [indexAt_toNat, indexAt_toNat, h]
  omega

theorem indexAt_indexAt (i : Byte) (j k : Nat) : indexAt (indexAt i j) k = indexAt i (j + k) := by
  apply BitVec.eq_of_toNat_eq
  simp only [indexAt_toNat]
  omega

theorem rbCount_toNat (b : RingId) (s : State) :
    (rbCount b s).toNat = (256 - (ringOf s b).tail.toNat + (ringOf s b).head.toNat) % 256 := by
  simp [rbCount, BitVec.toNat_sub]

/-! Runs of pushes. -/

theorem Appended.nil (b : RingId) (s : State) : Appended b [] s s := by
  refine ⟨by simp, by simp [indexAt_zero], rfl, by simp, fun _ _ => rfl⟩

theorem appended_push (b : RingId) (v : Byte) (rest : List Byte) (s t : State)
    (h : Appended b rest (rbPush b v s) t) : Appended b (v :: rest) s t := by
  obtain ⟨ht, hh, htl, hr, ho⟩ := h
  rw [rbPush_eq] at ht hh htl hr ho
  simp only [ringOf_setRing, setRing_setRing] at ht hh htl hr ho
  refine ⟨ht, by simpa [indexAt_succ] using hh, htl, ?_, ?_⟩
  · intro k w hk hlen
    cases k with
    | zero =>
      simp only [List.getElem?_cons_zero, Option.some.injEq] at hk
      subst hk
      rw [ho, indexAt_zero]
      · exact Memory.read_write_same _ _ _
      · intro j hj hc
        have := congrArg (fun x : Nat => x) hc
        rw [indexAt_zero, ← indexAt_succ, indexAt_toNat] at this
        have hlt := (ringOf s b).head.isLt
        simp only [List.length_cons] at hlen
        omega
    | succ k =>
      simp only [List.getElem?_cons_succ] at hk
      rw [indexAt_succ]
      refine hr k w hk ?_
      simp only [List.length_cons] at hlen
      omega
  · intro a ha
    rw [ho a]
    · refine Memory.read_write_other _ _ _ _ ?_
      have := ha 0 (by simp)
      rwa [indexAt_zero] at this
    · intro k hk
      have := ha (k + 1) (by simpa using hk)
      rwa [indexAt_succ] at this

/-- What a run of pushes does (R101, R107). -/
theorem pushAll_appended (b : RingId) (vs : List Byte) (s : State) : Appended b vs s (pushAll b vs s) := by
  induction vs generalizing s with
  | nil => exact Appended.nil b s
  | cons v rest ih => exact appended_push b v rest s _ (ih (rbPush b v s))

theorem pushAll_append (b : RingId) (us vs : List Byte) (s : State) :
    pushAll b (us ++ vs) s = pushAll b vs (pushAll b us s) := by
  induction us generalizing s with
  | nil => rfl
  | cons u rest ih => exact ih (rbPush b u s)

theorem Appended.count {b : RingId} {bs : List Byte} {s t : State} (h : Appended b bs s t) :
    (rbCount b t).toNat = ((rbCount b s).toNat + bs.length) % 256 := by
  simp only [rbCount_toNat, h.2.1, h.2.2.1, indexAt_toNat]
  have h1 := (ringOf s b).tail.isLt
  have h2 := (ringOf s b).head.isLt
  omega

/-- A run of pushes leaves everything outside its ring alone. -/
theorem Appended.other {bs : List Byte} {s t : State} {b : RingId} (h : Appended b bs s t) :
    t = setRing s b (ringOf t b) := h.1

theorem pushAll_wf (b : RingId) (vs : List Byte) (s : State) (h : RingsWf s) : RingsWf (pushAll b vs s) := by
  induction vs generalizing s with
  | nil => exact h
  | cons v rest ih =>
    refine ih _ ?_
    rw [rbPush_eq]
    cases b
    · exact ⟨Memory.wf_write _ _ _ h.1, h.2⟩
    · exact ⟨h.1, Memory.wf_write _ _ _ h.2⟩

/-! The guarded pushes and the reply frames. -/

theorem rbCount_setRing_other (s : State) (r : Ring) : rbCount .txb (setRing s .rxb r) = rbCount .txb s := rfl

theorem rbCount_push_toNat (b : RingId) (v : Byte) (s : State) :
    (rbCount b (rbPush b v s)).toNat = ((rbCount b s).toNat + 1) % 256 := by
  exact (pushAll_appended b [v] s).count

/-- R125: with room, a run of guarded pushes is the run of raw pushes. -/
theorem enqueueAll_room (bs : List Byte) (s : State) (h : Room bs.length s) :
    enqueueAll bs s = .ok () (pushAll .txb bs s) := by
  induction bs generalizing s with
  | nil => rfl
  | cons v rest ih =>
    have hg : enqueueOutbound v s = .ok () (rbPush .txb v s) := by
      unfold enqueueOutbound guardedPush
      refine if_neg ?_
      rintro ⟨hp, hc⟩
      rcases h with h | h
      · simp [h] at hp
      · simp [hc] at h
    simp only [enqueueAll, hg, Res.bind, pushAll]
    refine ih _ ?_
    rcases h with h | h
    · exact .inl (by rw [rbPush_eq]; exact h)
    · refine .inr ?_
      rw [rbCount_push_toNat]
      simp only [List.length_cons] at h
      omega

/-- R125, R190: without room, the bytes that fit stay enqueued and the next one raises. -/
theorem enqueueAll_overflow (bs : List Byte) (s : State) (hp : s.cfg.overflowPolicy = .fault)
    (h : 255 < (rbCount .txb s).toNat + bs.length) :
    enqueueAll bs s =
      .raised (latch (.ringOverflow .txb) (pushAll .txb (bs.take (255 - (rbCount .txb s).toNat)) s)) := by
  induction bs generalizing s with
  | nil =>
    have := (rbCount .txb s).isLt
    simp at h
    omega
  | cons v rest ih =>
    by_cases hc : rbCount .txb s = 0xFF#8
    · simp [enqueueAll, enqueueOutbound, guardedPush, hp, hc, raise, Res.bind, pushAll]
    · have hg : enqueueOutbound v s = .ok () (rbPush .txb v s) := by
        simp [enqueueOutbound, guardedPush, hc]
      have hlt : (rbCount .txb s).toNat < 255 := by
        have h1 := (rbCount .txb s).isLt
        have h2 : (rbCount .txb s).toNat ≠ 255 := fun hh => hc (BitVec.eq_of_toNat_eq (by simpa using hh))
        omega
      simp only [enqueueAll, hg, Res.bind]
      have hcount : (rbCount .txb (rbPush .txb v s)).toNat = (rbCount .txb s).toNat + 1 := by
        rw [rbCount_push_toNat]
        omega
      rw [ih (rbPush .txb v s) (by rw [rbPush_eq]; exact hp) (by rw [hcount]; simp at h; omega), hcount]
      have : 255 - (rbCount .txb s).toNat = (255 - ((rbCount .txb s).toNat + 1)) + 1 := by omega
      rw [this, List.take_succ_cons]
      rfl

/-- Everything a run of guarded pushes can do. -/
theorem enqueueAll_cases (bs : List Byte) (s : State) :
    (Room bs.length s ∧ enqueueAll bs s = .ok () (pushAll .txb bs s)) ∨
    (s.cfg.overflowPolicy = .fault ∧ 255 < (rbCount .txb s).toNat + bs.length ∧
      enqueueAll bs s =
        .raised (latch (.ringOverflow .txb) (pushAll .txb (bs.take (255 - (rbCount .txb s).toNat)) s))) := by
  by_cases h : Room bs.length s
  · exact .inl ⟨h, enqueueAll_room bs s h⟩
  · simp only [Room, not_or, not_le] at h
    have hp : s.cfg.overflowPolicy = .fault := by
      cases hc : s.cfg.overflowPolicy with
      | fault => rfl
      | wrap => exact absurd hc h.1
    exact .inr ⟨hp, h.2, enqueueAll_overflow bs s hp h.2⟩

end Sys2Proof.Machine
end

