-- ==== Sys2Proof/Laws/Reply.lean ====
section
/-! SUPPORT. The reply frames: what `send` and its wrappers answer, and how sequenced operations compose. -/

namespace Sys2Proof.Machine

@[simp] theorem Res.bind_ok {α β : Type} (a : α) (s : State) (k : α → State → Res β) : (Res.ok a s).bind k = k a s := rfl

@[simp] theorem Res.bind_raised {α β : Type} (s : State) (k : α → State → Res β) :
    (Res.raised s : Res α).bind k = .raised s := rfl

@[simp] theorem Res.map_ok {α β : Type} (g : α → β) (a : α) (s : State) : (Res.ok a s).map g = .ok (g a) s := rfl

@[simp] theorem Res.map_raised {α β : Type} (g : α → β) (s : State) : (Res.raised s : Res α).map g = .raised s := rfl

@[simp] theorem Res.state_ok {α : Type} (a : α) (s : State) : (Res.ok a s).state = s := rfl

@[simp] theorem Res.state_raised {α : Type} (s : State) : (Res.raised s : Res α).state = s := rfl

@[simp] theorem done_ok (s : State) : done (.ok () s) = .next s := rfl

@[simp] theorem done_raised (s : State) : done (.raised s) = .next s := rfl

@[simp] theorem answer_ok (v : Ret) (s : State) : answer (.ok v s) = .next (setRet s v) := rfl

@[simp] theorem answer_raised (s : State) : answer (.raised s) = .next s := rfl

/-- The bytes of one reply frame (R70, R190). -/
def replyBytes (payload : List Byte) (length status : Byte) (s : State) : List Byte :=
  s.cfg.marker :: status :: length :: payload.take length.toNat

theorem replyBytes_length (payload : List Byte) (length status : Byte) (s : State) (h : length.toNat ≤ payload.length) :
    (replyBytes payload length status s).length = 3 + length.toNat := by
  simp [replyBytes, h]
  omega

theorem sendFrame_eq (payload : List Byte) (length status : Byte) (s : State) :
    sendFrame payload length status s = enqueueAll (replyBytes payload length status s) s := rfl

/-- R190 with room. -/
theorem sendFrame_room (payload : List Byte) (length status : Byte) (s : State) (h : length.toNat ≤ payload.length)
    (hr : Room (3 + length.toNat) s) :
    sendFrame payload length status s = .ok () (pushAll .txb (replyBytes payload length status s) s) := by
  rw [sendFrame_eq, enqueueAll_room]
  rwa [replyBytes_length _ _ _ _ h]

/-- R192 with room. -/
theorem sendStatusFrame_room (status : Byte) (s : State) (hr : Room 3 s) :
    sendStatusFrame status s = .ok () (pushAll .txb [s.cfg.marker, status, 0x00#8] s) :=
  sendFrame_room [] 0x00#8 status s (by simp) hr

/-- Everything `send` can do (R190, R125). -/
theorem sendFrame_cases (payload : List Byte) (length status : Byte) (s : State) :
    ∃ bs, Appended .txb bs s (pushAll .txb bs s) ∧
      (sendFrame payload length status s = .ok () (pushAll .txb bs s) ∨
        s.cfg.overflowPolicy = .fault ∧
          sendFrame payload length status s = .raised (latch (.ringOverflow .txb) (pushAll .txb bs s))) := by
  rw [sendFrame_eq]
  rcases enqueueAll_cases (replyBytes payload length status s) s with ⟨_, h⟩ | ⟨hp, _, h⟩
  · exact ⟨_, pushAll_appended _ _ _, .inl h⟩
  · exact ⟨_, pushAll_appended _ _ _, .inr ⟨hp, h⟩⟩

/-- Only the room and the policy matter to whether a frame fits. -/
theorem Room.congr {n : Nat} {s t : State} (hc : t.cfg = s.cfg) (ht : t.txb = s.txb) (h : Room n s) : Room n t := by
  unfold Room at *
  rw [hc]
  simpa [rbCount, ringOf, ht] using h

/-- After `m` bytes went in, the room is `m` bytes less. -/
theorem Room.after {m n : Nat} {bs : List Byte} {s t : State} (h : Room (m + n) s) (ha : Appended .txb bs s t)
    (hm : bs.length = m) : Room n t := by
  rcases h with h | h
  · left
    rw [ha.1, setRing_cfg]
    exact h
  · right
    rw [ha.count, hm]
    omega

/-- The bytes before the first zero of a string, as `send_string` sends them (R191). -/
theorem take_stringBytes (str : List Byte) : str.take (stringBytes str).length = stringBytes str := by
  unfold stringBytes
  induction str with
  | nil => rfl
  | cons c rest ih =>
    by_cases hc : (c != 0x00#8) = true
    · simp [hc, ih]
    · simp [hc]

theorem stringBytes_length_le (str : List Byte) : (stringBytes str).length ≤ str.length :=
  (List.takeWhile_sublist _).length_le

theorem stringBytes_append (str rest : List Byte) (h : ∀ v ∈ str, v ≠ 0x00#8)
    (hr : rest = [] ∨ rest.head? = some 0x00#8) : stringBytes (str ++ rest) = str := by
  unfold stringBytes
  induction str with
  | nil =>
    rcases hr with rfl | hr
    · rfl
    · cases rest with
      | nil => rfl
      | cons c r =>
        simp only [List.head?_cons, Option.some.injEq] at hr
        simp [hr]
  | cons c r ih =>
    have hc : c ≠ 0x00#8 := h c (by simp)
    simp [hc, ih (fun v hv => h v (by simp [hv]))]

/-- R191 with room. -/
theorem sendStringFrame_room (str : List Byte) (s : State) (h : (stringBytes str).length ≤ 255)
    (hr : Room (3 + (stringBytes str).length) s) :
    sendStringFrame str s = .ok () (pushAll .txb
      (s.cfg.marker :: 0x00#8 :: BitVec.ofNat 8 (stringBytes str).length :: stringBytes str) s) := by
  have hlen : (BitVec.ofNat 8 (stringBytes str).length).toNat = (stringBytes str).length := by
    simp only [BitVec.toNat_ofNat]
    omega
  unfold sendStringFrame
  rw [if_neg (by omega), sendFrame_room _ _ _ _ (by rw [hlen]; exact stringBytes_length_le str) (by rwa [hlen])]
  simp [replyBytes, hlen, take_stringBytes]

end Sys2Proof.Machine
end

