-- ==== Sys2Proof/Laws/Framing.lean ====
section
/-! SUPPORT. The parser's steps: replies commute with what is not the outbound ring, the header step on known cells, and
the two verdicts of a header. -/

namespace Sys2Proof.Machine

/-! Pushes on TXB commute with every update outside TXB. -/

theorem pushAll_txb_setRing_rxb (bs : List Byte) (s : State) (r : Ring) :
    pushAll .txb bs (setRing s .rxb r) = setRing (pushAll .txb bs s) .rxb r := by
  induction bs generalizing s with
  | nil => rfl
  | cons v rest ih => exact ih (rbPush .txb v s)

theorem pushAll_txb_setParser (bs : List Byte) (s : State) (p : Parser) :
    pushAll .txb bs (setParser s p) = setParser (pushAll .txb bs s) p := by
  induction bs generalizing s with
  | nil => rfl
  | cons v rest ih => exact ih (rbPush .txb v s)

theorem pushAll_txb_setEnv (bs : List Byte) (s : State) (e : Env) :
    pushAll .txb bs (setEnv s e) = setEnv (pushAll .txb bs s) e := by
  induction bs generalizing s with
  | nil => rfl
  | cons v rest ih => exact ih (rbPush .txb v s)

@[simp] theorem pushAll_txb_rxb (bs : List Byte) (s : State) : (pushAll .txb bs s).rxb = s.rxb := by
  rw [(pushAll_appended .txb bs s).1]
  rfl

@[simp] theorem pushAll_cfg (b : RingId) (bs : List Byte) (s : State) : (pushAll b bs s).cfg = s.cfg := by
  rw [(pushAll_appended b bs s).1]
  exact setRing_cfg _ _ _

@[simp] theorem pushAll_env (b : RingId) (bs : List Byte) (s : State) : (pushAll b bs s).env = s.env := by
  rw [(pushAll_appended b bs s).1]
  exact setRing_env _ _ _

@[simp] theorem pushAll_fault (b : RingId) (bs : List Byte) (s : State) : (pushAll b bs s).fault = s.fault := by
  rw [(pushAll_appended b bs s).1]
  exact setRing_fault _ _ _

@[simp] theorem pushAll_history (b : RingId) (bs : List Byte) (s : State) : (pushAll b bs s).history = s.history := by
  rw [(pushAll_appended b bs s).1]
  exact setRing_history _ _ _

theorem frameEnd_eq (s : State) : finishFrame s = frameEnd s := rfl

theorem pastBytes_eq (n : Byte) (s : State) : skipInbound n s = pastBytes n s := rfl

theorem finishFrame_pushAll (bs : List Byte) (s : State) :
    finishFrame (pushAll .txb bs s) = pushAll .txb bs (finishFrame s) := by
  unfold finishFrame resetParser
  rw [pushAll_txb_setParser, rbFlush_eq, rbFlush_eq, pushAll_txb_setRing_rxb]
  simp

theorem rbFlush_pushAll (bs : List Byte) (s : State) :
    rbFlush .rxb (pushAll .txb bs s) = pushAll .txb bs (rbFlush .rxb s) := by
  rw [rbFlush_eq, rbFlush_eq, pushAll_txb_setRing_rxb]
  simp

theorem resetParser_pushAll (bs : List Byte) (s : State) :
    resetParser (pushAll .txb bs s) = pushAll .txb bs (resetParser s) := (pushAll_txb_setParser bs s _).symm

theorem setEnv_pushAll (bs : List Byte) (s : State) (e : Env) :
    setEnv (pushAll .txb bs s) e = pushAll .txb bs (setEnv s e) := (pushAll_txb_setEnv bs s e).symm

/-- A draw of a boolean consumes an outcome fixed from outside, or a free value (log 10). -/
theorem drawBool_cases (s : State) :
    (∃ r rest, s.env.bools = r :: rest ∧ drawBool s = (r, setEnv s { s.env with bools := rest })) ∨
    (s.env.bools = [] ∧
      drawBool s = (Config.freeBool s.env.drawn, setEnv s { s.env with drawn := s.env.drawn + 1 })) := by
  unfold drawBool
  cases h : s.env.bools with
  | nil => exact .inr ⟨rfl, rfl⟩
  | cons r rest => exact .inl ⟨r, rest, rfl, rfl⟩

theorem frameEnd_skip (n : Byte) (s : State) : frameEnd (skipInbound n s) = frameEnd s := rfl

/-! The payload stage. -/

/-- Taking a protocol error of the payload stage with room for its reply (R241). -/
theorem takeError_room (code : Byte) (s : State) (h : Room 3 s) :
    takeError code s = .ok () (pushAll .txb [s.cfg.marker, code, 0x00#8] (frameEnd s)) := by
  rw [takeError, sendStatusFrame_room code s h, Res.bind_ok, finishFrame_pushAll, frameEnd_eq]

/-! The header stage. -/

/-- The header step on three written cells (R142). -/
theorem headerStep_cells {m st l : Byte} {s : State}
    (h : cellsFrom .rxb s s.rxb.tail 3 = [some m, some st, some l]) :
    headerStep s = judgeHeader m st l (skipInbound 3 s) := by
  simp only [cellsFrom, ringOf_rxb, List.cons.injEq, and_true] at h
  obtain ⟨h0, h1, h2⟩ := h
  unfold headerStep
  rw [rbPop_some (b := .rxb) h0, Res.bind_ok, rbPop_some (b := .rxb) (by simpa using h1), Res.bind_ok,
    rbPop_some (b := .rxb) (by simpa using h2), Res.bind_ok]
  simp only [ringOf_setRing, setRing_setRing]
  rw [skipInbound_eq]
  congr 3
  apply BitVec.eq_of_toNat_eq
  simp [BitVec.toNat_add]

/-- One failing header check with room for its reply (R143, R230). -/
theorem rejectHeader_room (s : State) (h : Room 3 s) :
    rejectHeader s = .ok () (pushAll .txb [s.cfg.marker, 0x05#8, 0x00#8] (rbFlush .rxb s)) :=
  sendStatusFrame_room 0x05#8 (rbFlush .rxb s) h

/-- Where no fault is recorded, the latch takes this one (R34). -/
theorem latch_none {f : ModelFault} {s : State} (h : s.fault = none) : latch f s = { s with fault := some f } := by
  simp [latch, h]

/-- One failing header check whose reply does not fit (R143, R244): flushed, the bytes that fit enqueued, raised. -/
theorem rejectHeader_overflow (s : State) (hp : s.cfg.overflowPolicy = .fault) (h : 252 < (rbCount .txb s).toNat) :
    rejectHeader s = .raised (latch (.ringOverflow .txb)
      (pushAll .txb ([s.cfg.marker, 0x05#8, 0x00#8].take (255 - (rbCount .txb s).toNat)) (rbFlush .rxb s))) :=
  enqueueAll_overflow [s.cfg.marker, 0x05#8, 0x00#8] (rbFlush .rxb s) hp
    (show 255 < (rbCount .txb s).toNat + 3 by omega)

/-- A good header (R144, R146). -/
theorem judgeHeader_good {m st l : Byte} {s : State} (hm : m = s.cfg.marker) (hs : st = 0x00#8) :
    judgeHeader m st l s = if l = 0x00#8 then sendStatusFrame statusOk s else .ok () (awaitPayload l s) := by
  subst hm hs
  simp [judgeHeader, reportIf, secondCheck]

end Sys2Proof.Machine
end

