-- ==== Sys2Proof/Laws/Handler.lean ====
section
/-! SUPPORT. User handlers as oracles: the draw of an answer, everything the peeks of a handler can do, and the one case
split of a handler call. -/

namespace Sys2Proof.Machine

/-- A draw of an answer consumes one fixed from outside, or a free value; it changes `env` alone (log 8). -/
theorem drawAnswer_cases (f o : Byte) (w : List (Option Byte)) (s : State) :
    (∃ r rest, s.env.answers = r :: rest ∧ drawAnswer f o w s = (r, setEnv s { s.env with answers := rest })) ∨
    (s.env.answers = [] ∧ drawAnswer f o w s =
      (Config.freeAnswer s.env.drawn f o w, setEnv s { s.env with drawn := s.env.drawn + 1 })) := by
  unfold drawAnswer
  cases h : s.env.answers with
  | nil => exact .inr ⟨rfl, rfl⟩
  | cons r rest => exact .inl ⟨r, rest, rfl, rfl⟩

theorem drawAnswer_setEnv (f o : Byte) (w : List (Option Byte)) (s : State) :
    ∃ e, (drawAnswer f o w s).2 = setEnv s e := by
  rcases drawAnswer_cases f o w s with ⟨r, rest, _, h⟩ | ⟨_, h⟩ <;> exact ⟨_, by rw [h]⟩

/-- A draw looks at `env` alone. -/
theorem drawAnswer_congr {f o : Byte} {w : List (Option Byte)} {s t s1 : State} {r : HandlerAnswer}
    (he : t.env = s.env) (h : drawAnswer f o w s = (r, s1)) : drawAnswer f o w t = (r, setEnv t s1.env) := by
  unfold drawAnswer at *
  rw [he]
  split at h <;> cases h <;> rfl

theorem cellsFrom_getElem? (b : RingId) (s : State) (i : Byte) (n k : Nat) :
    (cellsFrom b s i n)[k]? = if k < n then some (Memory.read (ringOf s b).data (indexAt i k).toNat) else none := by
  induction n generalizing i k with
  | zero => simp [cellsFrom]
  | succ n ih =>
    cases k with
    | zero => simp [cellsFrom, indexAt]
    | succ k =>
      have hi : indexAt (i + 1) k = indexAt i (k + 1) := by
        apply BitVec.eq_of_toNat_eq
        simp [indexAt, BitVec.toNat_add]
        omega
      rw [cellsFrom, List.getElem?_cons_succ, ih, hi]
      simp only [Nat.add_lt_add_iff_right]

/-- A handler may read position `k`: it is in the window and its cell has a value (R59, R176 item 1). -/
def Peekable (w : List (Option Byte)) (k : Byte) : Prop := ∃ v, w[k.toNat]? = some (some v)

/-- The argument bytes of a frame may all be read (R59). -/
theorem peekable_arguments {args : List Byte} {k : Byte} (h : k.toNat < args.length) : Peekable (args.map some) k :=
  ⟨args[k.toNat], by simp [h]⟩

/-- The written cells of a window in the inbound ring may be read (R59). -/
theorem peekable_window {o k v : Byte} {n : Nat} {s : State} (h : k.toNat < n)
    (hv : Memory.read s.rxb.data (o + k).toNat = some v) : Peekable (window o n s) k :=
  ⟨v, by rw [window, cellsFrom_getElem?, if_pos h, indexAt, BitVec.ofNat_toNat, BitVec.setWidth_eq, ringOf_rxb, hv]⟩

theorem peekArgument_ok {o : Byte} {w : List (Option Byte)} {k : Byte} (h : Peekable w k) (s : State) :
    peekArgument o w k s = .ok () s := by
  obtain ⟨v, hv⟩ := h
  simp [peekArgument, hv]

/-- A peek of an unwritten cell of the window (R57). -/
theorem peekArgument_unwritten {o : Byte} {w : List (Option Byte)} {k : Byte} (h : w[k.toNat]? = some none) (s : State) :
    peekArgument o w k s = raise (.unwrittenRead .rxb (o + k)) s := by
  simp [peekArgument, h]

/-- A peek outside the window (R57, R59, R176 item 1). -/
theorem peekArgument_outside {o : Byte} {w : List (Option Byte)} {k : Byte} (h : w[k.toNat]? = none) (s : State) :
    peekArgument o w k s =
      raise (if (Memory.read s.rxb.data (o + k).toNat).isSome then .handlerContract
        else .unwrittenRead .rxb (o + k)) s := by
  simp only [peekArgument, h, rbPeek, memRead, ringOf_rxb]
  split <;> rename_i hr <;> simp only [hr, raise, Res.bind_ok, Res.bind_raised, Option.isSome] <;> rfl

/-- Everything one peek can do. -/
theorem peekArgument_cases (o : Byte) (w : List (Option Byte)) (k : Byte) (s : State) :
    (Peekable w k ∧ peekArgument o w k s = .ok () s) ∨
    ∃ fault, peekArgument o w k s = raise fault s ∧
      (fault = .handlerContract ∨
        fault = .unwrittenRead .rxb (o + k) ∧ (w[k.toNat]? = some none ∨ w.length ≤ k.toNat)) := by
  cases h : w[k.toNat]? with
  | none =>
    refine .inr ⟨_, peekArgument_outside h s, ?_⟩
    rw [List.getElem?_eq_none_iff] at h
    split
    · exact .inl rfl
    · exact .inr ⟨rfl, .inr h⟩
  | some c =>
    cases c with
    | none => exact .inr ⟨_, peekArgument_unwritten h s, .inr ⟨rfl, .inl rfl⟩⟩
    | some v => exact .inl ⟨⟨v, h⟩, peekArgument_ok ⟨v, h⟩ s⟩

/-- Everything the peeks of a handler can do: all succeed and change nothing, or one raises and changes nothing else. -/
theorem peekArguments_cases (o : Byte) (w : List (Option Byte)) (reads : List Byte) (s : State) :
    ((∀ k ∈ reads, Peekable w k) ∧ peekArguments o w reads s = .ok () s) ∨
    ∃ fault, peekArguments o w reads s = raise fault s ∧
      (fault = .handlerContract ∨
        ∃ k ∈ reads, fault = .unwrittenRead .rxb (o + k) ∧ (w[k.toNat]? = some none ∨ w.length ≤ k.toNat)) := by
  induction reads with
  | nil => exact .inl ⟨by simp, rfl⟩
  | cons k rest ih =>
    rcases peekArgument_cases o w k s with ⟨hk, h⟩ | ⟨fault, h, hf⟩
    · rcases ih with ⟨hr, h'⟩ | ⟨fault, h', hf⟩
      · exact .inl ⟨by simpa [hk] using hr, by simp [peekArguments, h, h']⟩
      · refine .inr ⟨fault, by simp [peekArguments, h, h'], ?_⟩
        exact hf.imp id fun ⟨j, hj, e⟩ => ⟨j, by simp [hj], e⟩
    · refine .inr ⟨fault, by simp [peekArguments, h, raise], ?_⟩
      exact hf.imp id fun e => ⟨k, by simp, e⟩

theorem peekArguments_ok {o : Byte} {w : List (Option Byte)} {reads : List Byte} (h : ∀ k ∈ reads, Peekable w k)
    (s : State) : peekArguments o w reads s = .ok () s := by
  induction reads with
  | nil => rfl
  | cons k rest ih =>
    rw [peekArguments, peekArgument_ok (h k (by simp)), Res.bind_ok, ih fun j hj => h j (by simp [hj])]

/-- Peeks that succeed come before the rest. -/
theorem peekArguments_append {o : Byte} {w : List (Option Byte)} {before : List Byte} (h : ∀ k ∈ before, Peekable w k)
    (k : Byte) (rest : List Byte) (s : State) :
    peekArguments o w (before ++ k :: rest) s = (peekArgument o w k s).bind fun _ s1 => peekArguments o w rest s1 := by
  induction before with
  | nil => rfl
  | cons j before ih =>
    rw [List.cons_append, peekArguments, peekArgument_ok (h j (by simp)), Res.bind_ok,
      ih fun i hi => h i (by simp [hi])]

/-- R224 with room: the effect, then the one reply. -/
theorem sendAnswer_room (status : Byte) (payload : List Byte) (effect : WdEffect) (s : State)
    (hl : payload.length ≤ 255) (hr : Room (3 + payload.length) (applyEffect effect s)) :
    sendAnswer status payload effect s = .ok () (pushAll .txb
      ((applyEffect effect s).cfg.marker :: status :: BitVec.ofNat 8 payload.length :: payload)
      (applyEffect effect s)) := by
  have hn : (BitVec.ofNat 8 payload.length).toNat = payload.length := by
    simp only [BitVec.toNat_ofNat]
    omega
  rw [sendAnswer, if_pos hl, sendFrame_room _ _ _ _ (by omega) (by rwa [hn])]
  simp [replyBytes, hn]

/-- Everything a user handler's call can do (R176, R224). -/
theorem userHandler_cases (f o : Byte) (w : List (Option Byte)) (s : State) :
    (∃ e, drawAnswer f o w s = (.breach, setEnv s e) ∧
      userHandler f o w s = raise .handlerContract (setEnv s e)) ∨
    ∃ e reads status payload effect, drawAnswer f o w s = (.reply reads status payload effect, setEnv s e) ∧
      userHandler f o w s = (peekArguments o w reads (setEnv s e)).bind fun _ s2 =>
        sendAnswer status payload effect s2 := by
  obtain ⟨e, he⟩ := drawAnswer_setEnv f o w s
  cases h : drawAnswer f o w s with
  | mk r s1 =>
    rw [h] at he
    subst he
    cases r with
    | breach => exact .inl ⟨e, rfl, by simp [userHandler, h]⟩
    | reply reads status payload effect =>
      exact .inr ⟨e, reads, status, payload, effect, rfl, by simp [userHandler, h]⟩

end Sys2Proof.Machine
end

