-- ==== Sys2Proof/Laws/Extends.lean ====
section
/-! SUPPORT. What every operation of the block keeps, said once: parameters, table, latches, the growing history, the
canonical ring arrays and the width of the watchdog registers. -/

namespace Sys2Proof.Machine

/-- `t` may follow `s` by operations of the block: what no operation undoes. -/
structure Extends (s t : State) : Prop where
  cfg : t.cfg = s.cfg
  table : t.table = s.table
  halted : s.halted = true → t.halted = true
  fault : ∀ f, s.fault = some f → t.fault = some f
  history : ∃ evs, t.history = s.history ++ evs
  rings : RingsWf s → RingsWf t
  watchdog : WatchdogOk s → WatchdogOk t
  elapsed : ∀ evs, t.history = s.history ++ evs → Event.heartbeat ∉ evs →
    s.wd.elapsed + evs.count .tick < 2 ^ s.cfg.tickBits → t.wd.elapsed = s.wd.elapsed + evs.count .tick

/-- What emits nothing and leaves the elapsed count alone counts no tick. -/
theorem elapsed_kept {s t : State} (hh : t.history = s.history) (he : t.wd.elapsed = s.wd.elapsed) :
    ∀ evs, t.history = s.history ++ evs → Event.heartbeat ∉ evs →
      s.wd.elapsed + evs.count .tick < 2 ^ s.cfg.tickBits → t.wd.elapsed = s.wd.elapsed + evs.count .tick := by
  intro evs h _ _
  obtain rfl : evs = [] := by simpa [hh] using h
  simpa using he

theorem Extends.refl (s : State) : Extends s s :=
  ⟨rfl, rfl, id, fun _ => id, ⟨[], by simp⟩, id, id, elapsed_kept rfl rfl⟩

theorem Extends.trans {s t u : State} (h : Extends s t) (h' : Extends t u) : Extends s u where
  cfg := h'.cfg.trans h.cfg
  table := h'.table.trans h.table
  halted := h'.halted ∘ h.halted
  fault f := h'.fault f ∘ h.fault f
  history := by
    obtain ⟨e, he⟩ := h.history
    obtain ⟨e', he'⟩ := h'.history
    exact ⟨e ++ e', by rw [he', he, List.append_assoc]⟩
  rings := h'.rings ∘ h.rings
  watchdog := h'.watchdog ∘ h.watchdog
  elapsed evs hu hb hn := by
    obtain ⟨e, he⟩ := h.history
    obtain ⟨e', he'⟩ := h'.history
    obtain rfl : evs = e ++ e' := by simpa [he', he] using hu.symm
    simp only [List.mem_append, not_or] at hb
    rw [List.count_append] at hn ⊢
    have h1 := h.elapsed e he hb.1 (by omega)
    have h2 := h'.elapsed e' he' hb.2 (by rw [h1, h.cfg]; omega)
    omega

/-- Sequencing: both halves extend, so the whole does. -/
theorem Extends.bind {α β : Type} {s : State} {r : Res α} {k : α → State → Res β} (h : Extends s r.state)
    (hk : ∀ a s1, r = .ok a s1 → Extends s1 (k a s1).state) : Extends s (r.bind k).state := by
  cases r with
  | ok a s1 => exact h.trans (hk a s1 rfl)
  | raised s1 => exact h

theorem Extends.map {α β : Type} {s : State} {r : Res α} (g : α → β) (h : Extends s r.state) :
    Extends s (r.map g).state := by
  cases r <;> exact h

/-! The updates. -/

theorem setRet_extends (s : State) (r : Ret) : Extends s (setRet s r) :=
  ⟨rfl, rfl, id, fun _ => id, ⟨[], by simp⟩, id, id, elapsed_kept rfl rfl⟩

theorem setEnv_extends (s : State) (e : Env) : Extends s (setEnv s e) :=
  ⟨rfl, rfl, id, fun _ => id, ⟨[], by simp⟩, id, id, elapsed_kept rfl rfl⟩

theorem setParser_extends (s : State) (p : Parser) : Extends s (setParser s p) :=
  ⟨rfl, rfl, id, fun _ => id, ⟨[], by simp⟩, id, id, elapsed_kept rfl rfl⟩

theorem setPhase_extends (s : State) (p : Phase) : Extends s (setPhase s p) :=
  ⟨rfl, rfl, id, fun _ => id, ⟨[], by simp⟩, id, id, elapsed_kept rfl rfl⟩

theorem setRxr_extends (s : State) (r : RxRegister) : Extends s (setRxr s r) :=
  ⟨rfl, rfl, id, fun _ => id, ⟨[], by simp⟩, id, id, elapsed_kept rfl rfl⟩

theorem setTxr_extends (s : State) (r : TxRegister) : Extends s (setTxr s r) :=
  ⟨rfl, rfl, id, fun _ => id, ⟨[], by simp⟩, id, id, elapsed_kept rfl rfl⟩

theorem setHalted_extends (s : State) : Extends s (setHalted s) :=
  ⟨rfl, rfl, fun _ => rfl, fun _ => id, ⟨[], by simp⟩, id, id, elapsed_kept rfl rfl⟩

/-- An event but `tick`, which counts only with the count. -/
theorem emit_extends (e : Event) (s : State) (h : e ≠ .tick := by nofun) : Extends s (emit e s) where
  cfg := rfl
  table := rfl
  halted := id
  fault _ := id
  history := ⟨[e], rfl⟩
  rings := id
  watchdog := id
  elapsed evs he _ _ := by
    obtain rfl : evs = [e] := by simpa using he.symm
    simp [h]

theorem latch_extends (f : ModelFault) (s : State) : Extends s (latch f s) :=
  ⟨rfl, rfl, id, fun g hg => by simp [latch, hg], ⟨[], by simp⟩, id, id, elapsed_kept rfl rfl⟩

/-- The latch is set afterwards, to the first fault (R34, log 22). -/
theorem latch_fault (f : ModelFault) (s : State) : (latch f s).fault ≠ none := by
  cases h : s.fault <;> simp [latch, h]

/-! The ring primitives. -/

theorem setRing_extends (s : State) (b : RingId) (r : Ring) (h : RingsWf s → Memory.wf r.data = true) :
    Extends s (setRing s b r) where
  cfg := setRing_cfg s b r
  table := setRing_table s b r
  halted := by simp
  fault := by simp
  history := ⟨[], by simp⟩
  rings hw := by
    cases b
    · exact ⟨h hw, hw.2⟩
    · exact ⟨hw.1, h hw⟩
  watchdog := by simp [WatchdogOk]
  elapsed := elapsed_kept (by simp) (by simp)

/-- Moving an index leaves the array alone. -/
theorem setRing_index_extends (s : State) (b : RingId) (i j : Byte) :
    Extends s (setRing s b { data := (ringOf s b).data, head := i, tail := j }) := by
  refine setRing_extends s b _ fun hw => ?_
  cases b
  · exact hw.1
  · exact hw.2

theorem rbPush_extends (b : RingId) (v : Byte) (s : State) : Extends s (rbPush b v s) := by
  rw [rbPush_eq]
  refine setRing_extends s b _ fun hw => Memory.wf_write _ _ _ ?_
  cases b
  · exact hw.1
  · exact hw.2

theorem pushAll_extends (b : RingId) (vs : List Byte) (s : State) : Extends s (pushAll b vs s) := by
  induction vs generalizing s with
  | nil => exact Extends.refl s
  | cons v rest ih => exact (rbPush_extends b v s).trans (ih _)

theorem memRead_extends (b : RingId) (i : Byte) (s : State) : Extends s (memRead b i s).state := by
  unfold memRead
  split
  · exact Extends.refl s
  · exact latch_extends _ s

theorem rbPop_extends (b : RingId) (s : State) : Extends s (rbPop b s).state :=
  (memRead_extends b _ s).bind fun _ s1 _ => setRing_index_extends s1 b (ringOf s1 b).head _

theorem rbFlush_extends (b : RingId) (s : State) : Extends s (rbFlush b s) := setRing_index_extends s b _ _

theorem skipInbound_extends (n : Byte) (s : State) : Extends s (skipInbound n s) := setRing_index_extends s .rxb _ _

theorem guardedPush_extends (b : RingId) (v : Byte) (s : State) : Extends s (guardedPush b v s).state := by
  unfold guardedPush
  split
  · exact latch_extends _ s
  · exact rbPush_extends b v s

/-! Replies, errors, draws. -/

theorem enqueueAll_extends (bs : List Byte) (s : State) : Extends s (enqueueAll bs s).state := by
  induction bs generalizing s with
  | nil => exact Extends.refl s
  | cons v rest ih => exact (guardedPush_extends .txb v s).bind fun _ s1 _ => ih s1

theorem sendFrame_extends (payload : List Byte) (length status : Byte) (s : State) :
    Extends s (sendFrame payload length status s).state := enqueueAll_extends _ s

theorem sendStatusFrame_extends (status : Byte) (s : State) : Extends s (sendStatusFrame status s).state :=
  sendFrame_extends _ _ _ s

theorem sendStringFrame_extends (str : List Byte) (s : State) : Extends s (sendStringFrame str s).state := by
  unfold sendStringFrame
  split
  · exact latch_extends _ s
  · exact sendFrame_extends _ _ _ s

theorem finishFrame_extends (s : State) : Extends s (finishFrame s) :=
  (rbFlush_extends .rxb s).trans (setParser_extends _ _)

theorem takeError_extends (code : Byte) (s : State) : Extends s (takeError code s).state :=
  (sendStatusFrame_extends code s).bind fun _ s1 _ => finishFrame_extends s1

theorem rejectHeader_extends (s : State) : Extends s (rejectHeader s).state :=
  (rbFlush_extends .rxb s).trans (sendStatusFrame_extends _ _)

theorem drawBool_extends (s : State) : Extends s (drawBool s).2 := by
  rcases drawBool_cases s with ⟨r, rest, _, h⟩ | ⟨_, h⟩ <;> rw [h] <;> exact setEnv_extends s _

/-! Transport. -/

theorem tryReceive_extends (s : State) : Extends s (tryReceive s).state := by
  unfold tryReceive
  split
  · exact (setRxr_extends s _).trans (emit_extends _ _)
  · exact Extends.refl s

theorem rxService_extends (s : State) : Extends s (rxService s).state := by
  refine (tryReceive_extends s).bind fun r s1 _ => ?_
  cases r
  · exact Extends.refl s1
  · exact guardedPush_extends _ _ s1

theorem tryTransmit_extends (s : State) : Extends s (tryTransmit s).state := by
  unfold tryTransmit
  split
  · exact (rbPop_extends .txb s).bind fun v s1 _ => emit_extends _ s1
  · exact Extends.refl s

/-! Watchdog. -/

theorem tickWord_lt (cfg : Config) (n : Nat) : tickWord cfg n < 2 ^ cfg.tickBits := Nat.mod_lt _ (by positivity)

theorem tickWatchdog_extends (s : State) : Extends s (tickWatchdog s) where
  cfg := rfl
  table := rfl
  halted := id
  fault _ := id
  history := ⟨[.tick], rfl⟩
  rings := id
  watchdog h := ⟨tickWord_lt _ _, h.2⟩
  elapsed evs he _ hn := by
    obtain rfl : evs = [.tick] := by simpa [tickWatchdog] using he.symm
    exact Nat.mod_eq_of_lt hn

theorem heartbeat_extends (s : State) : Extends s (heartbeat s) where
  cfg := rfl
  table := rfl
  halted := id
  fault _ := id
  history := ⟨[.heartbeat], rfl⟩
  rings := id
  watchdog h := ⟨by positivity, h.2⟩
  elapsed evs he hb _ := by
    obtain rfl : evs = [.heartbeat] := by simpa [heartbeat] using he.symm
    simp at hb

theorem writeTimeout_extends (t : Nat) (s : State) : Extends s (writeTimeout t s) :=
  ⟨rfl, rfl, id, fun _ => id, ⟨[], by simp [writeTimeout]⟩, id, fun hw => ⟨hw.1, tickWord_lt _ _⟩,
    elapsed_kept rfl rfl⟩

theorem callStop_extends (s : State) : Extends s (callStop s) := by
  unfold callStop
  split
  · exact Extends.refl s
  · exact setHalted_extends s
  · split
    · exact drawBool_extends s
    · exact (drawBool_extends s).trans (setHalted_extends _)

theorem checkWatchdog_extends (s : State) : Extends s (checkWatchdog s) := by
  unfold checkWatchdog
  split
  · exact (emit_extends _ s).trans (callStop_extends _)
  · exact Extends.refl s

/-! Handlers. -/

theorem namesReply_extends (id slot : Byte) (s : State) : Extends s (namesReply id slot s).state := by
  unfold namesReply
  split
  · exact sendStringFrame_extends _ s
  · unfold namesError
    split
    · split
      · exact (drawBool_extends s).trans (sendStatusFrame_extends _ _)
      · exact sendStatusFrame_extends _ s
    · exact sendStatusFrame_extends _ s

theorem commandNames_extends (o : Byte) (s : State) : Extends s (commandNames o s).state :=
  (memRead_extends .rxb o s).bind fun _ s1 _ =>
    (memRead_extends .rxb (indexAt o 1) s1).bind fun _ s2 _ => namesReply_extends _ _ s2

theorem applyEffect_extends (e : WdEffect) (s : State) : Extends s (applyEffect e s) := by
  cases e
  · exact Extends.refl s
  · exact heartbeat_extends s
  · exact writeTimeout_extends _ s

theorem sendAnswer_extends (status : Byte) (payload : List Byte) (effect : WdEffect) (s : State) :
    Extends s (sendAnswer status payload effect s).state := by
  unfold sendAnswer
  split
  · exact (applyEffect_extends _ s).trans (sendFrame_extends _ _ _ _)
  · exact latch_extends _ s

theorem userHandler_extends (f o : Byte) (w : List (Option Byte)) (s : State) :
    Extends s (userHandler f o w s).state := by
  rcases userHandler_cases f o w s with ⟨e, _, h⟩ | ⟨e, reads, status, payload, effect, _, h⟩ <;>
    rw [h] <;> refine (setEnv_extends s e).trans ?_
  · exact latch_extends _ _
  · refine Extends.bind ?_ fun _ s1 _ => sendAnswer_extends _ _ _ s1
    rcases peekArguments_cases o w reads (setEnv s e) with ⟨_, h⟩ | ⟨fault, h, _⟩ <;> rw [h]
    · exact Extends.refl _
    · exact latch_extends _ _

theorem callHandler_extends (e : Entry) (f o : Byte) (s : State) : Extends s (callHandler e f o s).state := by
  unfold callHandler
  split
  · exact sendFrame_extends _ _ _ s
  · exact commandNames_extends o s
  · exact userHandler_extends _ _ _ s

/-! The parser and the frame forms. -/

theorem reportIf_extends (bad : Bool) (s : State) : Extends s (reportIf bad s).state := by
  unfold reportIf
  split
  · exact rejectHeader_extends s
  · exact Extends.refl s

theorem secondCheck_extends (badM : Bool) (st : Byte) (s : State) : Extends s (secondCheck badM st s).2 := by
  unfold secondCheck
  split
  · exact drawBool_extends s
  · exact Extends.refl s

theorem judgeHeader_extends (m st l : Byte) (s : State) : Extends s (judgeHeader m st l s).state := by
  refine (reportIf_extends _ s).bind fun _ s1 _ => ?_
  refine Extends.bind ((secondCheck_extends _ st s1).trans (reportIf_extends _ _)) fun _ s2 _ => ?_
  split
  · exact setParser_extends _ _
  · split
    · exact sendStatusFrame_extends _ s2
    · exact setParser_extends _ _

theorem headerStep_extends (s : State) : Extends s (headerStep s).state :=
  (rbPop_extends .rxb s).bind fun _ s1 _ => (rbPop_extends .rxb s1).bind fun _ s2 _ =>
    (rbPop_extends .rxb s2).bind fun _ s3 _ => judgeHeader_extends _ _ _ s3

theorem judgePayload_extends (l f : Byte) (s : State) : Extends s (judgePayload l f s).state := by
  unfold judgePayload
  split
  · exact takeError_extends _ s
  · split
    · exact takeError_extends _ s
    · refine Extends.bind ((emit_extends _ s).trans (callHandler_extends _ _ _ _)) fun _ s1 _ => ?_
      exact finishFrame_extends s1

theorem payloadStep_extends (s : State) : Extends s (payloadStep s).state :=
  (rbPop_extends .rxb s).bind fun _ s1 _ => judgePayload_extends _ _ s1

theorem parseService_extends (s : State) : Extends s (parseService s).state := by
  unfold parseService
  split
  · split
    · exact headerStep_extends s
    · exact payloadStep_extends s
  · exact Extends.refl s

theorem dispatched_extends (f : Byte) (handler : State → Res Unit) (s : State)
    (h : ∀ s1, Extends s1 (handler s1).state) : Extends s (dispatched f handler s).state := by
  refine Extends.bind ((skipInbound_extends 1 s).trans ((emit_extends _ _).trans (h _))) fun _ s1 _ => ?_
  exact finishFrame_extends s1

/-! The poll loop. -/

theorem phaseOperation_extends (s : State) : Extends s (phaseOperation s).state := by
  unfold phaseOperation
  split
  · exact rxService_extends s
  · exact tryTransmit_extends s
  · exact parseService_extends s
  · exact checkWatchdog_extends s

theorem advancePhase_extends (p : Phase) (s : State) : Extends s (advancePhase p s) := by
  unfold advancePhase
  split
  · exact Extends.refl s
  · exact setPhase_extends s _

end Sys2Proof.Machine
end

