-- ==== Sys2Proof/Laws/Settles.lean ====
section
/-! SUPPORT. How an operation ends: one that goes on leaves the fault latch as it was, one that raises leaves it set, and
neither moves the phase or the halt latch. -/

namespace Sys2Proof.Machine

/-- The operation's end against the state it began in. -/
def Settles {α : Type} (s : State) : Res α → Prop
  | .ok _ t => t.fault = s.fault ∧ t.phase = s.phase ∧ t.halted = s.halted
  | .raised t => t.fault ≠ none ∧ t.phase = s.phase ∧ t.halted = s.halted

/-- Sequencing: what follows settles against the state before. -/
theorem Settles.bind {α β : Type} {s : State} {r : Res α} {k : α → State → Res β} (h : Settles s r)
    (hk : ∀ a s1, r = .ok a s1 → Settles s1 (k a s1)) : Settles s (r.bind k) := by
  cases r with
  | raised t => exact h
  | ok a s1 =>
    have h2 := hk a s1 rfl
    obtain ⟨hf, hp, hh⟩ := h
    rw [Res.bind_ok]
    cases hr : k a s1 <;> rw [hr] at h2
    · exact ⟨h2.1.trans hf, h2.2.1.trans hp, h2.2.2.trans hh⟩
    · exact ⟨h2.1, h2.2.1.trans hp, h2.2.2.trans hh⟩

/-- Beginning later, after an update that touches none of the three. -/
theorem Settles.after {α : Type} {s s1 : State} {r : Res α} (h : Settles s1 r) (hf : s1.fault = s.fault)
    (hp : s1.phase = s.phase) (hh : s1.halted = s.halted) : Settles s r := by
  cases r
  · exact ⟨h.1.trans hf, h.2.1.trans hp, h.2.2.trans hh⟩
  · exact ⟨h.1, h.2.1.trans hp, h.2.2.trans hh⟩

theorem raise_settles {α : Type} (f : ModelFault) (s : State) : Settles s (raise f s : Res α) :=
  ⟨latch_fault f s, rfl, rfl⟩

theorem memRead_settles (b : RingId) (i : Byte) (s : State) : Settles s (memRead b i s) := by
  unfold memRead
  split
  · exact ⟨rfl, rfl, rfl⟩
  · exact raise_settles _ s

theorem rbPop_settles (b : RingId) (s : State) : Settles s (rbPop b s) :=
  (memRead_settles b _ s).bind fun _ s1 _ => by simp [setTail_eq, Settles]

theorem guardedPush_settles (b : RingId) (v : Byte) (s : State) : Settles s (guardedPush b v s) := by
  unfold guardedPush
  split
  · exact raise_settles _ s
  · simp [rbPush_eq, Settles]

theorem enqueueAll_settles (bs : List Byte) (s : State) : Settles s (enqueueAll bs s) := by
  induction bs generalizing s with
  | nil => exact ⟨rfl, rfl, rfl⟩
  | cons v rest ih => exact (guardedPush_settles .txb v s).bind fun _ s1 _ => ih s1

theorem sendFrame_settles (payload : List Byte) (length status : Byte) (s : State) :
    Settles s (sendFrame payload length status s) := enqueueAll_settles _ s

theorem sendStatusFrame_settles (status : Byte) (s : State) : Settles s (sendStatusFrame status s) :=
  sendFrame_settles _ _ _ s

theorem sendStringFrame_settles (str : List Byte) (s : State) : Settles s (sendStringFrame str s) := by
  unfold sendStringFrame
  split
  · exact raise_settles _ s
  · exact sendFrame_settles _ _ _ s

theorem takeError_settles (code : Byte) (s : State) : Settles s (takeError code s) :=
  (sendStatusFrame_settles code s).bind fun _ _ _ => ⟨rfl, rfl, rfl⟩

theorem rejectHeader_settles (s : State) : Settles s (rejectHeader s) :=
  (sendStatusFrame_settles 0x05#8 (rbFlush .rxb s)).after rfl rfl rfl

/-- A draw changes `env` alone. -/
theorem drawBool_setEnv (s : State) : ∃ e, (drawBool s).2 = setEnv s e := by
  rcases drawBool_cases s with ⟨r, rest, _, h⟩ | ⟨_, h⟩ <;> exact ⟨_, by rw [h]⟩

theorem namesReply_settles (id slot : Byte) (s : State) : Settles s (namesReply id slot s) := by
  unfold namesReply
  split
  · exact sendStringFrame_settles _ s
  · unfold namesError
    split
    · split
      · obtain ⟨e, he⟩ := drawBool_setEnv s
        rw [he]
        exact (sendStatusFrame_settles _ _).after rfl rfl rfl
      · exact sendStatusFrame_settles _ s
    · exact sendStatusFrame_settles _ s

theorem commandNames_settles (o : Byte) (s : State) : Settles s (commandNames o s) :=
  (memRead_settles .rxb o s).bind fun _ s1 _ =>
    (memRead_settles .rxb (indexAt o 1) s1).bind fun _ s2 _ => namesReply_settles _ _ s2

theorem applyEffect_fault (e : WdEffect) (s : State) : (applyEffect e s).fault = s.fault := by cases e <;> rfl
theorem applyEffect_phase (e : WdEffect) (s : State) : (applyEffect e s).phase = s.phase := by cases e <;> rfl
theorem applyEffect_halted (e : WdEffect) (s : State) : (applyEffect e s).halted = s.halted := by cases e <;> rfl

theorem sendAnswer_settles (status : Byte) (payload : List Byte) (effect : WdEffect) (s : State) :
    Settles s (sendAnswer status payload effect s) := by
  unfold sendAnswer
  split
  · exact (sendFrame_settles _ _ _ _).after (applyEffect_fault _ _) (applyEffect_phase _ _) (applyEffect_halted _ _)
  · exact raise_settles _ s

theorem peekArguments_settles (o : Byte) (w : List (Option Byte)) (reads : List Byte) (s : State) :
    Settles s (peekArguments o w reads s) := by
  rcases peekArguments_cases o w reads s with ⟨_, h⟩ | ⟨fault, h, _⟩ <;> rw [h]
  · exact ⟨rfl, rfl, rfl⟩
  · exact raise_settles _ s

theorem userHandler_settles (f o : Byte) (w : List (Option Byte)) (s : State) : Settles s (userHandler f o w s) := by
  rcases userHandler_cases f o w s with ⟨e, _, h⟩ | ⟨e, reads, status, payload, effect, _, h⟩ <;> rw [h]
  · exact (raise_settles _ _).after rfl rfl rfl
  · refine Settles.after (Settles.bind (peekArguments_settles o w reads (setEnv s e)) fun _ s1 _ => ?_) rfl rfl rfl
    exact sendAnswer_settles _ _ _ s1

theorem callHandler_settles (e : Entry) (f o : Byte) (s : State) : Settles s (callHandler e f o s) := by
  unfold callHandler
  split
  · exact sendFrame_settles _ _ _ s
  · exact commandNames_settles o s
  · exact userHandler_settles _ _ _ s

theorem reportIf_settles (bad : Bool) (s : State) : Settles s (reportIf bad s) := by
  unfold reportIf
  split
  · exact rejectHeader_settles s
  · exact ⟨rfl, rfl, rfl⟩

theorem secondCheck_setEnv (badM : Bool) (st : Byte) (s : State) : ∃ e, (secondCheck badM st s).2 = setEnv s e := by
  unfold secondCheck
  split
  · exact drawBool_setEnv s
  · exact ⟨s.env, rfl⟩

theorem judgeHeader_settles (m st l : Byte) (s : State) : Settles s (judgeHeader m st l s) := by
  refine (reportIf_settles _ s).bind fun _ s1 _ => ?_
  obtain ⟨e, he⟩ := secondCheck_setEnv (m != s.cfg.marker) st s1
  rw [he]
  refine Settles.bind ((reportIf_settles _ _).after rfl rfl rfl) fun _ s2 _ => ?_
  split
  · exact ⟨rfl, rfl, rfl⟩
  · split
    · exact sendStatusFrame_settles _ s2
    · exact ⟨rfl, rfl, rfl⟩

theorem headerStep_settles (s : State) : Settles s (headerStep s) :=
  (rbPop_settles .rxb s).bind fun _ s1 _ => (rbPop_settles .rxb s1).bind fun _ s2 _ =>
    (rbPop_settles .rxb s2).bind fun _ s3 _ => judgeHeader_settles _ _ _ s3

theorem judgePayload_settles (l f : Byte) (s : State) : Settles s (judgePayload l f s) := by
  unfold judgePayload
  split
  · exact takeError_settles _ s
  · split
    · exact takeError_settles _ s
    · exact Settles.bind ((callHandler_settles _ _ _ _).after rfl rfl rfl) fun _ _ _ => ⟨rfl, rfl, rfl⟩

theorem payloadStep_settles (s : State) : Settles s (payloadStep s) :=
  (rbPop_settles .rxb s).bind fun _ s1 _ => judgePayload_settles _ _ s1

theorem parseService_settles (s : State) : Settles s (parseService s) := by
  unfold parseService
  split
  · split
    · exact headerStep_settles s
    · exact payloadStep_settles s
  · exact ⟨rfl, rfl, rfl⟩

theorem rxService_settles (s : State) : Settles s (rxService s) := by
  unfold rxService
  refine Settles.bind (r := tryReceive s) ?_ fun r s1 _ => ?_
  · unfold tryReceive
    split <;> exact ⟨rfl, rfl, rfl⟩
  · cases r
    · exact ⟨rfl, rfl, rfl⟩
    · exact guardedPush_settles _ _ s1

theorem tryTransmit_settles (s : State) : Settles s (tryTransmit s) := by
  unfold tryTransmit
  split
  · exact (rbPop_settles .txb s).bind fun _ _ _ => ⟨rfl, rfl, rfl⟩
  · exact ⟨rfl, rfl, rfl⟩

end Sys2Proof.Machine
end

