-- ==== Sys2Proof/Laws/FrameLaws.lean ====
section
/-! SUPPORT. The four frame-level properties of R153 (`42_framing.md` section 5), which the rule asks a model to prove as
laws: of the header step past its three pops (`judgeHeader`) and of the payload step past its pop (`judgePayload`). -/

namespace Sys2Proof.Machine

/-- From `s` to `t` the bytes `bs` were enqueued in TXB, and nothing else happened to it. -/
def Enqueued (bs : List Byte) (s t : State) : Prop := t.txb = (pushAll .txb bs s).txb

/-- Pushes on TXB see nothing but TXB. -/
theorem pushAll_txb_congr (bs : List Byte) {s t : State} (h : t.txb = s.txb) :
    (pushAll .txb bs t).txb = (pushAll .txb bs s).txb := by
  induction bs generalizing s t with
  | nil => exact h
  | cons v rest ih =>
    refine ih ?_
    simp [rbPush_eq, ringOf, setRing, h]

theorem Enqueued.congr {bs : List Byte} {s s1 t t1 : State} (h : Enqueued bs s t) (hs : s.txb = s1.txb)
    (ht : t1.txb = t.txb) : Enqueued bs s1 t1 := by
  rw [Enqueued, ht, h, pushAll_txb_congr bs hs]

theorem Enqueued.append {as bs : List Byte} {s t u : State} (h : Enqueued as s t) (h' : Enqueued bs t u) :
    Enqueued (as ++ bs) s u := by
  rw [Enqueued, h', pushAll_append, pushAll_txb_congr bs h]

/-- A read that succeeds changes nothing (R57). -/
theorem memRead_ok {b : RingId} {i v : Byte} {s t : State} (h : memRead b i s = .ok v t) : t = s := by
  unfold memRead at h
  split at h <;> cases h
  rfl

/-- A frame that was sent is in TXB whole, and nothing else changed (R190). -/
theorem sendFrame_ok {payload : List Byte} {length status : Byte} {s t : State}
    (h : sendFrame payload length status s = .ok () t) :
    t = pushAll .txb (replyBytes payload length status s) s := by
  rw [sendFrame_eq] at h
  rcases enqueueAll_cases (replyBytes payload length status s) s with ⟨_, h'⟩ | ⟨_, _, h'⟩ <;> rw [h'] at h <;> cases h
  rfl

theorem sendStatusFrame_ok {status : Byte} {s t : State} (h : sendStatusFrame status s = .ok () t) :
    t = pushAll .txb [s.cfg.marker, status, 0x00#8] s := sendFrame_ok h

/-- A reply emits nothing, sent or not. -/
theorem enqueueAll_history (bs : List Byte) (s : State) : (enqueueAll bs s).state.history = s.history := by
  rcases enqueueAll_cases bs s with ⟨_, h⟩ | ⟨_, _, h⟩ <;> rw [h]
  · exact pushAll_history _ _ s
  · exact (latch_history _ _).trans (pushAll_history _ _ s)

theorem sendFrame_history (payload : List Byte) (length status : Byte) (s : State) :
    (sendFrame payload length status s).state.history = s.history := enqueueAll_history _ s

/-- Taking a protocol error calls no handler (R241). -/
theorem takeError_history (code : Byte) (s : State) : (takeError code s).state.history = s.history := by
  have h := sendFrame_history [] 0x00#8 code s
  unfold takeError sendStatusFrame
  cases hr : sendFrame [] 0x00#8 code s <;> rw [hr] at h <;> exact h

theorem takeError_ok {code : Byte} {s t : State} (h : takeError code s = .ok () t) :
    Enqueued [s.cfg.marker, code, 0x00#8] s t := by
  unfold takeError at h
  cases hr : sendStatusFrame code s with
  | raised u => rw [hr] at h; cases h
  | ok a u =>
    rw [hr] at h
    cases h
    rw [sendStatusFrame_ok hr]
    rfl

/-- One failing header check that went through: flushed, one reply, no event (R143). -/
theorem rejectHeader_ok {s t : State} (h : rejectHeader s = .ok () t) :
    t.rxb.tail = t.rxb.head ∧ t.cfg = s.cfg ∧ t.history = s.history ∧
      Enqueued [s.cfg.marker, 0x05#8, 0x00#8] s t := by
  have e := sendStatusFrame_ok h
  subst e
  exact ⟨by rw [pushAll_txb_rxb]; rfl, pushAll_cfg _ _ _, pushAll_history _ _ _, rfl⟩

/-- R153 (1): a bad marker gets COMMUNICATION_ERROR, once or twice, calls no handler, and leaves the parser in
AWAITING_HEADER with nothing buffered. -/
theorem badMarker_rejected {m st l : Byte} {s t : State} (hm : m ≠ s.cfg.marker)
    (h : judgeHeader m st l s = .ok () t) :
    t.ps = { stage := .awaitingHeader, wait := 0x03#8 } ∧ t.rxb.tail = t.rxb.head ∧ t.history = s.history ∧
      (Enqueued [s.cfg.marker, 0x05#8, 0x00#8] s t ∨
        Enqueued ([s.cfg.marker, 0x05#8, 0x00#8] ++ [s.cfg.marker, 0x05#8, 0x00#8]) s t) := by
  have hm' : (m != s.cfg.marker) = true := by simpa using hm
  simp only [judgeHeader, hm', reportIf, if_true, Bool.true_or] at h
  cases hr : rejectHeader s with
  | raised u => rw [hr] at h; cases h
  | ok a s1 =>
    obtain ⟨e1, c1, h1, q1⟩ := rejectHeader_ok hr
    obtain ⟨env, he⟩ := secondCheck_setEnv true st s1
    rw [hr, Res.bind_ok, he] at h
    split at h
    · cases hr2 : rejectHeader (setEnv s1 env) with
      | raised u => rw [hr2] at h; cases h
      | ok b s2 =>
        obtain ⟨e2, _, h2, q2⟩ := rejectHeader_ok hr2
        rw [hr2] at h
        cases h
        refine ⟨rfl, e2, h2.trans h1, .inr (q1.append ?_)⟩
        have q3 : Enqueued [s.cfg.marker, 0x05#8, 0x00#8] (setEnv s1 env) s2 := by rw [← c1]; exact q2
        exact q3.congr rfl rfl
    · cases h
      exact ⟨rfl, e1, h1, .inl (q1.congr rfl rfl)⟩

/-- R153 (3): a function id outside the table gets UNDEFINED_FUNCTION and calls no handler. -/
theorem undefinedFunction_reported {l f : Byte} {s : State} (hf : tableCount s.table ≤ f.toNat) :
    (judgePayload l f s).state.history = s.history ∧
      ∀ t, judgePayload l f s = .ok () t → Enqueued [s.cfg.marker, 0x03#8, 0x00#8] s t := by
  have h : judgePayload l f s = takeError statusUndefinedFunction s := by
    simp [judgePayload, List.getElem?_eq_none_iff.mpr hf]
  rw [h]
  exact ⟨takeError_history _ s, fun _ => takeError_ok⟩

/-- R153 (4): a wrong byte count gets BYTE_COUNT_ERROR and calls no handler. -/
theorem byteCountError_reported {l f : Byte} {s : State} {e : Entry} (he : s.table.entries[f.toNat]? = some e)
    (hl : l.toNat ≠ 1 + e.required) :
    (judgePayload l f s).state.history = s.history ∧
      ∀ t, judgePayload l f s = .ok () t → Enqueued [s.cfg.marker, 0x04#8, 0x00#8] s t := by
  have h : judgePayload l f s = takeError statusByteCountError s := by simp [judgePayload, he, hl]
  rw [h]
  exact ⟨takeError_history _ s, fun _ => takeError_ok⟩

/-- What one handler call that kept its contract leaves: one reply frame, and no call of a handler (R176 item 2). -/
def RepliedOnce (s t : State) : Prop :=
  (∃ evs, t.history = s.history ++ evs ∧ ∀ g o, Event.invoke g o ∉ evs) ∧
    ∃ status payload, payload.length ≤ 255 ∧
      Enqueued (s.cfg.marker :: status :: BitVec.ofNat 8 payload.length :: payload) s t

/-- Sending one frame is one reply. -/
theorem sendFrame_repliedOnce {payload : List Byte} {status : Byte} {n : Nat} {s t : State} (hn : n ≤ payload.length)
    (hb : n ≤ 255) (h : sendFrame payload (BitVec.ofNat 8 n) status s = .ok () t) : RepliedOnce s t := by
  have hh := sendFrame_history payload (BitVec.ofNat 8 n) status s
  rw [h] at hh
  have hl : (payload.take n).length = n := by simp [hn]
  have hm : n % 256 = n := by omega
  refine ⟨⟨[], by simpa using hh, by simp⟩, status, payload.take n, by omega, ?_⟩
  rw [sendFrame_ok h, hl]
  simp [replyBytes, hm, Enqueued]

/-- A reply after what touches neither TXB nor the parameters and calls no handler. -/
theorem RepliedOnce.after {s s1 t : State} (h : RepliedOnce s1 t) (hx : s1.txb = s.txb) (hc : s1.cfg = s.cfg)
    (hh : ∃ evs, s1.history = s.history ++ evs ∧ ∀ g o, Event.invoke g o ∉ evs) : RepliedOnce s t := by
  obtain ⟨⟨evs, e1, n1⟩, status, payload, hl, hq⟩ := h
  obtain ⟨evs0, e0, n0⟩ := hh
  refine ⟨⟨evs0 ++ evs, by rw [e1, e0, List.append_assoc], fun g o => ?_⟩, status, payload, hl, ?_⟩
  · simp [n0 g o, n1 g o]
  · rw [← hc]
    exact hq.congr hx rfl

theorem namesReply_repliedOnce {id slot : Byte} {s t : State} (h : namesReply id slot s = .ok () t) :
    RepliedOnce s t := by
  have code : ∀ {c : Byte} {u : State}, sendStatusFrame c u = .ok () t → RepliedOnce u t := fun h =>
    sendFrame_repliedOnce (n := 0) (by simp) (by omega) h
  unfold namesReply at h
  split at h
  · unfold sendStringFrame at h
    split at h
    · cases h
    · exact sendFrame_repliedOnce (stringBytes_length_le _) (by omega) h
  · unfold namesError at h
    split at h
    · split at h
      · obtain ⟨e, he⟩ := drawBool_setEnv s
        rw [he] at h
        exact (code h).after rfl rfl ⟨[], by simp, by simp⟩
      · exact code h
    · exact code h

theorem applyEffect_events (e : WdEffect) (s : State) :
    ∃ evs, (applyEffect e s).history = s.history ++ evs ∧ ∀ g o, Event.invoke g o ∉ evs := by
  cases e
  · exact ⟨[], by simp [applyEffect], by simp⟩
  · exact ⟨[.heartbeat], rfl, by simp⟩
  · exact ⟨[], by simp [applyEffect, writeTimeout], by simp⟩

theorem userHandler_repliedOnce {f o : Byte} {w : List (Option Byte)} {s t : State}
    (h : userHandler f o w s = .ok () t) : RepliedOnce s t := by
  rcases userHandler_cases f o w s with ⟨e, _, h'⟩ | ⟨e, reads, status, payload, effect, _, h'⟩ <;> rw [h'] at h
  · cases h
  · rcases peekArguments_cases o w reads (setEnv s e) with ⟨_, hp⟩ | ⟨fault, hp, _⟩ <;> rw [hp] at h
    · rw [Res.bind_ok, sendAnswer] at h
      split at h
      · rename_i hl
        refine (sendFrame_repliedOnce le_rfl hl h).after ?_ ?_ (applyEffect_events effect (setEnv s e)) <;>
          cases effect <;> rfl
      · cases h
    · cases h

/-- Every handler replies exactly once (R176 item 2, R177 to R179). -/
theorem callHandler_repliedOnce {e : Entry} {f o : Byte} {s t : State} (h : callHandler e f o s = .ok () t) :
    RepliedOnce s t := by
  unfold callHandler at h
  split at h
  · exact sendFrame_repliedOnce (payload := [_]) (n := 1) (by simp) (by omega) h
  · unfold commandNames at h
    rcases hr : rbPeek .rxb o s with ⟨v, s1⟩ | s1 <;> rw [hr] at h
    · obtain rfl : s1 = s := memRead_ok hr
      rw [Res.bind_ok] at h
      rcases hr2 : rbPeek .rxb (indexAt o 1) s1 with ⟨v2, s2⟩ | s2 <;> rw [hr2] at h
      · obtain rfl : s2 = s1 := memRead_ok hr2
        exact namesReply_repliedOnce h
      · cases h
    · cases h
  · exact userHandler_repliedOnce h

/-- R153 (2): a valid frame makes exactly one handler call and enqueues exactly one reply frame. -/
theorem validFrame_called_once {l f : Byte} {s t : State} {e : Entry} (he : s.table.entries[f.toNat]? = some e)
    (hl : l.toNat = 1 + e.required) (h : judgePayload l f s = .ok () t) :
    (∃ evs, t.history = s.history ++ .invoke f s.rxb.tail :: evs ∧ ∀ g o, Event.invoke g o ∉ evs) ∧
      ∃ status payload, payload.length ≤ 255 ∧
        Enqueued (s.cfg.marker :: status :: BitVec.ofNat 8 payload.length :: payload) s t := by
  simp only [judgePayload, he, hl, ne_eq, not_true_eq_false, if_false] at h
  cases hr : callHandler e f s.rxb.tail (emit (.invoke f s.rxb.tail) s) with
  | raised u => rw [hr] at h; cases h
  | ok a u =>
    rw [hr] at h
    cases h
    obtain ⟨⟨evs, h1, h2⟩, status, payload, h3, h4⟩ := callHandler_repliedOnce hr
    refine ⟨⟨evs, ?_, h2⟩, status, payload, h3, h4.congr rfl rfl⟩
    show u.history = _
    rw [h1]
    simp

end Sys2Proof.Machine
end

