-- ==== Sys2Proof/Laws/PerInstr.lean ====
section
/-! SUPPORT. The length of an encoded frame (R70, R71, R74), stated of every instruction: one lemma per constructor. -/

namespace Sys2Proof.Laws.FrameLength

/-- R71: an encoded well-formed instruction is a frame of 3 to 258 bytes, and has `3 + L` bytes for its length byte `L`,
or is a malformed header, of which only the three header bytes are a form (R81). An internal operation has no encoding. -/
def Statement (i : Instr) : Prop :=
  ∀ (v : View) (bs : List Byte), WellFormed v i = true → encode i = some bs →
    3 ≤ bs.length ∧ bs.length ≤ 258 ∧ (bs.length = 3 ∨ ∃ l, bs[2]? = some l ∧ bs.length = 3 + l.toNat)

/-- A header followed by `n` payload bytes, `n` its length byte. -/
theorem header_and_payload (m s : Byte) (payload : List Byte) (n : Nat) (hn : payload.length = n) (h : n ≤ 255) :
    3 ≤ (m :: s :: BitVec.ofNat 8 n :: payload).length ∧ (m :: s :: BitVec.ofNat 8 n :: payload).length ≤ 258 ∧
      ((m :: s :: BitVec.ofNat 8 n :: payload).length = 3 ∨
        ∃ l, (m :: s :: BitVec.ofNat 8 n :: payload)[2]? = some l ∧
          (m :: s :: BitVec.ofNat 8 n :: payload).length = 3 + l.toNat) := by
  subst hn
  refine ⟨by simp, by simp only [List.length_cons]; omega, .inr ⟨_, rfl, ?_⟩⟩
  simp only [List.length_cons, BitVec.toNat_ofNat]
  omega

theorem badMarker (m : Byte) (s : Byte) (l : Byte) : Statement (.badMarker m s l) := by
  intro v bs _ he
  cases he
  exact ⟨by simp, by simp, .inl rfl⟩

theorem badStatus (m : Byte) (s : Byte) (l : Byte) : Statement (.badStatus m s l) := by
  intro v bs _ he
  cases he
  exact ⟨by simp, by simp, .inl rfl⟩

theorem reqAck (m : Byte) : Statement (.reqAck m) := by
  intro v bs _ he
  cases he
  exact ⟨by simp, by simp, .inl rfl⟩

theorem badFunc (m : Byte) (f : Byte) (args : List Byte) : Statement (.badFunc m f args) := by
  intro v bs hw he
  cases he
  simp only [WellFormed, Bool.and_eq_true, decide_eq_true_eq] at hw
  have h := hw.2
  exact header_and_payload m 0x00#8 (f :: args) (args.length + 1) rfl (by omega)

theorem badCount (m : Byte) (f : Byte) (args : List Byte) : Statement (.badCount m f args) := by
  intro v bs hw he
  cases he
  simp only [WellFormed, Bool.and_eq_true, decide_eq_true_eq] at hw
  have h := hw.2
  exact header_and_payload m 0x00#8 (f :: args) (args.length + 1) rfl (by omega)

theorem reqCount (m : Byte) : Statement (.reqCount m) := by
  intro v bs _ he
  cases he
  exact ⟨by simp, by simp, .inr ⟨0x01#8, rfl, rfl⟩⟩

theorem reqNames (m : Byte) (id : Byte) (slot : Byte) : Statement (.reqNames m id slot) := by
  intro v bs _ he
  cases he
  exact ⟨by simp, by simp, .inr ⟨0x03#8, rfl, rfl⟩⟩

theorem reqUser (m : Byte) (f : Byte) (args : List Byte) : Statement (.reqUser m f args) := by
  intro v bs hw he
  cases he
  simp only [WellFormed, Bool.and_eq_true, decide_eq_true_eq] at hw
  have h := hw.2
  exact header_and_payload m 0x00#8 (f :: args) (args.length + 1) rfl (by omega)

theorem rspStatus (m : Byte) (s : Byte) : Statement (.rspStatus m s) := by
  intro v bs _ he
  cases he
  exact ⟨by simp, by simp, .inl rfl⟩

theorem rspData (m : Byte) (s : Byte) (payload : List Byte) : Statement (.rspData m s payload) := by
  intro v bs hw he
  cases he
  simp only [WellFormed, Bool.and_eq_true, decide_eq_true_eq] at hw
  exact header_and_payload m s payload _ rfl hw.2

theorem rbCount (b : RingId) : Statement (.rbCount b) := fun _ _ _ he => nomatch he

theorem rbPush (b : RingId) (v : Byte) : Statement (.rbPush b v) := fun _ _ _ he => nomatch he

theorem rbPop (b : RingId) : Statement (.rbPop b) := fun _ _ _ he => nomatch he

theorem rbEmpty (b : RingId) : Statement (.rbEmpty b) := fun _ _ _ he => nomatch he

theorem rbPeek (b : RingId) (i : Byte) : Statement (.rbPeek b i) := fun _ _ _ he => nomatch he

theorem rbFlush (b : RingId) : Statement (.rbFlush b) := fun _ _ _ he => nomatch he

theorem tryReceive : Statement (.tryReceive) := fun _ _ _ he => nomatch he

theorem rxService : Statement (.rxService) := fun _ _ _ he => nomatch he

theorem tryTransmit : Statement (.tryTransmit) := fun _ _ _ he => nomatch he

theorem txService : Statement (.txService) := fun _ _ _ he => nomatch he

theorem enqueueOutbound (v : Byte) : Statement (.enqueueOutbound v) := fun _ _ _ he => nomatch he

theorem parseService : Statement (.parseService) := fun _ _ _ he => nomatch he

theorem headerStep : Statement (.headerStep) := fun _ _ _ he => nomatch he

theorem payloadStep : Statement (.payloadStep) := fun _ _ _ he => nomatch he

theorem tableBuild : Statement (.tableBuild) := fun _ _ _ he => nomatch he

theorem name (id : Byte) (slot : Byte) : Statement (.name id slot) := fun _ _ _ he => nomatch he

theorem requiredBytes (id : Byte) : Statement (.requiredBytes id) := fun _ _ _ he => nomatch he

theorem count : Statement (.count) := fun _ _ _ he => nomatch he

theorem invoke (id : Byte) (offset : Byte) : Statement (.invoke id offset) := fun _ _ _ he => nomatch he

theorem send (payload : List Byte) (length : Byte) (status : Byte) : Statement (.send payload length status) := fun _ _ _ he => nomatch he

theorem sendString (bytes : List Byte) : Statement (.sendString bytes) := fun _ _ _ he => nomatch he

theorem sendStatus (status : Byte) : Statement (.sendStatus status) := fun _ _ _ he => nomatch he

theorem wdCheck : Statement (.wdCheck) := fun _ _ _ he => nomatch he

theorem wdTick : Statement (.wdTick) := fun _ _ _ he => nomatch he

theorem wdHeartbeat : Statement (.wdHeartbeat) := fun _ _ _ he => nomatch he

theorem stop : Statement (.stop) := fun _ _ _ he => nomatch he

theorem wdSetTimeout (t : Nat) : Statement (.wdSetTimeout t) := fun _ _ _ he => nomatch he

theorem coreStep : Statement (.coreStep) := fun _ _ _ he => nomatch he

theorem envRxArrive (v : Byte) : Statement (.envRxArrive v) := fun _ _ _ he => nomatch he

theorem envTxReady (r : Bool) : Statement (.envTxReady r) := fun _ _ _ he => nomatch he

end Sys2Proof.Laws.FrameLength
end

