-- ==== Sys2Proof/Tests/Slice0.lean ====
section
/-! SUPPORT. The model's own tests: words written out from the encoding tables of `30_encoding.md`, ill-formed terms the
checks refuse, the vectors of `95_test_vectors.md` (their ids are in the names or comments), and a witness for the
hypotheses of every statement that has some. -/

namespace Sys2Proof.Tests

open Sys2Proof Sys2Proof.Machine

/-! The example configuration EX of `95_test_vectors.md` section 0, and small states built from it. -/

def exConfig : Config :=
  { marker := 0x7E#8
    commands :=
      [ { name := [0x63#8, 0x6F#8, 0x75#8, 0x6E#8, 0x74#8], paramFormat := [], returnFormat := [0x42#8] },
        { name := [0x6E#8, 0x61#8, 0x6D#8, 0x65#8, 0x73#8], paramFormat := [0x42#8, 0x42#8], returnFormat := [0x73#8] },
        { name := [0x62#8, 0x65#8, 0x61#8, 0x74#8], paramFormat := [], returnFormat := [] },
        { name := [0x65#8, 0x63#8, 0x68#8, 0x6F#8, 0x34#8], paramFormat := [0x49#8], returnFormat := [0x49#8] } ]
    alphabet := [(0x42#8, .one), (0x48#8, .two), (0x49#8, .four), (0x51#8, .eight)]
    tickBits := 16
    timeoutReset := 0
    overflowPolicy := .fault
    hdrRecheck := .latched
    stopReturns := .any }

def ex : State := State.resetWith exConfig

def exView : View := tableView exConfig ex.table

/-- A ring array with `bs` written from index `i` on. -/
def cells : Byte → List Byte → Memory → Memory
  | _, [], m => m
  | i, v :: rest, m => cells (i + 1) rest (Memory.write m i.toNat v)

/-- A ring that holds exactly `bs`, from index `i` on. -/
def holding (i : Byte) (bs : List Byte) : Ring :=
  { data := cells i bs [], head := i + BitVec.ofNat 8 bs.length, tail := i }

/-- A ring with the given indices and no cell written. -/
def indices (head tail : Byte) : Ring := { data := [], head := head, tail := tail }

/-- EX with `bs` buffered inbound. -/
def exRx (bs : List Byte) : State := { ex with rxb := holding 0x00#8 bs }

/-- EX in the payload stage: wait count `l`, the payload `bs` buffered from index 3. -/
def exPayload (l : Byte) (bs : List Byte) : State :=
  { ex with rxb := holding 0x03#8 bs, ps := { stage := .awaitingPayload, wait := l } }

/-- EX with the outbound count at 255: no reply byte fits. -/
def exFull : State := { ex with txb := indices 0xFF#8 0x00#8 }

/-- `n` zero bytes. -/
def zeros (n : Nat) : List Byte := List.replicate n 0x00#8

@[simp] theorem zeros_length (n : Nat) : (zeros n).length = n := List.length_replicate

def nextOf : Host.Outcome State Fault Refusal → Option State
  | .next s => some s
  | .fault _ => none
  | .refused _ => none

/-- The bytes queued outbound. -/
def reply (s : State) : List (Option Byte) := cellsFrom .txb s s.txb.tail (rbCount .txb s).toNat

/-- The bytes queued outbound after an instruction. -/
def replyOf (i : Instr) (s : State) : Option (List (Option Byte)) := (nextOf (exec i s)).map reply

/-- What an instruction returned. -/
def retOf (i : Instr) (s : State) : Option Ret := (nextOf (exec i s)).map (·.ret)

/-- The fault latch after an instruction. -/
def faultOf (i : Instr) (s : State) : Option (Option ModelFault) := (nextOf (exec i s)).map (·.fault)

def instrOf : Except DecodeError (Instr × List Byte) → Option (Instr × List Byte)
  | .ok r => some r
  | .error _ => none

def errorOf : Except DecodeError (Instr × List Byte) → Option DecodeError
  | .ok _ => none
  | .error e => some e

/-! Decoding: one word of every wire form, written out from R81 and R82. -/

theorem test_decode_badMarker :
    instrOf (decodeInbound exView [0x55#8, 0x00#8, 0x00#8]) = some (.badMarker 0x55#8 0x00#8 0x00#8, []) := by decide
theorem test_decode_badBoth :
    instrOf (decodeInbound exView [0x55#8, 0x01#8, 0x09#8]) = some (.badMarker 0x55#8 0x01#8 0x09#8, []) := by decide
theorem test_decode_badStatus :
    instrOf (decodeInbound exView [0x7E#8, 0x01#8, 0x00#8]) = some (.badStatus 0x7E#8 0x01#8 0x00#8, []) := by decide
theorem test_decode_reqAck :
    instrOf (decodeInbound exView [0x7E#8, 0x00#8, 0x00#8, 0x11#8]) = some (.reqAck 0x7E#8, [0x11#8]) := by decide
theorem test_decode_badFunc :
    instrOf (decodeInbound exView [0x7E#8, 0x00#8, 0x03#8, 0x04#8, 0xAA#8, 0xBB#8]) =
      some (.badFunc 0x7E#8 0x04#8 [0xAA#8, 0xBB#8], []) := by decide
theorem test_decode_badCount :
    instrOf (decodeInbound exView [0x7E#8, 0x00#8, 0x02#8, 0x00#8, 0xAA#8]) =
      some (.badCount 0x7E#8 0x00#8 [0xAA#8], []) := by decide
theorem test_decode_reqCount :
    instrOf (decodeInbound exView [0x7E#8, 0x00#8, 0x01#8, 0x00#8]) = some (.reqCount 0x7E#8, []) := by decide
theorem test_decode_reqNames :
    instrOf (decodeInbound exView [0x7E#8, 0x00#8, 0x03#8, 0x01#8, 0x02#8, 0x03#8]) =
      some (.reqNames 0x7E#8 0x02#8 0x03#8, []) := by decide
theorem test_decode_reqUser :
    instrOf (decodeInbound exView [0x7E#8, 0x00#8, 0x05#8, 0x03#8, 0x11#8, 0x22#8, 0x33#8, 0x44#8, 0x7E#8]) =
      some (.reqUser 0x7E#8 0x03#8 [0x11#8, 0x22#8, 0x33#8, 0x44#8], [0x7E#8]) := by decide
theorem test_decode_rspStatus :
    instrOf (decodeOutbound exView [0x7E#8, 0x05#8, 0x00#8]) = some (.rspStatus 0x7E#8 0x05#8, []) := by decide
theorem test_decode_rspData :
    instrOf (decodeOutbound exView [0x7E#8, 0x00#8, 0x02#8, 0x61#8, 0x62#8, 0x7E#8]) =
      some (.rspData 0x7E#8 0x00#8 [0x61#8, 0x62#8], [0x7E#8]) := by decide
theorem test_decode_truncated :
    errorOf (decodeInbound exView [0x7E#8, 0x00#8, 0x02#8, 0x00#8]) = some .truncatedPayload := by decide
theorem test_decode_short : errorOf (decodeInbound exView [0x7E#8, 0x00#8]) = some .truncatedHeader := by decide
theorem test_decode_builtinWidth :
    errorOf (decodeInbound { exView with required := [1, 2] } [0x7E#8, 0x00#8, 0x02#8, 0x00#8, 0x05#8]) =
      some .builtinWidth := by decide
theorem test_decodeOutbound_marker :
    errorOf (decodeOutbound exView [0x55#8, 0x00#8, 0x00#8]) = some .markerExpected := by decide

/-- The table's numbering: REQ.ACK is 24 bits, its first wire byte the most significant (log 18); MARKER is 0 after
reset. -/
theorem test_tableWord_reqAck : decodeTableWord 24 0 = some (.reqAck 0x00#8) := by decide
theorem test_tableWord_reqCount : decodeTableWord 32 0x00000100 = some (.reqCount 0x00#8) := by decide

/-! Encoding. -/

theorem test_encode_reqCount : encode (.reqCount 0x7E#8) = some [0x7E#8, 0x00#8, 0x01#8, 0x00#8] := by decide
theorem test_encode_reqUser :
    encode (.reqUser 0x7E#8 0x02#8 []) = some [0x7E#8, 0x00#8, 0x01#8, 0x02#8] := by decide
theorem test_encode_rspData :
    encode (.rspData 0x7E#8 0x00#8 [0x04#8]) = some [0x7E#8, 0x00#8, 0x01#8, 0x04#8] := by decide

/-! Well-formedness: an ill-formed term for each check. -/

theorem test_wf_badMarker_marker : WellFormed exView (.badMarker 0x7E#8 0x00#8 0x00#8) = false := by decide
theorem test_wf_badStatus_marker : WellFormed exView (.badStatus 0x55#8 0x01#8 0x00#8) = false := by decide
theorem test_wf_badStatus_status : WellFormed exView (.badStatus 0x7E#8 0x00#8 0x00#8) = false := by decide
theorem test_wf_reqAck_marker : WellFormed exView (.reqAck 0x7F#8) = false := by decide
theorem test_wf_badFunc_marker : WellFormed exView (.badFunc 0x7F#8 0x04#8 []) = false := by decide
theorem test_wf_badFunc_range : WellFormed exView (.badFunc 0x7E#8 0x03#8 []) = false := by decide
theorem test_wf_badFunc_length :
    WellFormed exView (.badFunc 0x7E#8 0x04#8 (zeros 255)) = false := by simp [WellFormed]
theorem test_wf_badCount_marker : WellFormed exView (.badCount 0x7F#8 0x00#8 [0x00#8]) = false := by decide
theorem test_wf_badCount_range : WellFormed exView (.badCount 0x7E#8 0x04#8 [0x00#8]) = false := by decide
theorem test_wf_badCount_count : WellFormed exView (.badCount 0x7E#8 0x00#8 []) = false := by decide
theorem test_wf_badCount_length :
    WellFormed exView (.badCount 0x7E#8 0x00#8 (zeros 255)) = false := by simp [WellFormed]
theorem test_wf_reqCount_marker : WellFormed exView (.reqCount 0x7F#8) = false := by decide
theorem test_wf_reqCount_width : WellFormed { exView with required := [1, 2] } (.reqCount 0x7E#8) = false := by decide
theorem test_wf_reqNames_marker : WellFormed exView (.reqNames 0x7F#8 0x00#8 0x00#8) = false := by decide
theorem test_wf_reqNames_width :
    WellFormed { exView with required := [0, 1] } (.reqNames 0x7E#8 0x00#8 0x00#8) = false := by decide
theorem test_wf_reqUser_marker : WellFormed exView (.reqUser 0x7F#8 0x02#8 []) = false := by decide
theorem test_wf_reqUser_builtin : WellFormed exView (.reqUser 0x7E#8 0x00#8 []) = false := by decide
theorem test_wf_reqUser_count : WellFormed exView (.reqUser 0x7E#8 0x03#8 [0x00#8]) = false := by decide
theorem test_wf_reqUser_length :
    WellFormed { exView with required := [0, 2, 255] } (.reqUser 0x7E#8 0x02#8 (zeros 255)) = false := by
  simp [WellFormed]
theorem test_wf_rspStatus_marker : WellFormed exView (.rspStatus 0x7F#8 0x00#8) = false := by decide
theorem test_wf_rspData_marker : WellFormed exView (.rspData 0x7F#8 0x00#8 [0x00#8]) = false := by decide
theorem test_wf_rspData_empty : WellFormed exView (.rspData 0x7E#8 0x00#8 []) = false := by decide
theorem test_wf_rspData_length :
    WellFormed exView (.rspData 0x7E#8 0x00#8 (zeros 256)) = false := by simp [WellFormed]
theorem test_wf_name_id : WellFormed exView (.name 0x04#8 0x00#8) = false := by decide
theorem test_wf_name_slot : WellFormed exView (.name 0x00#8 0x03#8) = false := by decide
theorem test_wf_requiredBytes_id : WellFormed exView (.requiredBytes 0x04#8) = false := by decide
theorem test_wf_invoke_id : WellFormed exView (.invoke 0x04#8 0x00#8) = false := by decide
theorem test_wf_send_length : WellFormed exView (.send [0x01#8] 0x02#8 0x00#8) = false := by decide
theorem test_wf_wdSetTimeout_width : WellFormed exView (.wdSetTimeout 65536) = false := by decide

/-! Ring primitives (vectors B.1). -/

theorem test_rbCount_wraps :
    retOf (.rbCount .rxb) { ex with rxb := indices 0x02#8 0xFE#8 } = some (.byte 0x04#8) := by decide
theorem test_rbPush_wraps :
    (nextOf (exec (.rbPush .rxb 0x41#8) { ex with rxb := indices 0xFF#8 0xFE#8 })).map (·.rxb) =
      some { data := [(255, 0x41#8)], head := 0x00#8, tail := 0xFE#8 } := by decide
theorem test_rbPop_wraps :
    (nextOf (exec (.rbPop .txb) { ex with txb := { data := [(255, 0x9A#8)], head := 0x01#8, tail := 0xFF#8 } })).map
      (fun s => (s.ret, s.txb)) =
      some (.byte 0x9A#8, { data := [(255, 0x9A#8)], head := 0x01#8, tail := 0x00#8 }) := by decide
theorem test_rbPop_unwritten :
    faultOf (.rbPop .rxb) { ex with rxb := indices 0x10#8 0x10#8 } = some (some (.unwrittenRead .rxb 0x10#8)) := by
  decide
theorem test_rbEmpty : retOf (.rbEmpty .rxb) { ex with rxb := indices 0x80#8 0x80#8 } = some (.flag true) := by decide
theorem test_rbPeek_wraps :
    retOf (.rbPeek .rxb 0x01#8) { ex with rxb := holding 0xFE#8 [0x11#8, 0x22#8, 0x33#8, 0x44#8] } =
      some (.byte 0x44#8) := by decide
theorem test_rbFlush :
    (nextOf (exec (.rbFlush .rxb) { ex with rxb := indices 0x09#8 0x04#8 })).map (·.rxb) =
      some (indices 0x09#8 0x09#8) := by decide

/-! Transport (vectors B.2). -/

theorem test_tryReceive_takes :
    (nextOf (exec .tryReceive { ex with rxr := { valid := true, data := 0x7E#8 } })).map
      (fun s => (s.ret, s.rxr.valid, s.history)) = some (.optByte (some 0x7E#8), false, [.rx 0x7E#8]) := by decide
theorem test_rxService_pushes :
    (nextOf (exec .rxService { ex with rxb := indices 0x02#8 0x00#8, rxr := { valid := true, data := 0x00#8 } })).map
      (·.rxb) = some { data := [(2, 0x00#8)], head := 0x03#8, tail := 0x00#8 } := by decide
theorem test_rxService_overflows :
    (nextOf (exec .rxService { ex with rxb := indices 0x10#8 0x11#8, rxr := { valid := true, data := 0x5A#8 } })).map
      (fun s => (s.fault, s.rxb, s.history)) =
      some (some (.ringOverflow .rxb), indices 0x10#8 0x11#8, [.rx 0x5A#8]) := by decide
theorem test_tryTransmit_sends :
    (nextOf (exec .tryTransmit { ex with txb := holding 0x00#8 [0x7E#8, 0x00#8], txr := { ready := true } })).map
      (fun s => (s.txb.tail, s.history)) = some (0x01#8, [.tx 0x7E#8]) := by decide
theorem test_txService_waits :
    (nextOf (exec .txService { ex with txb := holding 0x00#8 [0x7E#8] })).map (·.txb.tail) = some 0x00#8 := by decide
theorem test_enqueueOutbound : replyOf (.enqueueOutbound 0x7E#8) ex = some [some 0x7E#8] := by decide
theorem test_enqueueOutbound_wrap :
    (nextOf (exec (.enqueueOutbound 0x7E#8)
      { ex with cfg := { exConfig with overflowPolicy := .wrap }, txb := indices 0xFB#8 0xFC#8 })).map
      (fun s => (s.fault, s.txb.head)) = some (none, 0xFC#8) := by decide

/-! Response encoder (vectors B.3). -/

theorem test_send : replyOf (.send [0x04#8] 0x01#8) ex = some [some 0x7E#8, some 0x00#8, some 0x01#8, some 0x04#8] := by
  decide
theorem test_send_prefix :
    replyOf (.send [0xAA#8, 0xBB#8, 0xCC#8] 0x02#8 0x00#8) ex =
      some [some 0x7E#8, some 0x00#8, some 0x02#8, some 0xAA#8, some 0xBB#8] := by decide
theorem test_sendString :
    replyOf (.sendString [0x61#8, 0x62#8, 0x00#8, 0x63#8]) ex =
      some [some 0x7E#8, some 0x00#8, some 0x02#8, some 0x61#8, some 0x62#8] := by decide
theorem test_sendStatus_fits :
    (nextOf (exec (.sendStatus 0x05#8) { ex with txb := indices 0xFC#8 0x00#8 })).map
      (fun s => (s.fault, s.txb.head)) = some (none, 0xFF#8) := by decide
theorem test_sendStatus_overflows :
    (nextOf (exec (.sendStatus 0x05#8) { ex with txb := indices 0xFD#8 0x00#8 })).map
      (fun s => (s.fault, s.txb.head)) = some (some (.ringOverflow .txb), 0xFF#8) := by decide
theorem test_rspStatus : replyOf (.rspStatus 0x7E#8 0x09#8) ex = some [some 0x7E#8, some 0x09#8, some 0x00#8] := by decide
theorem test_rspData :
    replyOf (.rspData 0x7E#8 0x00#8 [0x49#8]) ex = some [some 0x7E#8, some 0x00#8, some 0x01#8, some 0x49#8] := by decide

/-! Framing (vectors B.5). -/

theorem test_headerStep_bothBad :
    (nextOf (exec .headerStep (exRx [0x55#8, 0x01#8, 0x09#8]))).map (fun s => (reply s, s.rxb.tail, s.ps)) =
      some ([some 0x7E#8, some 0x05#8, some 0x00#8, some 0x7E#8, some 0x05#8, some 0x00#8], 0x03#8,
        { stage := .awaitingHeader, wait := 0x03#8 }) := by decide
theorem test_headerStep_payload :
    (nextOf (exec .headerStep (exRx [0x7E#8, 0x00#8, 0x02#8]))).map (fun s => (reply s, s.rxb.tail, s.ps)) =
      some ([], 0x03#8, { stage := .awaitingPayload, wait := 0x02#8 }) := by decide
theorem test_payloadStep_count :
    (nextOf (exec .payloadStep (exPayload 0x01#8 [0x00#8]))).map (fun s => (reply s, s.rxb.tail, s.ps.wait, s.history)) =
      some ([some 0x7E#8, some 0x00#8, some 0x01#8, some 0x04#8], 0x04#8, 0x03#8, [.invoke 0x00#8 0x04#8]) := by decide
theorem test_payloadStep_badCount :
    (nextOf (exec .payloadStep (exPayload 0x02#8 [0x00#8, 0xAA#8]))).map (fun s => (reply s, s.rxb.tail, s.history)) =
      some ([some 0x7E#8, some 0x04#8, some 0x00#8], 0x05#8, []) := by decide
theorem test_parseService_waits :
    (nextOf (exec .parseService (exRx [0x7E#8, 0x00#8]))).map (·.rxb.tail) = some 0x00#8 := by decide
theorem test_parseService_steps :
    (nextOf (exec .parseService (exRx [0x7E#8, 0x00#8, 0x00#8]))).map (fun s => (reply s, s.rxb.tail)) =
      some ([some 0x7E#8, some 0x00#8, some 0x00#8], 0x03#8) := by decide

/-! The frame forms. -/

theorem test_badMarker :
    replyOf (.badMarker 0x55#8 0x00#8 0x00#8) (exRx [0x55#8, 0x00#8, 0x00#8]) =
      some [some 0x7E#8, some 0x05#8, some 0x00#8] := by decide
theorem test_badStatus :
    replyOf (.badStatus 0x7E#8 0x01#8 0x00#8) (exRx [0x7E#8, 0x01#8, 0x00#8]) =
      some [some 0x7E#8, some 0x05#8, some 0x00#8] := by decide
theorem test_reqAck :
    (nextOf (exec (.reqAck 0x7E#8) (exRx [0x7E#8, 0x00#8, 0x00#8, 0x7E#8]))).map (fun s => (reply s, s.rxb.tail)) =
      some ([some 0x7E#8, some 0x00#8, some 0x00#8], 0x03#8) := by decide
theorem test_badFunc :
    replyOf (.badFunc 0x7E#8 0x04#8 []) (exPayload 0x01#8 [0x04#8]) =
      some [some 0x7E#8, some 0x03#8, some 0x00#8] := by decide
theorem test_badCount :
    replyOf (.badCount 0x7E#8 0x01#8 []) (exPayload 0x01#8 [0x01#8]) =
      some [some 0x7E#8, some 0x04#8, some 0x00#8] := by decide
theorem test_reqCount :
    replyOf (.reqCount 0x7E#8) (exPayload 0x01#8 [0x00#8]) =
      some [some 0x7E#8, some 0x00#8, some 0x01#8, some 0x04#8] := by decide
/-- T-C6. -/
theorem test_reqNames :
    replyOf (.reqNames 0x7E#8 0x03#8 0x00#8) (exPayload 0x03#8 [0x01#8, 0x03#8, 0x00#8]) =
      some [some 0x7E#8, some 0x00#8, some 0x05#8, some 0x65#8, some 0x63#8, some 0x68#8, some 0x6F#8, some 0x34#8] := by
  decide
/-- T-C13 (V2). -/
theorem test_reqNames_slot :
    replyOf (.reqNames 0x7E#8 0x02#8 0x03#8) (exPayload 0x03#8 [0x01#8, 0x02#8, 0x03#8]) =
      some [some 0x7E#8, some 0x07#8, some 0x00#8] := by decide
/-- EX's heartbeat handler as an answer fixed from outside (T-F16, R204). -/
def exBeat : State :=
  { exPayload 0x01#8 [0x02#8] with
    wd := { elapsed := 4, timeout := 3 }
    env := { ex.env with answers := [.reply [] 0x00#8 [] .heartbeat] } }
theorem test_reqUser_heartbeat :
    (nextOf (exec (.reqUser 0x7E#8 0x02#8 []) exBeat)).map (fun s => (reply s, s.wd.elapsed, s.history)) =
      some ([some 0x7E#8, some 0x00#8, some 0x00#8], 0, [.invoke 0x02#8 0x04#8, .heartbeat]) := by decide

/-- EX's echo4 handler (id 3) at its frame, with the argument bytes `args` buffered behind the function id at index 3: it
reads its first and last argument and returns the last. -/
def exEcho (args : List Byte) : State :=
  { exPayload 0x05#8 (0x03#8 :: args) with
    env := { ex.env with answers := [.reply [0x00#8, 0x03#8] 0x00#8 [0x44#8] .keep] } }
/-- The same with two of the four argument bytes written, a handler that reads its first argument and then `more`. -/
def exPeek (more : List Byte) : State :=
  { exPayload 0x05#8 [0x03#8, 0x11#8, 0x22#8] with
    env := { ex.env with answers := [.reply (0x00#8 :: more) 0x00#8 [] .keep] } }
theorem test_reqUser_reads :
    replyOf (.reqUser 0x7E#8 0x03#8 [0x11#8, 0x22#8, 0x33#8, 0x44#8]) (exEcho [0x11#8, 0x22#8, 0x33#8, 0x44#8]) =
      some [some 0x7E#8, some 0x00#8, some 0x01#8, some 0x44#8] := by decide

/-! Command table (vectors B.4). -/

theorem test_tableBuild :
    (nextOf (exec .tableBuild { ex with table := { entries := [] } })).map (fun s => s.table.entries.map (·.required)) =
      some [0, 2, 0, 4] := by decide
/-- T-C2 and T-C4: unrecognised characters count 0, and the sum is not truncated. -/
theorem test_formatBytes :
    formatBytes exConfig [0x42#8, 0x78#8, 0x48#8, 0x3F#8] = 3 ∧
      formatBytes exConfig (List.replicate 32 0x51#8) = 256 := by decide
theorem test_tableBuild_malformed :
    faultOf .tableBuild { ex with cfg := { exConfig with commands := [] } } = some (some .tableMalformed) := by decide
theorem test_name : retOf (.name 0x03#8 0x01#8) ex = some (.bytes [0x49#8]) := by decide
theorem test_name_return : retOf (.name 0x01#8 0x02#8) ex = some (.bytes [0x73#8]) := by decide
theorem test_requiredBytes : retOf (.requiredBytes 0x01#8) ex = some (.nat 2) := by decide
theorem test_count : retOf .count ex = some (.nat 4) := by decide
/-- The built-ins; the window of the second straddles the end of the array (R59). -/
theorem test_invoke_builtins :
    replyOf (.invoke 0x00#8 0x04#8) ex = some [some 0x7E#8, some 0x00#8, some 0x01#8, some 0x04#8] ∧
      replyOf (.invoke 0x01#8 0xFF#8) { ex with rxb := holding 0xFF#8 [0x02#8, 0x00#8] } =
        some [some 0x7E#8, some 0x00#8, some 0x04#8, some 0x62#8, some 0x65#8, some 0x61#8, some 0x74#8] := by decide
/-- A user handler: a peek of an unwritten cell of its window (R57), a peek of the function id, which is outside it (R59),
and the offset, which its oracle is given also where the window is empty (R224). -/
theorem test_invoke_user (offset : Byte) :
    (faultOf (.invoke 0x03#8 0x04#8) (exPeek [0x02#8]) = some (some (.unwrittenRead .rxb 0x06#8)) ∧
        replyOf (.invoke 0x03#8 0x04#8) (exPeek [0x02#8]) = some []) ∧
      faultOf (.invoke 0x03#8 0x04#8) (exPeek [0xFF#8]) = some (some .handlerContract) ∧
      exec (.invoke 0x02#8 offset) ex = done (userHandler 0x02#8 offset [] ex) ∧
      (drawAnswer 0x02#8 offset [] ex).1 = Config.freeAnswer 0 0x02#8 offset [] :=
  ⟨by decide, by decide, rfl, rfl⟩

/-! Watchdog (vectors B.6). -/

def exWd (timeout elapsed : Nat) : State := { ex with wd := { elapsed := elapsed, timeout := timeout } }

theorem test_wdCheck_strict : (nextOf (exec .wdCheck (exWd 3 3))).map (·.history) = some [] := by decide
theorem test_wdCheck_fires :
    (nextOf (exec .wdCheck { exWd 3 4 with cfg := { exConfig with stopReturns := .never } })).map
      (fun s => (s.history, s.halted, s.wd.elapsed)) = some ([.stop], true, 4) := by decide
theorem test_wdTick_wraps : (nextOf (exec .wdTick (exWd 3 65535))).map (·.wd.elapsed) = some 0 := by decide
theorem test_wdHeartbeat :
    (nextOf (exec .wdHeartbeat (exWd 3 9))).map (fun s => (s.wd.elapsed, s.history)) = some (0, [.heartbeat]) := by decide
theorem test_stop_draws :
    (nextOf (exec .stop { ex with env := { ex.env with bools := [true] } })).map (·.halted) = some false := by decide
theorem test_wdSetTimeout :
    (nextOf (exec (.wdSetTimeout 2) (exWd 0 5))).map (·.wd) = some { elapsed := 5, timeout := 2 } := by decide

/-! Poll loop, environment, step (vectors B.7). -/

theorem test_coreStep_phase : (nextOf (exec .coreStep { ex with phase := .d })).map (·.phase) = some .a := by decide
theorem test_coreStep_raises :
    (nextOf (exec .coreStep { exRx [0x55#8, 0x00#8, 0x00#8] with phase := .c, txb := indices 0xFF#8 0x00#8 })).map
      (fun s => (s.phase, s.fault)) = some (.c, some (.ringOverflow .txb)) := by decide
theorem test_envRxArrive :
    (nextOf (exec (.envRxArrive 0x7E#8) ex)).map (·.rxr) = some { valid := true, data := 0x7E#8 } := by decide
theorem test_envTxReady : (nextOf (exec (.envTxReady true) ex)).map (·.txr.ready) = some true := by decide
theorem test_step_runs_placed_frame :
    (nextOf (step (State.reset.withFetchWord 32 0x00000100))).map (fun s => (reply s, s.phase)) =
      some ([some 0x00#8, some 0x00#8, some 0x01#8, some 0x02#8], .d) := by decide
/-- P2, iteration 6, phase (c): the step runs the decoded frame. -/
theorem test_step_runs_names :
    (nextOf (step { exPayload 0x03#8 [0x01#8, 0x02#8, 0x03#8] with
      phase := .c, env := { ex.env with moves := [.core] } })).map (fun s => (reply s, s.rxb.tail, s.phase)) =
      some ([some 0x7E#8, some 0x07#8, some 0x00#8], 0x06#8, .d) := by decide

/-! Witnesses: for every statement with hypotheses, a state and operands that meet all of them, clause by clause, at the
boundary values of their ranges. -/

theorem witness_RingReadsReturnValues :
    Memory.read (ringOf (exRx [0x7E#8]) .rxb).data (0x00#8 : Byte).toNat = some 0x7E#8 ∧
      Memory.read (ringOf (exRx [0x7E#8]) .rxb).data (0xFF#8 : Byte).toNat = none ∧ (exRx [0x7E#8]).fault = none := by
  decide

theorem witness_PopReadsAtTailOrRaises :
    Memory.read (ringOf (exRx [0x7E#8]) .rxb).data (ringOf (exRx [0x7E#8]) .rxb).tail.toNat = some 0x7E#8 ∧
      Memory.read (ringOf ex .txb).data (ringOf ex .txb).tail.toNat = none ∧ ex.fault = none := by decide

theorem witness_FlushEmptiesTheRing : (exRx [0x7E#8]).ps.wait ≠ 0x00#8 := by decide

theorem witness_PushedBytesComeBackInOrder : rbEmpty .txb ex = true ∧ (zeros 256).length ≤ 256 :=
  ⟨by decide, by simp⟩

theorem witness_FullRingReadsEmptyThenLosesTheOldest : rbEmpty .rxb ex = true ∧ (zeros 256).length = 256 :=
  ⟨by decide, by simp⟩

theorem witness_CountFollowsPushesAndPops :
    ∃ t, popMany .txb 1 (pushAll .txb [0x11#8, 0x22#8] ex) = .ok [0x11#8] t := ⟨_, rfl⟩

/-- A byte waits in RXR. -/
def exArrived : State := { ex with rxr := { valid := true, data := 0x5A#8 } }

theorem witness_TryReceiveTakesTheByte : exArrived.rxr.valid = true ∧ ex.rxr.valid = false := by decide

theorem witness_RxServiceMovesOneByte :
    ex.rxr.valid = false ∧
      (exArrived.rxr.valid = true ∧ (rbCount .rxb { exArrived with rxb := indices 0xFE#8 0x00#8 }).toNat < 255) ∧
      (exArrived.rxr.valid = true ∧ exArrived.cfg.overflowPolicy = .fault ∧
        (rbCount .rxb { exArrived with rxb := indices 0xFF#8 0x00#8 }).toNat = 255 ∧ exArrived.fault = none) := by decide

theorem witness_TransmitMovesOneByteIfReady :
    rbEmpty .txb ex = true ∧
      (rbEmpty .txb { ex with txb := holding 0xFF#8 [0x7E#8], txr := { ready := true } } = false ∧
        Memory.read (holding 0xFF#8 [0x7E#8]).data (holding 0xFF#8 [0x7E#8]).tail.toNat = some 0x7E#8) ∧
      (rbEmpty .txb exFull = false ∧ Memory.read exFull.txb.data exFull.txb.tail.toNat = none ∧ exFull.fault = none) := by
  decide

theorem witness_EnqueueAppendsOrOverflows :
    Room 1 { ex with txb := indices 0xFE#8 0x00#8 } ∧
      (exFull.cfg.overflowPolicy = .fault ∧ (rbCount .txb exFull).toNat = 255 ∧ exFull.fault = none) :=
  ⟨.inr (by decide), by decide⟩

/-- T-E5 and T-E6: from an empty ring 252 payload bytes fit and 253 do not. -/
theorem witness_SendEnqueuesOneFrame :
    ((252#8).toNat ≤ (zeros 252).length ∧ Room (3 + (252#8).toNat) ex) ∧
      ((253#8).toNat ≤ (zeros 253).length ∧ ex.fault = none ∧ ex.cfg.overflowPolicy = .fault ∧
        255 < (rbCount .txb ex).toNat + 3 + (253#8).toNat) :=
  ⟨⟨by simp, .inr (by decide)⟩, by simp, by decide, by decide, by decide⟩

/-- T-E7 and T-E7b. -/
theorem witness_StatusFramesAreThreeBytes :
    Room 3 { ex with txb := indices 0xFC#8 0x00#8 } ∧
      (ex.fault = none ∧ ex.cfg.overflowPolicy = .fault ∧
        252 < (rbCount .txb { ex with txb := indices 0xFD#8 0x00#8 }).toNat) :=
  ⟨.inr (by decide), by decide⟩

theorem witness_DataFramesCarryTheirLength :
    ((zeros 252).length ≤ 255 ∧ Room (3 + (zeros 252).length) ex) ∧
      ((zeros 255).length ≤ 255 ∧ Room (3 + (zeros 255).length)
        { ex with cfg := { exConfig with overflowPolicy := .wrap } }) :=
  ⟨⟨by simp, .inr (by simp only [zeros_length]; decide)⟩, by simp, .inl rfl⟩

theorem witness_SendStringStopsAtTheZero :
    ((∀ v ∈ [0x61#8, 0x62#8], v ≠ 0x00#8) ∧ ([0x00#8] : List Byte).head? = some 0x00#8 ∧
        [0x61#8, 0x62#8].length ≤ 255 ∧ Room (3 + [0x61#8, 0x62#8].length) ex) ∧
      ((∀ v ∈ List.replicate 256 0x61#8, v ≠ 0x00#8) ∧ 255 < (List.replicate 256 0x61#8).length ∧ ex.fault = none) :=
  ⟨⟨by decide, by decide, by decide, .inr (by decide)⟩,
    fun v hv => by simp [List.eq_of_mem_replicate hv], by rw [List.length_replicate]; decide, by decide⟩

theorem witness_OperandsOutOfRangeAreRefused :
    tableCount ex.table ≤ (0x04#8 : Byte).toNat ∧ 2 < (0x03#8 : Byte).toNat ∧
      ([] : List Byte).length < (0x01#8 : Byte).toNat := by decide

/-- One state whose replies fit and one whose second reply does not. -/
theorem witness_BadHeaderIsRejected :
    ((0x55#8 : Byte) ≠ ex.cfg.marker ∨ (0x01#8 : Byte) ≠ 0x00#8) ∧ ex.cfg.hdrRecheck = .latched ∧
      cellsFrom .rxb (exRx [0x55#8, 0x01#8, 0x09#8]) (exRx [0x55#8, 0x01#8, 0x09#8]).rxb.tail 3 =
        [some 0x55#8, some 0x01#8, some 0x09#8] ∧
      Room 6 { exRx [0x55#8, 0x01#8, 0x09#8] with txb := indices 0xF9#8 0x00#8 } ∧
      ex.fault = none ∧ ex.cfg.overflowPolicy = .fault ∧
      255 < (rbCount .txb { exRx [0x55#8, 0x01#8, 0x09#8] with txb := indices 0xFA#8 0x00#8 }).toNat + 6 :=
  ⟨by decide, by decide, by decide, .inr (by decide), by decide⟩

/-- EX under HDR_RECHECK = draw, a bad header buffered, the outbound count at `c`. -/
def exDraw (c : Byte) : State :=
  { exRx [0x55#8, 0x00#8, 0x09#8] with cfg := { exConfig with hdrRecheck := .draw }, txb := indices c 0x00#8 }

/-- At counts 249, 253, 250 and 252: the clauses meet at 249 and 252. -/
theorem witness_BadMarkerUnderDraw :
    (0x55#8 : Byte) ≠ (exDraw 0x00#8).cfg.marker ∧ (exDraw 0x00#8).cfg.hdrRecheck = .draw ∧
      cellsFrom .rxb (exDraw 0x00#8) (exDraw 0x00#8).rxb.tail 3 = [some 0x55#8, some 0x00#8, some 0x09#8] ∧
      Room 6 (exDraw 0xF9#8) ∧ (exDraw 0x00#8).fault = none ∧ (exDraw 0x00#8).cfg.overflowPolicy = .fault ∧
      252 < (rbCount .txb (exDraw 0xFD#8)).toNat ∧ 249 < (rbCount .txb (exDraw 0xFA#8)).toNat ∧
      (rbCount .txb (exDraw 0xFC#8)).toNat ≤ 252 ∧ ex.env.bools = [] ∧ { ex.env with bools := [true] }.bools = [true] :=
  ⟨by decide, by decide, by decide, .inr (by decide), by decide⟩

theorem witness_AckRequestIsAnswered :
    cellsFrom .rxb (exRx [0x7E#8, 0x00#8, 0x00#8]) (exRx [0x7E#8, 0x00#8, 0x00#8]).rxb.tail 3 =
        [some (exRx [0x7E#8, 0x00#8, 0x00#8]).cfg.marker, some 0x00#8, some 0x00#8] ∧
      Room 3 { exRx [0x7E#8, 0x00#8, 0x00#8] with txb := indices 0xFC#8 0x00#8 } ∧
      ex.fault = none ∧ ex.cfg.overflowPolicy = .fault ∧
      252 < (rbCount .txb { exRx [0x7E#8, 0x00#8, 0x00#8] with txb := indices 0xFD#8 0x00#8 }).toNat :=
  ⟨by decide, .inr (by decide), by decide⟩

theorem witness_GoodHeaderWaitsForItsPayload :
    (0xFF#8 : Byte) ≠ 0x00#8 ∧
      cellsFrom .rxb (exRx [0x7E#8, 0x00#8, 0xFF#8]) (exRx [0x7E#8, 0x00#8, 0xFF#8]).rxb.tail 3 =
        [some (exRx [0x7E#8, 0x00#8, 0xFF#8]).cfg.marker, some 0x00#8, some 0xFF#8] := by decide

theorem witness_PayloadStepChecksThenDispatches :
    (Memory.read (exPayload 0x01#8 [0x04#8]).rxb.data (exPayload 0x01#8 [0x04#8]).rxb.tail.toNat = some 0x04#8 ∧
        (exPayload 0x01#8 [0x04#8]).fault = none ∧ ex.table.entries[(0x04#8 : Byte).toNat]? = none) ∧
      (∃ e, ex.table.entries[(0x01#8 : Byte).toNat]? = some e ∧ (exPayload 0x01#8 [0x01#8]).ps.wait.toNat ≠ 1 + e.required) ∧
      ∃ e, ex.table.entries[(0x00#8 : Byte).toNat]? = some e ∧ (exPayload 0x01#8 [0x00#8]).ps.wait.toNat = 1 + e.required :=
  ⟨by decide, ⟨_, rfl, by decide⟩, ⟨_, rfl, by decide⟩⟩

theorem witness_RejectedFramesGetOneReply : Room 3 { ex with txb := indices 0xFC#8 0x00#8 } := .inr (by decide)

/-- T-F15. -/
theorem witness_ParseServiceObeysTheGate :
    (rbCount .rxb (exRx [0x7E#8, 0x00#8])).toNat < (exRx [0x7E#8, 0x00#8]).ps.wait.toNat ∧
      (exRx [0x7E#8, 0x00#8, 0x00#8]).ps.wait.toNat ≤ (rbCount .rxb (exRx [0x7E#8, 0x00#8, 0x00#8])).toNat ∧
      (exRx [0x7E#8, 0x00#8, 0x00#8]).ps.stage = .awaitingHeader ∧
      (exPayload 0x01#8 [0x00#8]).ps.wait.toNat ≤ (rbCount .rxb (exPayload 0x01#8 [0x00#8])).toNat ∧
      (exPayload 0x01#8 [0x00#8]).ps.stage = .awaitingPayload := by decide

/-- A table of `n` commands, all alike. -/
def commandsOf (n : Nat) : List Command := List.replicate n { name := [], paramFormat := [], returnFormat := [] }

theorem witness_TableBuildSumsTheFormats :
    (2 ≤ (commandsOf 2).length ∧ 2 ≤ (commandsOf 255).length ∧ (commandsOf 255).length ≤ 255) ∧
      (commandsOf 1).length < 2 ∧ 255 < (commandsOf 256).length ∧ ex.fault = none := by
  simp only [commandsOf, List.length_replicate]
  decide

theorem witness_RequiredBytesAndCountReadTheRom : ∃ e, ex.table.entries[(0x03#8 : Byte).toNat]? = some e := ⟨_, rfl⟩

theorem witness_NameReturnsTheSlot :
    ∃ e, ex.table.entries[(0x03#8 : Byte).toNat]? = some e ∧
      [e.name, e.paramFormat, e.returnFormat][(0x02#8 : Byte).toNat]? = some [0x49#8] := ⟨_, rfl, rfl⟩

theorem witness_InvokeCommandCount :
    ∃ e, ex.table.entries[(0x00#8 : Byte).toNat]? = some e ∧ e.handler = .commandCount ∧
      Room 4 { ex with txb := indices 0xFB#8 0x00#8 } := ⟨_, rfl, rfl, .inr (by decide)⟩

theorem witness_CountRequestIsAnswered :
    Room 4 { ex with txb := indices 0xFB#8 0x00#8 } ∧
      (ex.fault = none ∧ ex.cfg.overflowPolicy = .fault ∧
        251 < (rbCount .txb { ex with txb := indices 0xFC#8 0x00#8 }).toNat) := ⟨.inr (by decide), by decide⟩

theorem witness_NamesRequestSendsTheString :
    ∃ e str h, ex.table.entries[(0x03#8 : Byte).toNat]? = some e ∧
      [e.name, e.paramFormat, e.returnFormat][(0x00#8 : Byte).toNat]? = some str ∧ (∀ v ∈ str, v ≠ 0x00#8) ∧
      str.length ≤ 255 ∧ Room (3 + str.length) (exRx [0x03#8, 0x00#8]) ∧
      ex.table.entries[(0x01#8 : Byte).toNat]? = some h ∧ h.handler = .commandNames ∧
      cellsFrom .rxb (exRx [0x03#8, 0x00#8]) 0x00#8 2 = [some 0x03#8, some 0x00#8] :=
  ⟨_, _, _, rfl, rfl, by decide, by decide, .inr (by decide), rfl, rfl, by decide⟩

/-- T-C11, T-C13 and T-C15, the last with a draw fixed from outside and with none. -/
theorem witness_NamesRequestReportsItsError :
    Room 3 ex ∧ (tableCount ex.table ≤ (0x04#8 : Byte).toNat ∧ (0x02#8 : Byte).toNat ≤ 2) ∧
      (2 < (0x03#8 : Byte).toNat ∧ (0x03#8 : Byte).toNat < tableCount ex.table) ∧
      (tableCount ex.table ≤ (0x04#8 : Byte).toNat ∧ 2 < (0x03#8 : Byte).toNat) ∧
      ex.env.bools = [] ∧ { ex.env with bools := [false] }.bools = [false] :=
  ⟨.inr (by decide), by decide, by decide, by decide, by decide, by decide⟩

theorem witness_UserRequestSendsTheAnswer :
    ∃ s1, drawAnswer 0x03#8 ((exEcho [0x11#8, 0x22#8, 0x33#8, 0x44#8]).rxb.tail + 1)
        ([0x11#8, 0x22#8, 0x33#8, 0x44#8].map some) (exEcho [0x11#8, 0x22#8, 0x33#8, 0x44#8]) =
          (.reply [0x00#8, 0x03#8] 0x00#8 [0x44#8] .keep, s1) ∧
      (∀ k ∈ [0x00#8, (0x03#8 : Byte)], k.toNat < [0x11#8, 0x22#8, 0x33#8, (0x44#8 : Byte)].length) ∧
      Room (3 + [(0x44#8 : Byte)].length) (exEcho [0x11#8, 0x22#8, 0x33#8, 0x44#8]) :=
  ⟨_, rfl, by decide, .inr (by decide)⟩

theorem witness_InvokeUserHandler :
    ∃ s1 e, ex.table.entries[(0x03#8 : Byte).toNat]? = some e ∧ e.handler = .user ∧
      drawAnswer 0x03#8 0x04#8 (cellsFrom .rxb (exEcho [0x11#8, 0x22#8, 0x33#8, 0x44#8]) 0x04#8 e.required)
        (exEcho [0x11#8, 0x22#8, 0x33#8, 0x44#8]) = (.reply [0x00#8, 0x03#8] 0x00#8 [0x44#8] .keep, s1) ∧
      (∀ k ∈ [0x00#8, (0x03#8 : Byte)], k.toNat < e.required ∧
        ∃ v, Memory.read (exEcho [0x11#8, 0x22#8, 0x33#8, 0x44#8]).rxb.data (0x04#8 + k).toNat = some v) ∧
      Room (3 + [(0x44#8 : Byte)].length) (exEcho [0x11#8, 0x22#8, 0x33#8, 0x44#8]) := by
  refine ⟨_, _, rfl, rfl, rfl, ?_, .inr (by decide)⟩
  intro k hk
  simp only [List.mem_cons, List.not_mem_nil, or_false] at hk
  rcases hk with rfl | rfl
  · exact ⟨by decide, 0x11#8, by decide⟩
  · exact ⟨by decide, 0x44#8, by decide⟩

/-- A breach, and a payload of 256 bytes. -/
theorem witness_HandlerBreachRaises :
    ex.fault = none ∧
      (∃ s1, drawAnswer 0x02#8 (ex.rxb.tail + 1) ([].map some) { ex with env := { ex.env with answers := [.breach] } } =
        (.breach, s1)) ∧
      (∃ s1, drawAnswer 0x02#8 (ex.rxb.tail + 1) ([].map some)
        { ex with env := { ex.env with answers := [.reply [] 0x00#8 (zeros 256) .keep] } } =
          (.reply [] 0x00#8 (zeros 256) .keep, s1)) ∧ 255 < (zeros 256).length :=
  ⟨by decide, ⟨_, rfl⟩, ⟨_, rfl⟩, by simp⟩

/-- The window of echo4 at offset 4 has two written cells: position 2 is unwritten inside it, position 8 outside it; the
function id at position 255 is written outside it. -/
theorem witness_HandlerPeeksItsWindow :
    ∃ e, ex.table.entries[(0x03#8 : Byte).toNat]? = some e ∧ e.handler = .user ∧
      (exPeek [0x02#8]).fault = none ∧
      (∀ k, ∃ s1, drawAnswer 0x03#8 0x04#8 (cellsFrom .rxb (exPeek [k]) 0x04#8 e.required) (exPeek [k]) =
        (.reply ([0x00#8] ++ k :: []) 0x00#8 [] .keep, s1)) ∧
      ((0x00#8 : Byte).toNat < e.required ∧
        Memory.read (exPeek [0x02#8]).rxb.data (0x04#8 + 0x00#8 : Byte).toNat = some 0x11#8) ∧
      Memory.read (exPeek [0x02#8]).rxb.data (0x04#8 + 0x02#8 : Byte).toNat = none ∧
      Memory.read (exPeek [0x08#8]).rxb.data (0x04#8 + 0x08#8 : Byte).toNat = none ∧
      e.required ≤ (0xFF#8 : Byte).toNat ∧
      Memory.read (exPeek [0xFF#8]).rxb.data (0x04#8 + 0xFF#8 : Byte).toNat = some 0x03#8 :=
  ⟨_, rfl, rfl, rfl, fun _ => ⟨_, rfl⟩, by decide, by decide, by decide, by decide, by decide⟩

/-- T-W1, T-W2 and T-W3. -/
theorem witness_CheckCallsStopWhenExpired :
    ((exWd 3 4).wd.timeout ≠ 0 ∧ (exWd 3 4).wd.timeout < (exWd 3 4).wd.elapsed) ∧
      (exWd 0 65535).wd.timeout = 0 ∧ (exWd 3 3).wd.elapsed ≤ (exWd 3 3).wd.timeout := by decide

theorem witness_StopReturnsOrHalts :
    { exConfig with stopReturns := .always }.stopReturns = .always ∧
      { exConfig with stopReturns := .never }.stopReturns = .never ∧
      exConfig.stopReturns = .any ∧ ex.env.bools = [] ∧ { ex.env with bools := [false] }.bools = [false] := by decide

theorem witness_WatchdogWrites : 65535 < 2 ^ ex.cfg.tickBits := by decide

/-- EX in phase (c) with timeout 3, ticks and other moves to come. -/
def exTicking : State :=
  { exWd 3 0 with
    phase := .c
    env := { ex.env with moves := [.tick, .tick, .txReady true, .tick, .core, .arrive, .tick], line := [0x7E#8] } }

/-- T-W10; and a run in which the core moves from phase (c) to phase (d) and a byte arrives between four ticks. -/
theorem witness_TicksPastTheDeadlineCallStop :
    ((exWd 3 0).wd.timeout ≠ 0 ∧ (exWd 3 0).wd.elapsed = 0 ∧ (exWd 3 0).wd.timeout < 4 ∧
        4 < 2 ^ (exWd 3 0).cfg.tickBits) ∧
      ∃ t, exTicking.wd.elapsed = 0 ∧ steps 7 exTicking = .next t ∧
        t.history = exTicking.history ++ [.tick, .tick, .tick, .tick] ∧
        Event.heartbeat ∉ [Event.tick, .tick, .tick, .tick] ∧
        [Event.tick, .tick, .tick, .tick].count .tick < 2 ^ exTicking.cfg.tickBits ∧
        t.wd.timeout ≠ 0 ∧ t.wd.timeout < [Event.tick, .tick, .tick, .tick].count .tick ∧
        (t.halted = false ∧ t.fault = none) ∧ t.phase = .d :=
  ⟨by decide, _, rfl, rfl, rfl, by decide, by decide, by decide, by decide, ⟨rfl, rfl⟩, rfl⟩

/-- T-W8: the deadline had passed. -/
theorem witness_HeartbeatPreventsStop :
    ∃ s1 t, drawAnswer 0x02#8 (exBeat.rxb.tail + 1) ([].map some) exBeat = (.reply [] 0x00#8 [] .heartbeat, s1) ∧
      exec (.reqUser 0x7E#8 0x02#8 []) exBeat = .next t := ⟨_, _, rfl, rfl⟩

theorem witness_CoreStepRunsOnePhase : Running ex := by
  unfold Running
  decide

theorem witness_StoppedCoreHasNoStep :
    { ex with halted := true }.halted = true ∧
      { ex with fault := some ModelFault.handlerContract }.fault = some .handlerContract ∧ ex.halted = false := by decide

theorem witness_EnvironmentSteps :
    ex.rxr.valid = false ∧ ex.env.line = [] ∧ { ex.env with line := [0x7E#8] }.line = [0x7E#8] ∧
      (0x55#8 : Byte) ≠ 0x7E#8 ∧ exArrived.rxr.valid = true := by decide

/-- One state per clause: the next move, and what it needs. -/
theorem witness_StepIsOneMove :
    { ex.env with moves := [.core, .tick] }.moves = [.core, .tick] ∧ ex.phase ≠ .c ∧ exArrived.rxr.valid = true ∧
      ex.rxr.valid = false ∧ { ex.env with line := [0x7E#8] }.line = [0x7E#8] := by decide

/-- P1, iteration 4, before phase (c). -/
def exBeforeParse : State :=
  { exPayload 0x01#8 [0x00#8] with phase := .c, env := { ex.env with moves := [.core] } }

theorem witness_StepRunsTheDecodedFrame :
    exBeforeParse.env.moves = [.core] ∧ Running exBeforeParse ∧ exBeforeParse.phase = .c ∧
      exBeforeParse.ps.wait.toNat ≤ (rbCount .rxb exBeforeParse).toNat ∧
      ∃ bs, frameBytes exBeforeParse = some bs ∧
        decodeInbound (tableView exBeforeParse.cfg exBeforeParse.table) bs = .ok (.reqCount 0x7E#8, []) :=
  ⟨by decide, by unfold Running; decide, by decide, by decide, _, rfl, rfl⟩

theorem exConfig_ok : ConfigOk exConfig := by
  unfold ConfigOk
  decide

theorem witness_DecodedStepIsThePollLoop : TableOk exBeforeParse := ⟨exConfig_ok, rfl⟩

/-- T-F5: a partial frame is quiescent. -/
theorem witness_QuiescentStatesStayQuiet :
    Quiescent { ex with ps := { stage := .awaitingPayload, wait := 0x02#8 } } ∧ ex.halted = false ∧
      ex.wd.elapsed ≤ ex.wd.timeout := by
  refine ⟨?_, by decide, by decide⟩
  unfold Quiescent
  decide

/-- The longest inbound frame, 258 bytes, and the shortest. -/
theorem witness_InboundFramesRoundTrip :
    (WellFormed exView (.badFunc 0x7E#8 0x04#8 (zeros 254)) = true ∧
        ∃ bs, encode (.badFunc 0x7E#8 0x04#8 (zeros 254)) = some bs) ∧
      WellFormed exView (.reqAck 0x7E#8) = true ∧ ∃ bs, encode (.reqAck 0x7E#8) = some bs :=
  ⟨⟨by simp [WellFormed, View.nfunc]; decide, _, rfl⟩, by decide, _, rfl⟩

theorem witness_OutboundFramesRoundTrip :
    (WellFormed exView (.rspData 0x7E#8 0x00#8 (zeros 255)) = true ∧
        ∃ bs, encode (.rspData 0x7E#8 0x00#8 (zeros 255)) = some bs) ∧
      WellFormed exView (.rspStatus 0x7E#8 0x05#8) = true ∧ ∃ bs, encode (.rspStatus 0x7E#8 0x05#8) = some bs :=
  ⟨⟨by simp [WellFormed, exView, tableView]; decide, _, rfl⟩, by decide, _, rfl⟩

theorem witness_DecodedFramesAreWellFormed :
    decodeInbound exView [0x7E#8, 0x00#8, 0x01#8, 0x00#8] = .ok (.reqCount 0x7E#8, []) := rfl

theorem witness_ResetLeavesTheStatedValues : ConfigOk exConfig := exConfig_ok

/-- EX before a payload step for the one-byte payload `f` is sound, whatever lies outside the block. -/
theorem payload_sound (f : Byte) (e : Env) : Sound { exPayload 0x01#8 [f] with phase := .c, env := e } := by
  refine ⟨⟨exConfig_ok, rfl⟩, ?_, ?_, ?_, ?_⟩
  · show (0x01#8 : Byte) ≠ 0x00#8
    decide
  · show ((0x04#8 : Byte) - 0x03#8).toNat ≤ (0x01#8 : Byte).toNat
    decide
  · intro k hk
    have h : k < ((0x04#8 : Byte) - 0x03#8).toNat := hk
    have h1 : ((0x04#8 : Byte) - 0x03#8).toNat = 1 := by decide
    obtain rfl : k = 0 := by omega
    rfl
  · intro k hk
    have h : k < ((0x00#8 : Byte) - 0x00#8).toNat := hk
    have h0 : ((0x00#8 : Byte) - 0x00#8).toNat = 0 := by decide
    omega

/-- A sound state in which a parser step runs and replies. -/
theorem witness_StepsKeepStatesSound : Sound exBeforeParse ∧ ∃ t, step exBeforeParse = .next t :=
  ⟨payload_sound 0x00#8 _, _, rfl⟩

/-- A handler is about to break its contract (R176). -/
def exBreach : State :=
  { exPayload 0x01#8 [0x02#8] with phase := .c, env := { ex.env with moves := [.core], answers := [.breach] } }

/-- A handler without arguments is about to read a cell never written (R57). -/
def exStray : State :=
  { exPayload 0x01#8 [0x02#8] with
    phase := .c
    env := { ex.env with moves := [.core], answers := [.reply [0x00#8] 0x00#8 [] .keep] } }

theorem witness_OnlyRepliesAndHandlersFault :
    (Sound exBreach ∧ exBreach.fault = none ∧ ∃ t, step exBreach = .next t ∧ t.fault = some .handlerContract) ∧
      Sound exStray ∧ exStray.fault = none ∧
      ∃ t, step exStray = .next t ∧ t.fault = some (.unwrittenRead .rxb (0x04#8 + 0x00#8)) :=
  ⟨⟨payload_sound 0x02#8 _, rfl, _, rfl, rfl⟩, payload_sound 0x02#8 _, rfl, _, rfl, rfl⟩

theorem witness_RingArraysStayCanonical :
    RingsWf exBeforeParse ∧ (∃ t, exec (.rbPush .txb 0x7E#8) exBeforeParse = .next t) ∧
      ∃ t, step exBeforeParse = .next t := ⟨⟨by decide, by decide⟩, ⟨_, rfl⟩, ⟨_, rfl⟩⟩

theorem witness_WatchdogRegistersKeepTheirWidth :
    WatchdogOk (exWd 65535 65535) ∧ (∃ t, exec .wdTick (exWd 65535 65535) = .next t) ∧
      ∃ t, step { exWd 65535 65535 with env := { ex.env with moves := [.tick] } } = .next t :=
  ⟨⟨by decide, by decide⟩, ⟨_, rfl⟩, ⟨_, rfl⟩⟩

theorem witness_LatchesAreNeverCleared :
    { ex with halted := true, fault := some ModelFault.handlerContract }.halted = true ∧
      ∃ t, exec .wdTick { ex with halted := true, fault := some ModelFault.handlerContract } = .next t := ⟨rfl, _, rfl⟩

theorem witness_ParametersAndTableAreImmutable :
    TableOk ex ∧ (∃ t, exec .tableBuild ex = .next t) ∧ Instr.count ≠ .tableBuild ∧ ∃ t, exec .count ex = .next t :=
  ⟨⟨exConfig_ok, rfl⟩, ⟨_, rfl⟩, by decide, ⟨_, rfl⟩⟩

theorem witness_HistoryOnlyGrows : ∃ t, exec .wdTick ex = .next t := ⟨_, rfl⟩

theorem witness_OneMutatorPerIndex :
    (∃ t, exec .coreStep { exArrived with phase := .a } = .next t) ∧
      (∃ t, exec .coreStep { ex with phase := .b } = .next t) ∧ (∃ t, exec .coreStep exBeforeParse = .next t) ∧
      (∃ t, exec .coreStep { ex with phase := .d } = .next t) ∧ (∃ t, exec .wdTick ex = .next t) ∧
      ∃ t, exec (.envRxArrive 0x7E#8) ex = .next t := ⟨⟨_, rfl⟩, ⟨_, rfl⟩, ⟨_, rfl⟩, ⟨_, rfl⟩, ⟨_, rfl⟩, ⟨_, rfl⟩⟩

end Sys2Proof.Tests
end

section
/-! PROOFS. Building the command table (`43_command_table.md` section 1): the entry each command gets, the two outcomes
of `table_build`, and O24. -/

namespace Sys2Proof.Machine

/-! What startup computes. -/

/-- The width of a format string is the plain sum of the widths of its characters (R79, R170). -/
theorem formatBytes_eq_sum (cfg : Config) (format : List Byte) :
    formatBytes cfg format = (format.map (widthOf cfg)).sum := by
  induction format with
  | nil => rfl
  | cons c rest ih => simp [formatBytes, ih]

/-- Ids 0 and 1 are the built-ins, every other id is a user handler (R77, D9). -/
theorem handlerAt_eq_ite (i : Nat) :
    handlerAt i = if i = 0 then Handler.commandCount else if i = 1 then .commandNames else .user := by
  match i with
  | 0 => rfl
  | 1 => rfl
  | i + 2 => simp [handlerAt]

/-- The entry of the table ROM for command `c` with id `i`. -/
def entryFor (cfg : Config) (i : Nat) (c : Command) : Entry :=
  { name := c.name, paramFormat := c.paramFormat, returnFormat := c.returnFormat,
    required := formatBytes cfg c.paramFormat, handler := handlerAt i }

theorem buildEntries_cons (cfg : Config) (i : Nat) (c : Command) (rest : List Command) :
    buildEntries cfg i (c :: rest) = entryFor cfg i c :: buildEntries cfg (i + 1) rest := rfl

@[simp] theorem length_buildEntries (cfg : Config) (i : Nat) (cs : List Command) :
    (buildEntries cfg i cs).length = cs.length := by
  induction cs generalizing i with
  | nil => rfl
  | cons c rest ih => simp [buildEntries_cons, ih]

/-- Command `k` of the list has the entry of id `i + k`, where `i` is the id the list begins at. -/
theorem getElem?_buildEntries (cfg : Config) (i : Nat) (cs : List Command) (k : Nat) :
    (buildEntries cfg i cs)[k]? = cs[k]?.map (entryFor cfg (i + k)) := by
  induction cs generalizing i k with
  | nil => rfl
  | cons c rest ih =>
    rw [buildEntries_cons]
    cases k with
    | zero => rfl
    | succ k => simp [ih, Nat.add_assoc, Nat.add_comm 1 k]

theorem buildTable_of_legal {cfg : Config} (h2 : 2 ≤ cfg.commands.length) (h255 : cfg.commands.length ≤ 255) :
    buildTable cfg = some { entries := buildEntries cfg 0 cfg.commands } :=
  if_pos ⟨h2, h255⟩

theorem buildTable_of_malformed {cfg : Config} (h : cfg.commands.length < 2 ∨ 255 < cfg.commands.length) :
    buildTable cfg = none :=
  if_neg (by omega)

/-! What the operation does with it. -/

/-- A raise with no fault recorded before changes the fault latch alone (R34). -/
theorem latch_of_fault_none {s : State} (f : ModelFault) (h : s.fault = none) :
    latch f s = { s with fault := some f } := by
  simp [latch, h]

theorem exec_tableBuild_of_some {s : State} {t : Table} (h : buildTable s.cfg = some t) :
    exec .tableBuild s = .next { s with table := t } := by
  show done (rebuildTable s) = _
  simp [rebuildTable, h, setTable]

theorem exec_tableBuild_of_none {s : State} (h : buildTable s.cfg = none) :
    exec .tableBuild s = .next (latch .tableMalformed s) := by
  show done (rebuildTable s) = _
  simp [rebuildTable, h, raise]

/-- Settles O24: the entries are `entryFor` of the commands, one by one, and the bounds of R8 decide whether they are
stored. -/
theorem tableBuildSumsTheFormats : Obligations.TableBuildSumsTheFormats := by
  unfold Obligations.TableBuildSumsTheFormats
  intro s
  refine ⟨fun h2 h255 => ?_, fun hbad hnone => ?_⟩
  · refine ⟨_, exec_tableBuild_of_some (buildTable_of_legal h2 h255), length_buildEntries _ _ _, fun i c hc => ?_⟩
    have he : (buildEntries s.cfg 0 s.cfg.commands)[i]? = some (entryFor s.cfg i c) := by
      simp [getElem?_buildEntries, hc]
    exact ⟨_, he, rfl, rfl, rfl, handlerAt_eq_ite i, formatBytes_eq_sum s.cfg c.paramFormat⟩
  · rw [exec_tableBuild_of_none (buildTable_of_malformed hbad), latch_of_fault_none _ hnone]

end Sys2Proof.Machine
end

section
/-! PROOFS. What every instruction and every step keep (`10_state.md` sections 5 to 7): each arm of `exec` but
`table_build` extends the state it began in, and what every arm keeps every step keeps. -/

namespace Sys2Proof.Machine

/-! The outcomes of an operation. -/

/-- An operation that returns nothing leaves the state it reached. -/
theorem extends_of_done {s t : State} {r : Res Unit} (hr : Extends s r.state) (h : done r = .next t) :
    Extends s t := by
  cases h
  exact hr

/-- An operation that cannot raise. -/
theorem extends_of_done_ok {s t u : State} (hu : Extends s u) (h : done (.ok () u) = .next t) : Extends s t :=
  extends_of_done (r := .ok () u) hu h

/-- An operation that returns a value leaves the state it reached, with the value recorded. -/
theorem extends_of_answer {s t : State} {r : Res Ret} (hr : Extends s r.state) (h : answer r = .next t) :
    Extends s t := by
  cases r with
  | ok v s1 =>
    cases h
    exact hr.trans (setRet_extends s1 v)
  | raised s1 =>
    cases h
    exact hr

/-- Recording a value the state already has. -/
theorem extends_of_answer_ok {s t : State} {v : Ret} (h : answer (.ok v s) = .next t) : Extends s t :=
  extends_of_answer (r := .ok v s) (Extends.refl s) h

/-! The arms of `exec` that branch. -/

theorem execRspData_extends {m status : Byte} {payload : List Byte} {s t : State}
    (h : execRspData m status payload s = .next t) : Extends s t := by
  unfold execRspData at h
  split at h
  · exact extends_of_done (sendFrame_extends _ _ _ s) h
  · cases h

theorem execSend_extends {payload : List Byte} {length status : Byte} {s t : State}
    (h : execSend payload length status s = .next t) : Extends s t := by
  unfold execSend at h
  split at h
  · exact extends_of_done (sendFrame_extends _ _ _ s) h
  · cases h

theorem execName_extends {id slot : Byte} {s t : State} (h : execName id slot s = .next t) : Extends s t := by
  unfold execName at h
  split at h
  · exact extends_of_answer_ok h
  · cases h

theorem execRequiredBytes_extends {id : Byte} {s t : State} (h : execRequiredBytes id s = .next t) :
    Extends s t := by
  unfold execRequiredBytes at h
  split at h
  · exact extends_of_answer_ok h
  · cases h

theorem execInvoke_extends {id offset : Byte} {s t : State} (h : execInvoke id offset s = .next t) :
    Extends s t := by
  unfold execInvoke at h
  split at h
  · exact extends_of_done (callHandler_extends _ _ _ s) h
  · cases h

/-- Everything a core step can do (R216): an enabled core runs the operation of its phase, and advances unless that
raised. -/
theorem execCoreStep_cases {s t : State} (h : exec .coreStep s = .next t) :
    s.halted = false ∧ s.fault = none ∧
      ((∃ u, phaseOperation s = .ok () u ∧ t = advancePhase s.phase u) ∨ phaseOperation s = .raised t) := by
  change execCoreStep s = .next t at h
  unfold execCoreStep at h
  split at h
  · cases h
  · rename_i hh
    refine ⟨by simpa using hh, ?_⟩
    split at h
    · cases h
    · rename_i hf
      refine ⟨hf, ?_⟩
      split at h <;> cases h
      · exact .inl ⟨_, ‹_›, rfl⟩
      · exact .inr ‹_›

theorem execCoreStep_extends {s t : State} (h : exec .coreStep s = .next t) : Extends s t := by
  have hp := phaseOperation_extends s
  obtain ⟨-, -, ⟨u, hu, rfl⟩ | hr⟩ := execCoreStep_cases h
  · rw [hu] at hp
    exact hp.trans (advancePhase_extends _ u)
  · rw [hr] at hp
    exact hp

/-- Everything an arrival can do (R221): a byte enters RXR, and leaves the line if it stood there. -/
theorem execEnvRxArrive_cases {v : Byte} {s t : State} (h : exec (.envRxArrive v) s = .next t) :
    ∃ e, t = deliver v (setEnv s e) := by
  change execEnvRxArrive v s = .next t at h
  unfold execEnvRxArrive at h
  split at h
  · cases h
  · split at h
    · cases h
      exact ⟨s.env, rfl⟩
    · split at h <;> cases h
      exact ⟨_, rfl⟩

/-! Every arm. -/

/-- Every instruction but `table_build` extends the state it began in. -/
theorem exec_extends {i : Instr} {s t : State} (hi : i ≠ .tableBuild) (h : exec i s = .next t) : Extends s t := by
  cases i with
  | badMarker m st l => exact extends_of_done ((skipInbound_extends 3 s).trans (judgeHeader_extends m st l _)) h
  | badStatus m st l => exact extends_of_done ((skipInbound_extends 3 s).trans (judgeHeader_extends m st l _)) h
  | reqAck m => exact extends_of_done ((skipInbound_extends 3 s).trans (sendStatusFrame_extends statusOk _)) h
  | badFunc m f args =>
    exact extends_of_done ((skipInbound_extends 1 s).trans (takeError_extends statusUndefinedFunction _)) h
  | badCount m f args =>
    exact extends_of_done ((skipInbound_extends 1 s).trans (takeError_extends statusByteCountError _)) h
  | reqCount m => exact extends_of_done (dispatched_extends _ _ s fun s1 => sendFrame_extends _ _ _ s1) h
  | reqNames m id slot => exact extends_of_done (dispatched_extends _ _ s fun s1 => namesReply_extends id slot s1) h
  | reqUser m f args => exact extends_of_done (dispatched_extends _ _ s fun s1 => userHandler_extends _ _ _ s1) h
  | rspStatus m st => exact extends_of_done (sendFrame_extends _ _ st s) h
  | rspData m st payload => exact execRspData_extends (m := m) h
  | rbCount b => exact extends_of_answer_ok h
  | rbPush b v => exact extends_of_done_ok (rbPush_extends b v s) h
  | rbPop b => exact extends_of_answer ((rbPop_extends b s).map Ret.byte) h
  | rbEmpty b => exact extends_of_answer_ok h
  | rbPeek b k => exact extends_of_answer ((memRead_extends b k s).map Ret.byte) h
  | rbFlush b => exact extends_of_done_ok (rbFlush_extends b s) h
  | tryReceive => exact extends_of_answer ((tryReceive_extends s).map Ret.optByte) h
  | rxService => exact extends_of_done (rxService_extends s) h
  | tryTransmit => exact extends_of_done (tryTransmit_extends s) h
  | txService => exact extends_of_done (tryTransmit_extends s) h
  | enqueueOutbound v => exact extends_of_done (guardedPush_extends .txb v s) h
  | parseService => exact extends_of_done (parseService_extends s) h
  | headerStep => exact extends_of_done (headerStep_extends s) h
  | payloadStep => exact extends_of_done (payloadStep_extends s) h
  | tableBuild => exact absurd rfl hi
  | name id slot => exact execName_extends h
  | requiredBytes id => exact execRequiredBytes_extends h
  | count => exact extends_of_answer_ok h
  | invoke id offset => exact execInvoke_extends h
  | send payload length status => exact execSend_extends h
  | sendString str => exact extends_of_done (sendStringFrame_extends str s) h
  | sendStatus st => exact extends_of_done (sendStatusFrame_extends st s) h
  | wdCheck => exact extends_of_done_ok (checkWatchdog_extends s) h
  | wdTick => exact extends_of_done_ok (tickWatchdog_extends s) h
  | wdHeartbeat => exact extends_of_done_ok (heartbeat_extends s) h
  | stop => exact extends_of_done_ok (callStop_extends s) h
  | wdSetTimeout n => exact extends_of_done_ok (writeTimeout_extends n s) h
  | coreStep => exact execCoreStep_extends h
  | envRxArrive v =>
    obtain ⟨e, rfl⟩ := execEnvRxArrive_cases h
    exact (setEnv_extends s e).trans (setRxr_extends _ _)
  | envTxReady r =>
    cases h
    exact setTxr_extends s _

/-- Everything an instruction can do to what `Extends` speaks of: it extends the state, or it is `table_build` and
stores the table that startup computes (R31, R170). -/
theorem exec_cases {i : Instr} {s t : State} (h : exec i s = .next t) :
    Extends s t ∨ (i = .tableBuild ∧ ∃ tab, buildTable s.cfg = some tab ∧ t = setTable s tab) := by
  by_cases hi : i = .tableBuild
  · subst hi
    cases hb : buildTable s.cfg with
    | some tab =>
      rw [exec_tableBuild_of_some hb] at h
      cases h
      exact .inr ⟨rfl, tab, rfl, rfl⟩
    | none =>
      rw [exec_tableBuild_of_none hb] at h
      cases h
      exact .inl (latch_extends _ s)
  · exact .inl (exec_extends hi h)

/-! Every step. -/

theorem takeMove_setEnv (s : State) : ∃ e, (takeMove s).2 = setEnv s e := by
  unfold takeMove
  split <;> exact ⟨_, rfl⟩

theorem takeByte_setEnv (s : State) : ∃ e, (takeByte s).2 = setEnv s e := by
  unfold takeByte
  split
  · exact ⟨s.env, rfl⟩
  · exact ⟨_, rfl⟩

/-- Everything a step can do (R219, R220), up to a draw from `env`: a core move, an arrival held back, or an instruction
of the environment or the tick source. -/
theorem step_cases {s t : State} (h : step s = .next t) :
    ∃ e, coreMove (setEnv s e) = .next t ∨ t = setEnv s e ∨
      ∃ i, ((∃ v, i = .envRxArrive v) ∨ (∃ r, i = .envTxReady r) ∨ i = .wdTick) ∧ exec i (setEnv s e) = .next t := by
  obtain ⟨e, he⟩ := takeMove_setEnv s
  unfold step at h
  rw [he] at h
  cases hm : (takeMove s).1 <;> rw [hm] at h
  case core => exact ⟨e, .inl h⟩
  case arrive =>
    change arriveMove (setEnv s e) = .next t at h
    unfold arriveMove at h
    split at h
    · cases h
      exact ⟨e, .inr (.inl rfl)⟩
    · obtain ⟨e', he'⟩ := takeByte_setEnv (setEnv s e)
      rw [he'] at h
      exact ⟨e', .inr (.inr ⟨_, .inl ⟨_, rfl⟩, h⟩)⟩
  case txReady r => exact ⟨e, .inr (.inr ⟨_, .inr (.inl ⟨r, rfl⟩), h⟩)⟩
  case tick => exact ⟨e, .inr (.inr ⟨_, .inr (.inr rfl), h⟩)⟩

/-- Everything a core move can do (R216, log 16): a phase of the poll loop, or the frame before the parser. -/
theorem coreMove_cases {s t : State} (h : coreMove s = .next t) :
    exec .coreStep s = .next t ∨ ∃ i, fetchFrame s = some i ∧ afterFrame (exec i s) = .next t := by
  unfold coreMove at h
  split at h
  · exact .inr ⟨_, ‹_›, h⟩
  · exact .inl h

/-- Behind a frame comes phase (d), unless a fault is recorded (R216). -/
theorem afterFrame_cases {x : Host.Outcome State Fault Refusal} {t : State} (h : afterFrame x = .next t) :
    ∃ u, x = .next u ∧ ((u.fault = none ∧ t = setPhase u .d) ∨ (u.fault ≠ none ∧ t = u)) := by
  cases x with
  | next u =>
    cases h
    refine ⟨u, rfl, ?_⟩
    split
    · exact .inl ⟨‹_›, rfl⟩
    · exact .inr ⟨‹_›, rfl⟩
  | fault f => cases h
  | refused r => cases h

/-- What every instruction keeps every step keeps, if it looks neither at `env` nor at the phase. -/
theorem step_keeps {P : State → Prop} (henv : ∀ {s} e, P s → P (setEnv s e)) (hphase : ∀ {s} p, P s → P (setPhase s p))
    (hexec : ∀ {i s t}, P s → exec i s = .next t → P t) {s t : State} (hs : P s) (h : step s = .next t) : P t := by
  obtain ⟨e, h | rfl | ⟨i, -, h⟩⟩ := step_cases h
  · obtain h | ⟨i, -, h⟩ := coreMove_cases h
    · exact hexec (henv e hs) h
    · obtain ⟨u, hu, ⟨-, rfl⟩ | ⟨-, rfl⟩⟩ := afterFrame_cases h
      · exact hphase .d (hexec (henv e hs) hu)
      · exact hexec (henv e hs) hu
  · exact henv e hs
  · exact hexec (henv e hs) h

/-! The watchdog registers. -/

theorem exec_keeps_watchdogOk {i : Instr} {s t : State} (hs : WatchdogOk s) (h : exec i s = .next t) :
    WatchdogOk t := by
  obtain hx | ⟨-, tab, -, rfl⟩ := exec_cases h
  · exact hx.watchdog hs
  · exact hs

/-- Settles O53: `exec_cases` for the instructions, and no move's draw or phase advance touches the registers. -/
theorem watchdogRegistersKeepTheirWidth : Obligations.WatchdogRegistersKeepTheirWidth := by
  unfold Obligations.WatchdogRegistersKeepTheirWidth
  exact ⟨fun _ _ _ hs h => exec_keeps_watchdogOk hs h,
    fun _ _ hs h => step_keeps (fun _ h => h) (fun _ h => h) exec_keeps_watchdogOk hs h⟩

/-! The latches, the parameters and the table, the history. -/

/-- Settles O56: `Extends` carries both latches, and `table_build` touches neither. -/
theorem latchesAreNeverCleared : Obligations.LatchesAreNeverCleared := by
  unfold Obligations.LatchesAreNeverCleared
  intro i s t h
  obtain hx | ⟨-, tab, -, rfl⟩ := exec_cases h
  · exact ⟨hx.halted, hx.fault⟩
  · exact ⟨id, fun _ => id⟩

/-- Settles O57: `table_build` stores what it computes from the parameters, which in a state with the table as startup
built it is the table that stands there. -/
theorem parametersAndTableAreImmutable : Obligations.ParametersAndTableAreImmutable := by
  unfold Obligations.ParametersAndTableAreImmutable
  intro i s t h
  obtain hx | ⟨hi, tab, hb, rfl⟩ := exec_cases h
  · exact ⟨hx.cfg, fun _ => hx.table, fun _ => hx.table⟩
  · refine ⟨rfl, fun hne => absurd hi hne, fun ⟨_, hok⟩ => ?_⟩
    exact Option.some.inj (hb.symm.trans hok)

/-- Settles O58: `Extends` carries the history, and a `table_build` that stores its table emits nothing. -/
theorem historyOnlyGrows : Obligations.HistoryOnlyGrows := by
  unfold Obligations.HistoryOnlyGrows
  intro i s t h
  obtain hx | ⟨-, tab, -, rfl⟩ := exec_cases h
  · exact hx.history
  · exact ⟨[], by simp⟩

/-! The core that has stopped, and the state after reset. -/

/-- Settles O40: the two conditions R216 requires are the first things a core step looks at. -/
theorem stoppedCoreHasNoStep : Obligations.StoppedCoreHasNoStep := by
  unfold Obligations.StoppedCoreHasNoStep
  intro s
  refine ⟨fun hh => ?_, fun f hh hf => ?_⟩
  · show execCoreStep s = _
    simp [execCoreStep, hh]
  · show execCoreStep s = _
    simp [execCoreStep, hh, hf]

theorem resetWith_of_some {cfg : Config} {tab : Table} (h : buildTable cfg = some tab) :
    State.resetWith cfg = { State.cold cfg with table := tab } := by
  simp [State.resetWith, h]

/-- Settles O50: a legal configuration has a well-formed table, so reset is the cold machine with that table. -/
theorem resetLeavesTheStatedValues : Obligations.ResetLeavesTheStatedValues := by
  unfold Obligations.ResetLeavesTheStatedValues
  rintro cfg ⟨h2, h255, -⟩
  have hb := buildTable_of_legal h2 h255
  refine ⟨_, hb, ?_⟩
  rw [resetWith_of_some hb]
  exact ⟨rfl, rfl, rfl, rfl, rfl, rfl, rfl, rfl, rfl, rfl⟩

end Sys2Proof.Machine
end

section
/-! PROOFS. What serving a request leaves alone (R24, R176): replies, draws and handlers touch no inbound state, neither
serial register and not the read index of TXB; the parser's steps move, besides, only the read index of RXB and the
parser state. -/

namespace Sys2Proof.Machine

/-! How an operation ends. -/

/-- `P` where the operation goes on, `Q` where it raises. -/
def Ends {α : Type} (P Q : State → Prop) : Res α → Prop
  | .ok _ t => P t
  | .raised t => Q t

theorem ends_same_iff {α : Type} {P : State → Prop} {r : Res α} : Ends P P r ↔ P r.state := by
  cases r <;> exact Iff.rfl

theorem Ends.imp {α : Type} {P Q P' Q' : State → Prop} {r : Res α} (h : Ends P Q r) (hP : ∀ {t}, P t → P' t)
    (hQ : ∀ {t}, Q t → Q' t) : Ends P' Q' r := by
  cases r
  · exact hP h
  · exact hQ h

/-- Sequencing: what the second operation keeps the whole keeps. -/
theorem Res.bind_keeps {α β : Type} {P : State → Prop} {r : Res α} {k : α → State → Res β} (h : P r.state)
    (hk : ∀ a s1, P s1 → P (k a s1).state) : P (r.bind k).state := by
  cases r with
  | ok a s1 => exact hk a s1 h
  | raised s1 => exact h

/-! Rings: the count, and the queued cells after a push and after taking bytes. -/

theorem rbCount_congr {b : RingId} {s t : State} (h : ringOf t b = ringOf s b) : rbCount b t = rbCount b s := by
  simp [rbCount, h]

theorem QueuedWritten.congr {b : RingId} {s t : State} (h : ringOf t b = ringOf s b) (hq : QueuedWritten b s) :
    QueuedWritten b t := by
  unfold QueuedWritten at *
  rwa [rbCount_congr h, h]

/-- The head is the first index behind the queued cells (R22). -/
theorem indexAt_tail_count (b : RingId) (s : State) :
    indexAt (ringOf s b).tail (rbCount b s).toNat = (ringOf s b).head := by
  apply BitVec.eq_of_toNat_eq
  have ht := (ringOf s b).tail.isLt
  have hh := (ringOf s b).head.isLt
  rw [indexAt_toNat, rbCount_toNat]
  omega

theorem rbEmpty_eq_false_iff (b : RingId) (s : State) : rbEmpty b s = false ↔ 1 ≤ (rbCount b s).toNat := by
  have hsub : (rbCount b s).toNat = 0 ↔ (ringOf s b).head = (ringOf s b).tail := by
    rw [← BitVec.toNat_inj, rbCount_toNat]
    have ht := (ringOf s b).tail.isLt
    have hh := (ringOf s b).head.isLt
    omega
  rw [rbEmpty, beq_eq_false_iff_ne, ne_eq, ← hsub]
  omega

/-- A push writes the cell it queues; a push onto 255 queued bytes leaves the ring reading as empty (R101, R108). -/
theorem QueuedWritten.push {b : RingId} {s : State} (v : Byte) (h : QueuedWritten b s) :
    QueuedWritten b (rbPush b v s) := by
  intro k hk
  rw [rbCount_push_toNat] at hk
  rw [rbPush_eq, ringOf_setRing]
  by_cases hc : indexAt (ringOf s b).tail k = (ringOf s b).head
  · simp [hc, Memory.read_write_same]
  · have hne : k ≠ (rbCount b s).toNat := fun he => hc (he ▸ indexAt_tail_count b s)
    have hlt : k < (rbCount b s).toNat := by omega
    rw [Memory.read_write_other _ _ _ _ fun he => hc (BitVec.eq_of_toNat_eq he)]
    exact h k hlt

/-- Moving the tail past `n` queued bytes leaves `n` fewer. -/
theorem rbCount_skip {b : RingId} {s t : State} {n : Nat}
    (ht : ringOf t b = { ringOf s b with tail := indexAt (ringOf s b).tail n }) (hn : n ≤ (rbCount b s).toNat) :
    (rbCount b t).toNat = (rbCount b s).toNat - n := by
  have h1 := (ringOf s b).tail.isLt
  have h2 := (ringOf s b).head.isLt
  rw [rbCount_toNat] at hn ⊢
  rw [rbCount_toNat, ht]
  simp only [indexAt_toNat]
  omega

theorem QueuedWritten.skip {b : RingId} {s t : State} {n : Nat} (h : QueuedWritten b s)
    (ht : ringOf t b = { ringOf s b with tail := indexAt (ringOf s b).tail n }) (hn : n ≤ (rbCount b s).toNat) :
    QueuedWritten b t := by
  intro k hk
  rw [rbCount_skip ht hn] at hk
  rw [ht]
  simp only [indexAt_indexAt]
  exact h (n + k) (by omega)

/-! Everything the guarded push, the transport and the check can do. -/

theorem guardedPush_cases (b : RingId) (v : Byte) (s : State) :
    guardedPush b v s = .ok () (rbPush b v s) ∨ guardedPush b v s = raise (.ringOverflow b) s := by
  unfold guardedPush
  split
  · exact .inr rfl
  · exact .inl rfl

theorem rxService_cases (s : State) :
    rxService s = .ok () s ∨
      rxService s = guardedPush .rxb s.rxr.data (emit (.rx s.rxr.data) (setRxr s { s.rxr with valid := false })) := by
  unfold rxService tryReceive
  split
  · exact .inr rfl
  · exact .inl rfl

/-- Phase (b) does nothing, or moves the oldest byte of a ring that is not empty to the transmitter, or raises. -/
theorem tryTransmit_cases (s : State) :
    tryTransmit s = .ok () s ∨
    (rbEmpty .txb s = false ∧
      ∃ v, tryTransmit s = .ok () (emit (.tx v) (setRing s .txb { s.txb with tail := s.txb.tail + 1 }))) ∨
    ∃ f, tryTransmit s = raise f s := by
  unfold tryTransmit
  split
  · rename_i h
    obtain ⟨v, -, hp⟩ | ⟨-, hp⟩ := rbPop_cases .txb s <;> rw [hp]
    · exact .inr (.inl ⟨h.1, v, rfl⟩)
    · exact .inr (.inr ⟨_, rfl⟩)
  · exact .inl rfl

theorem callStop_eq (s : State) : ∃ e b, callStop s = { s with env := e, halted := b } := by
  obtain ⟨e, he⟩ := drawBool_setEnv s
  unfold callStop
  rw [he]
  split
  · exact ⟨s.env, s.halted, rfl⟩
  · exact ⟨s.env, true, rfl⟩
  · split
    · exact ⟨e, s.halted, rfl⟩
    · exact ⟨e, true, rfl⟩

/-- The check of phase (d) can touch a draw, the halt latch and the history. -/
theorem checkWatchdog_eq (s : State) : ∃ e b evs, checkWatchdog s = { s with env := e, halted := b, history := evs } := by
  unfold checkWatchdog
  split
  · obtain ⟨e, b, h⟩ := callStop_eq (emit .stop s)
    exact ⟨e, b, _, h⟩
  · exact ⟨_, _, _, rfl⟩

/-! Replies, draws and handlers. -/

/-- From `s` to `t` a request may have been served: bytes may have been appended to TXB, and nothing of the inbound side,
of the serial registers or of what TXB still has to send was touched. -/
structure Serves (s t : State) : Prop where
  rxb : t.rxb = s.rxb
  ps : t.ps = s.ps
  rxr : t.rxr = s.rxr
  txr : t.txr = s.txr
  txbTail : t.txb.tail = s.txb.tail
  txbQueued : QueuedWritten .txb s → QueuedWritten .txb t

theorem Serves.refl (s : State) : Serves s s := ⟨rfl, rfl, rfl, rfl, rfl, id⟩

theorem Serves.trans {s t u : State} (h : Serves s t) (h' : Serves t u) : Serves s u where
  rxb := h'.rxb.trans h.rxb
  ps := h'.ps.trans h.ps
  rxr := h'.rxr.trans h.rxr
  txr := h'.txr.trans h.txr
  txbTail := h'.txbTail.trans h.txbTail
  txbQueued := h'.txbQueued ∘ h.txbQueued

/-- Sequencing: both halves serve, so the whole does. -/
theorem Serves.bind {α β : Type} {s : State} {r : Res α} {k : α → State → Res β} (h : Serves s r.state)
    (hk : ∀ a s1, Serves s1 (k a s1).state) : Serves s (r.bind k).state :=
  Res.bind_keeps h fun a s1 h1 => h1.trans (hk a s1)

theorem setEnv_serves (s : State) (e : Env) : Serves s (setEnv s e) := ⟨rfl, rfl, rfl, rfl, rfl, id⟩

theorem emit_serves (e : Event) (s : State) : Serves s (emit e s) := ⟨rfl, rfl, rfl, rfl, rfl, id⟩

theorem latch_serves (f : ModelFault) (s : State) : Serves s (latch f s) := ⟨rfl, rfl, rfl, rfl, rfl, id⟩

theorem applyEffect_serves (e : WdEffect) (s : State) : Serves s (applyEffect e s) := by
  cases e <;> exact ⟨rfl, rfl, rfl, rfl, rfl, id⟩

theorem enqueueOutbound_serves (v : Byte) (s : State) : Serves s (enqueueOutbound v s).state := by
  unfold enqueueOutbound
  obtain h | h := guardedPush_cases .txb v s <;> rw [h]
  · exact ⟨rfl, rfl, rfl, rfl, rfl, QueuedWritten.push v⟩
  · exact latch_serves _ s

theorem enqueueAll_serves (bs : List Byte) (s : State) : Serves s (enqueueAll bs s).state := by
  induction bs generalizing s with
  | nil => exact Serves.refl s
  | cons v rest ih => exact (enqueueOutbound_serves v s).bind fun _ s1 => ih s1

theorem sendFrame_serves (payload : List Byte) (length status : Byte) (s : State) :
    Serves s (sendFrame payload length status s).state := enqueueAll_serves _ s

theorem sendStatusFrame_serves (status : Byte) (s : State) : Serves s (sendStatusFrame status s).state :=
  sendFrame_serves _ _ _ s

theorem sendStringFrame_serves (str : List Byte) (s : State) : Serves s (sendStringFrame str s).state := by
  unfold sendStringFrame
  split
  · exact latch_serves _ s
  · exact sendFrame_serves _ _ _ s

theorem drawBool_serves (s : State) : Serves s (drawBool s).2 := by
  obtain ⟨e, he⟩ := drawBool_setEnv s
  rw [he]
  exact setEnv_serves s e

theorem memRead_serves (b : RingId) (i : Byte) (s : State) : Serves s (memRead b i s).state := by
  unfold memRead
  split
  · exact Serves.refl s
  · exact latch_serves _ s

theorem namesReply_serves (id slot : Byte) (s : State) : Serves s (namesReply id slot s).state := by
  unfold namesReply
  split
  · exact sendStringFrame_serves _ s
  · unfold namesError
    split
    · split
      · exact (drawBool_serves s).trans (sendStatusFrame_serves _ _)
      · exact sendStatusFrame_serves _ s
    · exact sendStatusFrame_serves _ s

theorem commandNames_serves (o : Byte) (s : State) : Serves s (commandNames o s).state :=
  (memRead_serves .rxb o s).bind fun _ s1 =>
    (memRead_serves .rxb (indexAt o 1) s1).bind fun _ s2 => namesReply_serves _ _ s2

theorem peekArguments_serves (o : Byte) (w : List (Option Byte)) (reads : List Byte) (s : State) :
    Serves s (peekArguments o w reads s).state := by
  obtain ⟨-, h⟩ | ⟨fault, h, -⟩ := peekArguments_cases o w reads s <;> rw [h]
  · exact Serves.refl s
  · exact latch_serves _ s

theorem sendAnswer_serves (status : Byte) (payload : List Byte) (effect : WdEffect) (s : State) :
    Serves s (sendAnswer status payload effect s).state := by
  unfold sendAnswer
  split
  · exact (applyEffect_serves effect s).trans (sendFrame_serves _ _ _ _)
  · exact latch_serves _ s

theorem userHandler_serves (f o : Byte) (w : List (Option Byte)) (s : State) :
    Serves s (userHandler f o w s).state := by
  obtain ⟨e, -, h⟩ | ⟨e, reads, status, payload, effect, -, h⟩ := userHandler_cases f o w s <;> rw [h]
  · exact (setEnv_serves s e).trans (latch_serves _ _)
  · refine (setEnv_serves s e).trans ((peekArguments_serves o w reads _).bind fun _ s1 => ?_)
    exact sendAnswer_serves status payload effect s1

/-- No handler moves an index of RXB, the parser or a serial register (R176). -/
theorem callHandler_serves (e : Entry) (f o : Byte) (s : State) : Serves s (callHandler e f o s).state := by
  unfold callHandler
  split
  · exact sendFrame_serves _ _ _ s
  · exact commandNames_serves o s
  · exact userHandler_serves f o _ s

theorem secondCheck_serves (badM : Bool) (st : Byte) (s : State) : Serves s (secondCheck badM st s).2 := by
  obtain ⟨e, he⟩ := secondCheck_setEnv badM st s
  rw [he]
  exact setEnv_serves s e

/-! The parser's steps. -/

/-- What the operations a header is judged with keep. -/
structure HeaderInvariant (P : State → Prop) : Prop where
  serve : ∀ {s t}, Serves s t → P s → P t
  flush : ∀ {s}, P s → P (rbFlush .rxb s)
  reset : ∀ {s}, P s → P (resetParser s)
  await : ∀ {s l}, l ≠ 0x00#8 → P s → P (awaitPayload l s)

theorem reportIf_keeps {P : State → Prop} (hP : HeaderInvariant P) (bad : Bool) {s : State} (h : P s) :
    P (reportIf bad s).state := by
  unfold reportIf
  split
  · exact hP.serve (sendStatusFrame_serves 0x05#8 _) (hP.flush h)
  · exact h

/-- The whole of the header step past its three pops (R143). -/
theorem judgeHeader_keeps {P : State → Prop} (hP : HeaderInvariant P) (m st l : Byte) {s : State} (h : P s) :
    P (judgeHeader m st l s).state := by
  refine Res.bind_keeps (reportIf_keeps hP _ h) fun _ s1 h1 => ?_
  refine Res.bind_keeps (reportIf_keeps hP _ (hP.serve (secondCheck_serves _ st s1) h1)) fun _ s2 h2 => ?_
  split
  · exact hP.reset h2
  · split
    · exact hP.serve (sendStatusFrame_serves _ s2) h2
    · exact hP.await ‹_› h2

section
variable {P Q : State → Prop}

/-- Whatever served the request, the end of the frame follows unless that raised (R147, R241). -/
theorem finish_ends (hfinish : ∀ {s}, P s → Q (finishFrame s)) {r : Res Unit} (h : P r.state) :
    Ends Q P (r.bind fun _ s1 => .ok () (finishFrame s1)) := by
  cases r with
  | ok _ s1 => exact hfinish h
  | raised s1 => exact h

variable (hserve : ∀ {s t}, Serves s t → P s → P t) (hfinish : ∀ {s}, P s → Q (finishFrame s))
include hserve hfinish

theorem takeError_ends (code : Byte) {s : State} (h : P s) : Ends Q P (takeError code s) :=
  finish_ends hfinish (hserve (sendStatusFrame_serves code s) h)

/-- The whole of the payload step past its pop (R147). -/
theorem judgePayload_ends (l f : Byte) {s : State} (h : P s) : Ends Q P (judgePayload l f s) := by
  unfold judgePayload
  split
  · exact takeError_ends hserve hfinish _ h
  · split
    · exact takeError_ends hserve hfinish _ h
    · exact finish_ends hfinish (hserve ((emit_serves _ s).trans (callHandler_serves _ _ _ _)) h)

/-- The dispatch of a frame form (R147, log 16). -/
theorem dispatched_ends {f : Byte} {handler : State → Res Unit} {s : State}
    (hh : ∀ s1, Serves s1 (handler s1).state) (h : P (skipInbound 1 s)) : Ends Q P (dispatched f handler s) :=
  finish_ends hfinish (hserve ((emit_serves _ _).trans (hh _)) h)

end

/-! One mutator per index. -/

/-- From `s` to `t` the parser may have moved: neither the write side of RXB nor the read side of TXB was touched, nor a
serial register. -/
structure Parses (s t : State) : Prop where
  head : t.rxb.head = s.rxb.head
  data : t.rxb.data = s.rxb.data
  txbTail : t.txb.tail = s.txb.tail
  rxr : t.rxr = s.rxr
  txr : t.txr = s.txr

theorem Parses.refl (s : State) : Parses s s := ⟨rfl, rfl, rfl, rfl, rfl⟩

theorem Parses.trans {s t u : State} (h : Parses s t) (h' : Parses t u) : Parses s u :=
  ⟨h'.head.trans h.head, h'.data.trans h.data, h'.txbTail.trans h.txbTail, h'.rxr.trans h.rxr, h'.txr.trans h.txr⟩

theorem Serves.parses {s t : State} (h : Serves s t) : Parses s t :=
  ⟨by rw [h.rxb], by rw [h.rxb], h.txbTail, h.rxr, h.txr⟩

theorem setTail_rxb_parses (i : Byte) (s : State) : Parses s (setTail .rxb i s) := ⟨rfl, rfl, rfl, rfl, rfl⟩

theorem setParser_parses (p : Parser) (s : State) : Parses s (setParser s p) := ⟨rfl, rfl, rfl, rfl, rfl⟩

theorem parses_headerInvariant (s : State) : HeaderInvariant (Parses s) where
  serve hs h := h.trans hs.parses
  flush h := h.trans (setTail_rxb_parses _ _)
  reset h := h.trans (setParser_parses _ _)
  await _ h := h.trans (setParser_parses _ _)

theorem rbPop_rxb_parses (s : State) : Parses s (rbPop .rxb s).state := by
  obtain ⟨v, -, h⟩ | ⟨-, h⟩ := rbPop_cases .rxb s <;> rw [h]
  · exact setTail_rxb_parses _ s
  · exact (latch_serves _ s).parses

theorem headerStep_parses (s : State) : Parses s (headerStep s).state := by
  refine Res.bind_keeps (rbPop_rxb_parses s) fun m s1 h1 => ?_
  refine Res.bind_keeps (h1.trans (rbPop_rxb_parses s1)) fun st s2 h2 => ?_
  refine Res.bind_keeps (h2.trans (rbPop_rxb_parses s2)) fun l s3 h3 => ?_
  exact judgeHeader_keeps (parses_headerInvariant s) m st l h3

theorem payloadStep_parses (s : State) : Parses s (payloadStep s).state := by
  have hP := parses_headerInvariant s
  refine Res.bind_keeps (rbPop_rxb_parses s) fun f s1 h1 => ?_
  exact ends_same_iff.mp (judgePayload_ends hP.serve (fun h => hP.reset (hP.flush h)) s.ps.wait f h1)

theorem parseService_parses (s : State) : Parses s (parseService s).state := by
  unfold parseService
  split
  · split
    · exact headerStep_parses s
    · exact payloadStep_parses s
  · exact Parses.refl s

/-- What a core step leaves is, up to the phase, what the operation of its phase leaves. -/
theorem execCoreStep_state {s t : State} (h : exec .coreStep s = .next t) :
    ∃ p, t = setPhase (phaseOperation s).state p := by
  obtain ⟨-, -, ⟨u, hu, rfl⟩ | hr⟩ := execCoreStep_cases h
  · rw [hu]
    unfold advancePhase
    split
    · exact ⟨u.phase, rfl⟩
    · exact ⟨_, rfl⟩
  · rw [hr]
    exact ⟨t.phase, rfl⟩

theorem phaseOperation_a {s : State} (h : s.phase = .a) : phaseOperation s = rxService s := by simp [phaseOperation, h]

theorem phaseOperation_b {s : State} (h : s.phase = .b) : phaseOperation s = tryTransmit s := by
  simp [phaseOperation, h, txService]

theorem phaseOperation_c {s : State} (h : s.phase = .c) : phaseOperation s = parseService s := by
  simp [phaseOperation, h]

theorem phaseOperation_d {s : State} (h : s.phase = .d) : phaseOperation s = .ok () (checkWatchdog s) := by
  simp [phaseOperation, h]

/-- Phase (a) writes the head of RXB and its array (R121). -/
theorem rxService_state (s : State) :
    (rxService s).state.txb = s.txb ∧ (rxService s).state.rxb.tail = s.rxb.tail ∧ (rxService s).state.ps = s.ps ∧
      ((rxService s).state.rxb = s.rxb ∨ (rxService s).state.rxb.head = s.rxb.head + 1) := by
  obtain h | h := rxService_cases s
  · rw [h]
    exact ⟨rfl, rfl, rfl, .inl rfl⟩
  · rw [h]
    obtain h | h := guardedPush_cases .rxb s.rxr.data
      (emit (.rx s.rxr.data) (setRxr s { s.rxr with valid := false })) <;> rw [h]
    · exact ⟨rfl, rfl, rfl, .inr rfl⟩
    · exact ⟨rfl, rfl, rfl, .inl rfl⟩

/-- Phase (b) writes the tail of TXB (R123). -/
theorem tryTransmit_state (s : State) :
    (tryTransmit s).state.rxb = s.rxb ∧ (tryTransmit s).state.txb.head = s.txb.head ∧
      (tryTransmit s).state.txb.data = s.txb.data ∧ (tryTransmit s).state.ps = s.ps ∧
      ((tryTransmit s).state.txb.tail = s.txb.tail ∨ (tryTransmit s).state.txb.tail = s.txb.tail + 1) := by
  obtain h | ⟨-, v, h⟩ | ⟨f, h⟩ := tryTransmit_cases s <;> rw [h]
  · exact ⟨rfl, rfl, rfl, rfl, .inl rfl⟩
  · exact ⟨rfl, rfl, rfl, rfl, .inr rfl⟩
  · exact ⟨rfl, rfl, rfl, rfl, .inl rfl⟩

/-- Phase (d) writes no index and no register of the watchdog (R200). -/
theorem checkWatchdog_state (s : State) :
    (checkWatchdog s).rxb = s.rxb ∧ (checkWatchdog s).txb = s.txb ∧ (checkWatchdog s).ps = s.ps ∧
      (checkWatchdog s).wd = s.wd := by
  obtain ⟨e, b, evs, h⟩ := checkWatchdog_eq s
  rw [h]
  exact ⟨rfl, rfl, rfl, rfl⟩

/-- `t` is `s` in everything the core's own work rests on: parameters and table, both rings, parser and phase. -/
structure SameCore (s t : State) : Prop where
  cfg : t.cfg = s.cfg
  table : t.table = s.table
  rxb : t.rxb = s.rxb
  txb : t.txb = s.txb
  ps : t.ps = s.ps
  phase : t.phase = s.phase

theorem setEnv_sameCore (s : State) (e : Env) : SameCore s (setEnv s e) := ⟨rfl, rfl, rfl, rfl, rfl, rfl⟩

/-- The moves of the tick source and the serial environment (R203, R221). -/
theorem environment_sameCore {i : Instr} {s t : State}
    (hi : (∃ v, i = .envRxArrive v) ∨ (∃ r, i = .envTxReady r) ∨ i = .wdTick) (h : exec i s = .next t) :
    SameCore s t := by
  obtain ⟨v, rfl⟩ | ⟨r, rfl⟩ | rfl := hi
  · obtain ⟨e, rfl⟩ := execEnvRxArrive_cases h
    exact ⟨rfl, rfl, rfl, rfl, rfl, rfl⟩
  · cases h
    exact ⟨rfl, rfl, rfl, rfl, rfl, rfl⟩
  · cases h
    exact ⟨rfl, rfl, rfl, rfl, rfl, rfl⟩

/-- Settles O59: phase by phase from what each operation leaves, and `SameCore` for the other agents. -/
theorem oneMutatorPerIndex : Obligations.OneMutatorPerIndex := by
  unfold Obligations.OneMutatorPerIndex
  refine ⟨fun s t h => ?_, fun s t i v r hi h => ?_⟩
  · obtain ⟨p, rfl⟩ := execCoreStep_state h
    refine ⟨fun hp => ?_, fun hp => ?_, fun hp => ?_, fun hp => ?_⟩
    · rw [phaseOperation_a hp]
      exact rxService_state s
    · rw [phaseOperation_b hp]
      exact tryTransmit_state s
    · rw [phaseOperation_c hp]
      obtain ⟨hhead, hdata, htail, hrxr, htxr⟩ := parseService_parses s
      exact ⟨hhead, hdata, htail, hrxr, htxr⟩
    · rw [phaseOperation_d hp]
      exact checkWatchdog_state s
  · have hs : SameCore s t := environment_sameCore (by tauto) h
    exact ⟨hs.rxb, hs.txb, hs.ps⟩

end Sys2Proof.Machine
end

section
/-! PROOFS. The occupancy invariant (R150, R151): between the agents' moves the inbound ring holds fewer bytes than the
parser waits for, or as many in phases (b) and (c); every phase, and every frame form, gives that back. -/

namespace Sys2Proof.Machine

/-! The invariant. -/

/-- The part of soundness that a core step has to give back: the parser consistent, every queued cell written, and at
least `n` bytes still to come before the gate holds exactly the bytes it waits for. -/
structure Inbound (n : Nat) (s : State) : Prop where
  parser : ParserOk s
  room : (rbCount .rxb s).toNat + n ≤ s.ps.wait.toNat
  rxb : QueuedWritten .rxb s
  txb : QueuedWritten .txb s

/-- How many bytes are still to come, at least, at the start of a phase (R151). -/
def slack : Phase → Nat
  | .a => 1
  | .b => 0
  | .c => 0
  | .d => 1

theorem occupancyOk_iff (s : State) : OccupancyOk s ↔ (rbCount .rxb s).toNat + slack s.phase ≤ s.ps.wait.toNat := by
  unfold OccupancyOk
  cases s.phase <;> exact Iff.rfl

theorem sound_iff (s : State) : Sound s ↔ TableOk s ∧ Inbound (slack s.phase) s := by
  unfold Sound
  rw [occupancyOk_iff]
  exact ⟨fun ⟨ht, hp, ho, hr, hx⟩ => ⟨ht, hp, ho, hr, hx⟩, fun ⟨ht, hp, ho, hr, hx⟩ => ⟨ht, hp, ho, hr, hx⟩⟩

theorem Inbound.mono {n k : Nat} {s : State} (h : Inbound n s) (hk : k ≤ n) : Inbound k s :=
  ⟨h.parser, by have := h.room; omega, h.rxb, h.txb⟩

theorem ParserOk.congr {s t : State} (h : t.ps = s.ps) (hp : ParserOk s) : ParserOk t := by
  unfold ParserOk at *
  rwa [h]

/-- The parser always waits for a byte (R27). -/
theorem ParserOk.wait_pos {s : State} (h : ParserOk s) : 1 ≤ s.ps.wait.toNat := by
  have hne : s.ps.wait ≠ 0x00#8 := by
    unfold ParserOk at h
    split at h
    · rw [h]
      decide
    · exact h
  have : s.ps.wait.toNat ≠ 0 := fun h0 => hne (BitVec.eq_of_toNat_eq h0)
  omega

/-- `Inbound` looks at the two rings and the parser alone. -/
theorem Inbound.congr {n : Nat} {s t : State} (h : Inbound n s) (hr : t.rxb = s.rxb) (hx : t.txb = s.txb)
    (hp : t.ps = s.ps) : Inbound n t where
  parser := h.parser.congr hp
  room := by
    rw [rbCount_congr (b := .rxb) hr, hp]
    exact h.room
  rxb := h.rxb.congr hr
  txb := h.txb.congr hx

/-- `Sound` looks at what `SameCore` keeps. -/
theorem Sound.congr {s t : State} (h : SameCore s t) (hs : Sound s) : Sound t := by
  rw [sound_iff] at hs ⊢
  obtain ⟨⟨hc, hb⟩, hin⟩ := hs
  refine ⟨⟨by rwa [h.cfg], by rwa [h.cfg, h.table]⟩, ?_⟩
  rw [h.phase]
  exact hin.congr h.rxb h.txb h.ps

theorem Serves.inbound {n : Nat} {s t : State} (h : Serves s t) (hi : Inbound n s) : Inbound n t where
  parser := hi.parser.congr h.ps
  room := by
    rw [rbCount_congr (b := .rxb) h.rxb, h.ps]
    exact hi.room
  rxb := hi.rxb.congr h.rxb
  txb := h.txbQueued hi.txb

/-- Nothing is buffered inbound, and the rest of the invariant holds. -/
structure Drained (s : State) : Prop where
  parser : ParserOk s
  empty : s.rxb.tail = s.rxb.head
  txb : QueuedWritten .txb s

theorem Drained.inbound {s : State} (h : Drained s) : Inbound 1 s := by
  have hc : (rbCount .rxb s).toNat = 0 := by simp [rbCount, h.empty]
  refine ⟨h.parser, ?_, fun k hk => ?_, h.txb⟩
  · have := h.parser.wait_pos
    omega
  · omega

/-- Raised or not. -/
theorem Drained.ends {r : Res Unit} (h : Drained r.state) : Ends (Inbound 1) (Inbound 0) r :=
  (ends_same_iff.mpr h).imp Drained.inbound fun h => h.inbound.mono (by omega)

theorem drained_headerInvariant : HeaderInvariant Drained where
  serve hs h := ⟨h.parser.congr hs.ps, by rw [hs.rxb]; exact h.empty, hs.txbQueued h.txb⟩
  flush h := ⟨h.parser, rfl, h.txb⟩
  reset h := ⟨rfl, h.empty, h.txb⟩
  await hl h := ⟨hl, h.empty, h.txb⟩

/-- The end of a frame leaves nothing buffered (R147). -/
theorem Inbound.frame_finished {s : State} (h : Inbound 0 s) : Inbound 1 (finishFrame s) :=
  Drained.inbound ⟨rfl, rfl, h.txb⟩

/-! Phases (a), (b) and (d). -/

/-- A push under the wait count leaves at most the wait count, and does not wrap (R151 (1)). -/
theorem Inbound.push {s : State} (v : Byte) (h : Inbound 1 s) : Inbound 0 (rbPush .rxb v s) where
  parser := h.parser
  room := by
    have hroom := h.room
    have hwait := s.ps.wait.isLt
    show (rbCount .rxb (rbPush .rxb v s)).toNat + 0 ≤ s.ps.wait.toNat
    rw [rbCount_push_toNat]
    omega
  rxb := h.rxb.push v
  txb := h.txb

theorem rxService_ends {s : State} (h : Inbound 1 s) : Ends (Inbound 0) (Inbound 1) (rxService s) := by
  obtain hr | hr := rxService_cases s
  · rw [hr]
    exact h.mono (by omega)
  · have h1 : Inbound 1 (emit (.rx s.rxr.data) (setRxr s { s.rxr with valid := false })) := h.congr rfl rfl rfl
    rw [hr]
    obtain hp | hp := guardedPush_cases .rxb s.rxr.data (emit (.rx s.rxr.data) (setRxr s { s.rxr with valid := false }))
      <;> rw [hp]
    · exact h1.push s.rxr.data
    · exact h1.congr rfl rfl rfl

theorem tryTransmit_ends {s : State} (h : Inbound 0 s) : Ends (Inbound 0) (Inbound 0) (tryTransmit s) := by
  obtain ht | ⟨he, v, ht⟩ | ⟨f, ht⟩ := tryTransmit_cases s <;> rw [ht]
  · exact h
  · have hn := (rbEmpty_eq_false_iff .txb s).mp he
    exact ⟨h.parser, h.room, h.rxb, h.txb.skip (n := 1) rfl hn⟩
  · exact h.congr rfl rfl rfl

theorem checkWatchdog_inbound {n : Nat} {s : State} (h : Inbound n s) : Inbound n (checkWatchdog s) := by
  obtain ⟨hr, hx, hp, -⟩ := checkWatchdog_state s
  exact h.congr hr hx hp

/-! Phase (c): the gate opens with exactly the bytes the parser waits for. -/

theorem gate_eq_true_iff (s : State) : gate s = true ↔ s.ps.wait.toNat ≤ (rbCount .rxb s).toNat := by
  rw [gate, decide_eq_true_eq, BitVec.le_def]

/-- The gate opens with equality (R151). -/
theorem Inbound.count_of_gate {s : State} (h : Inbound 0 s) (hg : gate s = true) :
    (rbCount .rxb s).toNat = s.ps.wait.toNat := by
  have hroom := h.room
  rw [gate_eq_true_iff] at hg
  omega

theorem ParserOk.wait_header {s : State} (h : ParserOk s) (hst : s.ps.stage = .awaitingHeader) :
    s.ps.wait = 0x03#8 := by
  simpa [ParserOk, hst] using h

/-- The three bytes of a header are all there is (R151 (2)). -/
theorem Inbound.skip_header {s : State} (h : Inbound 0 s) (hg : gate s = true) (hst : s.ps.stage = .awaitingHeader) :
    Drained (skipInbound 3 s) where
  parser := h.parser
  empty := by
    have hc : (rbCount .rxb s).toNat = 3 := by rw [h.count_of_gate hg, h.parser.wait_header hst]; rfl
    have hi := indexAt_tail_count .rxb s
    rw [hc] at hi
    exact hi
  txb := h.txb

/-- The header step finds its three cells written (R150). -/
theorem Inbound.header_cells {s : State} (h : Inbound 0 s) (hg : gate s = true) (hst : s.ps.stage = .awaitingHeader) :
    ∃ m st l, cellsFrom .rxb s s.rxb.tail 3 = [some m, some st, some l] := by
  have hc : (rbCount .rxb s).toNat = 3 := by rw [h.count_of_gate hg, h.parser.wait_header hst]; rfl
  have hw : ∀ k, k < 3 → ∃ v, Memory.read s.rxb.data (indexAt s.rxb.tail k).toNat = some v := fun k hk =>
    Option.isSome_iff_exists.mp (h.rxb k (by omega))
  obtain ⟨m, hm⟩ := hw 0 (by omega)
  obtain ⟨st, hs⟩ := hw 1 (by omega)
  obtain ⟨l, hl⟩ := hw 2 (by omega)
  rw [indexAt_zero] at hm
  rw [indexAt_succ, indexAt_zero] at hs
  rw [indexAt_succ, indexAt_succ, indexAt_zero] at hl
  exact ⟨m, st, l, by simp only [cellsFrom, ringOf_rxb, hm, hs, hl]⟩

/-- The function id is there to be taken (R150). -/
theorem Inbound.skip_function {s : State} (h : Inbound 0 s) (hg : gate s = true) : Inbound 0 (skipInbound 1 s) := by
  have hn : 1 ≤ (rbCount .rxb s).toNat := by rw [h.count_of_gate hg]; exact h.parser.wait_pos
  refine ⟨h.parser, ?_, h.rxb.skip (n := 1) rfl hn, h.txb⟩
  have hroom := h.room
  rw [rbCount_skip (b := .rxb) (s := s) (n := 1) rfl hn]
  show _ ≤ s.ps.wait.toNat
  omega

theorem headerStep_ends {s : State} (h : Inbound 0 s) (hg : gate s = true) (hst : s.ps.stage = .awaitingHeader) :
    Ends (Inbound 1) (Inbound 0) (headerStep s) := by
  obtain ⟨m, st, l, hcells⟩ := h.header_cells hg hst
  rw [headerStep_cells hcells]
  exact (judgeHeader_keeps drained_headerInvariant m st l (h.skip_header hg hst)).ends

theorem payloadStep_ends {s : State} (h : Inbound 0 s) (hg : gate s = true) :
    Ends (Inbound 1) (Inbound 0) (payloadStep s) := by
  unfold payloadStep
  obtain ⟨v, -, hp⟩ | ⟨-, hp⟩ := rbPop_cases .rxb s <;> rw [hp]
  · exact judgePayload_ends Serves.inbound Inbound.frame_finished _ v (h.skip_function hg)
  · exact h.congr rfl rfl rfl

theorem parseService_ends {s : State} (h : Inbound 0 s) : Ends (Inbound 1) (Inbound 0) (parseService s) := by
  unfold parseService
  split
  · rename_i hg
    split
    · exact headerStep_ends h hg ‹_›
    · exact payloadStep_ends h hg
  · rename_i hg
    rw [gate_eq_true_iff] at hg
    exact ⟨h.parser, by omega, h.rxb, h.txb⟩

/-! A phase of the poll loop. -/

theorem phaseOperation_ends {s : State} (h : Inbound (slack s.phase) s) :
    Ends (Inbound (slack (nextPhase s.phase))) (Inbound (slack s.phase)) (phaseOperation s) := by
  cases hp : s.phase <;> rw [hp] at h
  case a => exact phaseOperation_a hp ▸ rxService_ends h
  case b => exact phaseOperation_b hp ▸ tryTransmit_ends h
  case c => exact phaseOperation_c hp ▸ parseService_ends h
  case d => exact phaseOperation_d hp ▸ checkWatchdog_inbound h

theorem checkWatchdog_phase (s : State) : (checkWatchdog s).phase = s.phase := by
  obtain ⟨e, b, evs, h⟩ := checkWatchdog_eq s
  rw [h]

theorem Settles.phase_halted {α : Type} {s : State} {r : Res α} (h : Settles s r) :
    r.state.phase = s.phase ∧ r.state.halted = s.halted := by
  cases r <;> exact h.2

theorem phaseOperation_settles {s : State} (hd : s.phase ≠ .d) : Settles s (phaseOperation s) := by
  cases hp : s.phase
  case a => exact phaseOperation_a hp ▸ rxService_settles s
  case b => exact phaseOperation_b hp ▸ tryTransmit_settles s
  case c => exact phaseOperation_c hp ▸ parseService_settles s
  case d => exact absurd hp hd

/-- No operation moves the phase, and only the check of phase (d) can halt the core (R205, R216). -/
theorem phaseOperation_stays (s : State) :
    (phaseOperation s).state.phase = s.phase ∧ (s.phase ≠ .d → (phaseOperation s).state.halted = s.halted) := by
  by_cases hd : s.phase = .d
  · rw [phaseOperation_d hd]
    exact ⟨checkWatchdog_phase s, absurd hd⟩
  · exact (phaseOperation_settles hd).phase_halted.imp id fun hh _ => hh

/-- The advance after phase `p` keeps the invariant; a core that the check halted stays in phase (d), where the
invariant is that of phase (a). -/
theorem advancePhase_inbound {p : Phase} {u : State} (hp : u.phase = p) (hh : u.halted = true → p = .d)
    (h : Inbound (slack (nextPhase p)) u) : Inbound (slack (advancePhase p u).phase) (advancePhase p u) := by
  unfold advancePhase
  split
  · rw [hp, hh ‹_›]
    rw [hh ‹_›] at h
    exact h
  · exact h.congr rfl rfl rfl

theorem exec_keeps_tableOk {i : Instr} {s t : State} (hs : TableOk s) (h : exec i s = .next t) : TableOk t := by
  obtain ⟨hcfg, -, htab⟩ := parametersAndTableAreImmutable i s t h
  obtain ⟨hc, hb⟩ := hs
  exact ⟨by rwa [hcfg], by rw [hcfg, htab ⟨hc, hb⟩]; exact hb⟩

theorem coreStep_keeps_inbound {s t : State} (hs : Inbound (slack s.phase) s) (h : exec .coreStep s = .next t) :
    Inbound (slack t.phase) t := by
  have hends := phaseOperation_ends hs
  obtain ⟨hphase, hhalt⟩ := phaseOperation_stays s
  obtain ⟨hrun, -, ⟨u, hu, rfl⟩ | hr⟩ := execCoreStep_cases h
  · rw [hu] at hends hphase hhalt
    refine advancePhase_inbound hphase (fun hh => ?_) hends
    by_contra hne
    have : u.halted = s.halted := hhalt hne
    simp [hh, hrun] at this
  · rw [hr] at hends hphase
    change t.phase = s.phase at hphase
    rw [hphase]
    exact hends

/-! The frame forms (log 16). -/

theorem fetchBytes_length {s : State} {i : Byte} {n : Nat} {bs : List Byte} (h : fetchBytes s i n = some bs) :
    bs.length = n := by
  induction n generalizing i bs with
  | zero =>
    cases h
    rfl
  | succ n ih =>
    unfold fetchBytes at h
    split at h
    · rename_i v rest _ hrest
      cases h
      simp [ih hrest]
    · cases h

/-- Three bytes decode to a header form (R81). -/
theorem decodeInbound_three {v : View} {m st l : Byte} {i : Instr} {rest : List Byte}
    (h : decodeInbound v [m, st, l] = .ok (i, rest)) : i = .badMarker m st l ∨ i = .badStatus m st l ∨ i = .reqAck m := by
  simp only [decodeInbound] at h
  split at h
  · cases h
    exact .inl rfl
  · split at h
    · cases h
      exact .inr (.inl rfl)
    · split at h <;> cases h
      exact .inr (.inr rfl)

/-- A good header with a length is no form of its own: its payload is decoded (R81). -/
theorem decodeInbound_goodHeader {cfg : Config} {tab : Table} {l : Byte} {bs : List Byte} (hl : l ≠ 0x00#8) :
    decodeInbound (tableView cfg tab) (cfg.marker :: 0x00#8 :: l :: bs) =
      decodePayload (tableView cfg tab) cfg.marker l bs := by
  simp [decodeInbound, tableView, hl]

/-- A form with a good header and `L >= 1` (R81, R147). -/
def PayloadForm (i : Instr) : Prop :=
  ∃ m f args, i = .badFunc m f args ∨ i = .badCount m f args ∨ i = .reqCount m ∨ (∃ id slot, i = .reqNames m id slot) ∨
    i = .reqUser m f args

theorem decodeCommand_payloadForm {v : View} {m f : Byte} {args : List Byte} {i : Instr}
    (h : decodeCommand v m f args = .ok i) : PayloadForm i := by
  refine ⟨m, f, args, ?_⟩
  unfold decodeCommand at h
  split at h
  · cases h
    exact .inl rfl
  · split at h
    · cases h
      exact .inr (.inl rfl)
    · split at h
      · split at h <;> cases h
        exact .inr (.inr (.inl rfl))
      · split at h
        · split at h <;> cases h
          exact .inr (.inr (.inr (.inl ⟨_, _, rfl⟩)))
        · cases h
          exact .inr (.inr (.inr (.inr rfl)))

theorem decodePayload_payloadForm {v : View} {m l : Byte} {bs rest : List Byte} {i : Instr}
    (h : decodePayload v m l bs = .ok (i, rest)) : PayloadForm i := by
  unfold decodePayload at h
  split at h
  · cases h
  · split at h
    · cases h
    · split at h <;> cases h
      exact decodeCommand_payloadForm ‹_›

/-- A header form runs in the header step, a form with a payload in the payload step, and only with the gate open. -/
theorem fetchFrame_form {s : State} {i : Instr} (h : fetchFrame s = some i) :
    s.phase = .c ∧ s.fault = none ∧ gate s = true ∧
      ((s.ps.stage = .awaitingHeader ∧ ∃ m st l, i = .badMarker m st l ∨ i = .badStatus m st l ∨ i = .reqAck m) ∨
        PayloadForm i) := by
  unfold fetchFrame at h
  split at h
  · rename_i hen
    obtain ⟨hc, -, hf, hg⟩ := hen
    refine ⟨hc, hf, hg, ?_⟩
    split at h
    · cases h
    · rename_i bs hbs
      split at h <;> cases h
      rename_i rest hd
      unfold frameBytes at hbs
      split at hbs
      · obtain ⟨m, st, l, rfl⟩ := List.length_eq_three.mp (fetchBytes_length hbs)
        exact .inl ⟨‹_›, m, st, l, decodeInbound_three hd⟩
      · split at hbs
        · cases hbs
        · rename_i hl
          split at hbs <;> cases hbs
          rw [decodeInbound_goodHeader hl] at hd
          exact .inr (decodePayload_payloadForm hd)
  · cases h

/-- An operation of the parser, run in phase (c): how it ends, and with what inbound occupancy. -/
def RunsParser (s : State) (x : Host.Outcome State Fault Refusal) : Prop :=
  ∃ r, x = done r ∧ Settles s r ∧ Ends (Inbound 1) (Inbound 0) r

theorem headerForm_runsParser {s : State} {i : Instr} {m st l : Byte}
    (hi : i = .badMarker m st l ∨ i = .badStatus m st l ∨ i = .reqAck m) (hd : Drained (skipInbound 3 s)) :
    RunsParser s (exec i s) := by
  have judged : Settles s (judgeHeader m st l (skipInbound 3 s)) ∧
      Ends (Inbound 1) (Inbound 0) (judgeHeader m st l (skipInbound 3 s)) :=
    ⟨(judgeHeader_settles m st l _).after rfl rfl rfl,
      (judgeHeader_keeps drained_headerInvariant m st l hd).ends⟩
  obtain rfl | rfl | rfl := hi
  · exact ⟨_, rfl, judged⟩
  · exact ⟨_, rfl, judged⟩
  · exact ⟨_, rfl, (sendStatusFrame_settles statusOk _).after rfl rfl rfl,
      (drained_headerInvariant.serve (sendStatusFrame_serves statusOk _) hd).ends⟩

theorem dispatched_settles {f : Byte} {handler : State → Res Unit} (s : State)
    (hh : ∀ s1, Settles s1 (handler s1)) : Settles s (dispatched f handler s) :=
  Settles.bind ((hh _).after rfl rfl rfl) fun _ _ _ => ⟨rfl, rfl, rfl⟩

theorem payloadForm_runsParser {s : State} {i : Instr} (hi : PayloadForm i) (h : Inbound 0 (skipInbound 1 s)) :
    RunsParser s (exec i s) := by
  have rejected : ∀ code, RunsParser s (done (takeError code (skipInbound 1 s))) := fun code =>
    ⟨_, rfl, (takeError_settles code _).after rfl rfl rfl, takeError_ends Serves.inbound Inbound.frame_finished code h⟩
  have served : ∀ f handler, (∀ s1, Settles s1 (handler s1)) → (∀ s1, Serves s1 (handler s1).state) →
      RunsParser s (done (dispatched f handler s)) := fun f handler hset hser =>
    ⟨_, rfl, dispatched_settles s hset, dispatched_ends Serves.inbound Inbound.frame_finished hser h⟩
  obtain ⟨m, f, args, rfl | rfl | rfl | ⟨id, slot, rfl⟩ | rfl⟩ := hi
  · exact rejected statusUndefinedFunction
  · exact rejected statusByteCountError
  · exact served _ commandCount (fun s1 => sendFrame_settles _ _ _ s1) fun s1 => sendFrame_serves _ _ _ s1
  · exact served _ (namesReply id slot) (namesReply_settles id slot) (namesReply_serves id slot)
  · exact served f _ (userHandler_settles f _ _) (userHandler_serves f _ _)

theorem fetchFrame_runsParser {s : State} {i : Instr} (h : Inbound 0 s) (hi : fetchFrame s = some i) :
    RunsParser s (exec i s) := by
  obtain ⟨-, -, hg, ⟨hst, m, st, l, hform⟩ | hform⟩ := fetchFrame_form hi
  · exact headerForm_runsParser hform (h.skip_header hg hst)
  · exact payloadForm_runsParser hform (h.skip_function hg)

/-- The phase advance behind a frame form: phase (d) unless it raised, which the fault latch tells (R216). -/
theorem afterFrame_inbound {s t : State} {x : Host.Outcome State Fault Refusal} (hp : s.phase = .c)
    (hf : s.fault = none) (hx : RunsParser s x) (h : afterFrame x = .next t) : Inbound (slack t.phase) t := by
  obtain ⟨r, rfl, hset, hends⟩ := hx
  obtain ⟨u, hu, hadvance⟩ := afterFrame_cases h
  cases hu
  cases r with
  | ok a u =>
    obtain ⟨hfault, -, -⟩ := hset
    obtain ⟨-, rfl⟩ | ⟨hne, -⟩ := hadvance
    · exact Inbound.congr hends rfl rfl rfl
    · exact absurd (hfault.trans hf) hne
  | raised u =>
    obtain ⟨hfault, hphase, -⟩ := hset
    obtain ⟨hnone, -⟩ | ⟨-, rfl⟩ := hadvance
    · exact absurd hnone hfault
    · rw [hphase, hp]
      exact hends

/-! Every step. -/

theorem coreMove_keeps_inbound {s t : State} (hs : Inbound (slack s.phase) s) (h : coreMove s = .next t) :
    Inbound (slack t.phase) t := by
  obtain h | ⟨i, hi, h⟩ := coreMove_cases h
  · exact coreStep_keeps_inbound hs h
  · obtain ⟨hp, hf, -⟩ := fetchFrame_form hi
    rw [hp] at hs
    exact afterFrame_inbound hp hf (fetchFrame_runsParser hs hi) h

/-- Settles O54: the table by `step_keeps`, the occupancy by the core's phases and frame forms; the other agents touch
none of it. -/
theorem stepsKeepStatesSound : Obligations.StepsKeepStatesSound := by
  unfold Obligations.StepsKeepStatesSound
  intro s t hs h
  have htab : TableOk t := step_keeps (fun _ h => h) (fun _ h => h) exec_keeps_tableOk hs.1 h
  obtain ⟨e, h | rfl | ⟨i, hi, h⟩⟩ := step_cases h
  · have hin := ((sound_iff _).mp (hs.congr (setEnv_sameCore s e))).2
    exact (sound_iff t).mpr ⟨htab, coreMove_keeps_inbound hin h⟩
  · exact hs.congr (setEnv_sameCore s e)
  · exact (hs.congr (setEnv_sameCore s e)).congr (environment_sameCore hi h)

end Sys2Proof.Machine
end

section
/-! PROOFS. The memory model (`20_memory.md`): the ring arrays stay canonical, and the calls of user handlers through
`invoke`, which peek the cells of their window. -/

namespace Sys2Proof.Machine

/-! The ring arrays. -/

theorem exec_keeps_ringsWf {i : Instr} {s t : State} (hs : RingsWf s) (h : exec i s = .next t) : RingsWf t := by
  obtain hx | ⟨-, tab, -, rfl⟩ := exec_cases h
  · exact hx.rings hs
  · exact hs

/-- Settles O52: `Extends` carries the canonical form, which looks neither at `env` nor at the phase. -/
theorem ringArraysStayCanonical : Obligations.RingArraysStayCanonical := by
  unfold Obligations.RingArraysStayCanonical
  exact ⟨fun _ _ _ hs h => exec_keeps_ringsWf hs h,
    fun _ _ hs h => step_keeps (fun _ h => h) (fun _ h => h) exec_keeps_ringsWf hs h⟩

/-! The call of a user handler. -/

theorem exec_invoke_user {id offset : Byte} {s : State} {e : Entry} (he : s.table.entries[id.toNat]? = some e)
    (hu : e.handler = .user) :
    exec (.invoke id offset) s = done (userHandler id offset (window offset e.required s) s) := by
  show execInvoke id offset s = _
  simp [execInvoke, callHandler, he, hu]

/-- A handler that answers with a reply: its peeks, then the rest of its answer (R224, log 9). -/
theorem userHandler_reply {f o status : Byte} {w : List (Option Byte)} {reads payload : List Byte} {effect : WdEffect}
    {s s1 : State} (h : drawAnswer f o w s = (.reply reads status payload effect, s1)) :
    userHandler f o w s = (peekArguments o w reads { s with env := s1.env }).bind fun _ s2 =>
      sendAnswer status payload effect s2 := by
  have hd : drawAnswer f o w s = (.reply reads status payload effect, setEnv s s1.env) := drawAnswer_congr rfl h
  simp [userHandler, hd, setEnv]

theorem applyEffect_eq_withEffect (effect : WdEffect) (s : State) : applyEffect effect s = withEffect effect s := by
  cases effect <;> rfl

@[simp] theorem withEffect_cfg (effect : WdEffect) (s : State) : (withEffect effect s).cfg = s.cfg := by
  cases effect <;> rfl

@[simp] theorem withEffect_txb (effect : WdEffect) (s : State) : (withEffect effect s).txb = s.txb := by
  cases effect <;> rfl

/-- Settles O32: every peek is of a written cell of the window, so the effect and the one reply follow. -/
theorem invokeUserHandler : Obligations.InvokeUserHandler := by
  unfold Obligations.InvokeUserHandler
  intro id offset status reads payload effect s s1 e he hu hd hreads hlen hroom
  rw [← window] at hd
  have hpeek : ∀ k ∈ reads, Peekable (window offset e.required s) k := fun k hk => by
    obtain ⟨hlt, v, hv⟩ := hreads k hk
    exact peekable_window hlt hv
  have hroom' : Room (3 + payload.length) (applyEffect effect { s with env := s1.env }) := by
    rw [applyEffect_eq_withEffect]
    exact hroom.congr (by simp) (by simp)
  refine ⟨_, ?_, pushAll_appended .txb _ _⟩
  rw [exec_invoke_user he hu, userHandler_reply hd, peekArguments_ok hpeek, Res.bind_ok,
    sendAnswer_room _ _ _ _ hlen hroom', done_ok, applyEffect_eq_withEffect, withEffect_cfg]

/-- The first peek that raises ends the call (R57, R176 item 1). -/
theorem exec_invoke_peek_raised {id offset status k : Byte} {before rest payload : List Byte} {effect : WdEffect}
    {s s1 : State} {e : Entry} {fault : ModelFault} (hf : s.fault = none)
    (he : s.table.entries[id.toNat]? = some e) (hu : e.handler = .user)
    (hd : drawAnswer id offset (window offset e.required s) s =
      (.reply (before ++ k :: rest) status payload effect, s1))
    (hbefore : ∀ j ∈ before, Peekable (window offset e.required s) j)
    (hk : peekArgument offset (window offset e.required s) k { s with env := s1.env } =
      raise fault { s with env := s1.env }) :
    exec (.invoke id offset) s = .next { s with env := s1.env, fault := some fault } := by
  rw [exec_invoke_user he hu, userHandler_reply hd, peekArguments_append hbefore, hk, raise, Res.bind_raised,
    Res.bind_raised, done_raised, latch_of_fault_none]
  exact hf

/-- Position `k` of a window is the cell `k` after its offset (R59). -/
theorem window_getElem? (o k : Byte) (n : Nat) (s : State) :
    (window o n s)[k.toNat]? = if k.toNat < n then some (Memory.read s.rxb.data (o + k).toNat) else none := by
  rw [window, cellsFrom_getElem?, indexAt, BitVec.ofNat_toNat, BitVec.setWidth_eq, ringOf_rxb]

/-- Settles O60: the peeks before succeed, and position `k` is an unwritten cell of the window or none of it. -/
theorem handlerPeeksItsWindow : Obligations.HandlerPeeksItsWindow := by
  unfold Obligations.HandlerPeeksItsWindow
  intro id offset status k before rest payload effect s s1 e hf he hu hd hbefore
  have hpeek : ∀ j ∈ before, Peekable (window offset e.required s) j := fun j hj => by
    obtain ⟨hlt, v, hv⟩ := hbefore j hj
    exact peekable_window hlt hv
  have hcell := window_getElem? offset k e.required s
  refine ⟨fun hnone => ?_, fun v hout hv => ?_⟩
  · refine exec_invoke_peek_raised hf he hu hd hpeek ?_
    by_cases hin : k.toNat < e.required
    · exact peekArgument_unwritten (by rw [hcell, if_pos hin, hnone]) _
    · rw [peekArgument_outside (by rw [hcell, if_neg hin])]
      simp only [hnone]
      rfl
  · refine exec_invoke_peek_raised hf he hu hd hpeek ?_
    rw [peekArgument_outside (by rw [hcell, if_neg (by omega)])]
    simp only [hv]
    rfl

end Sys2Proof.Machine
end

section
/-! PROOFS. Which faults a sound state can reach (R246): replies and handlers raise one of three faults, a read of a
queued cell does not raise, and what is left is the peek of a user handler outside its window. -/

namespace Sys2Proof.Machine

/-! The faults of replies, strings and breaches. -/

/-- The faults that do not depend on the state being sound (R125, R176, R191). -/
def ReplyFault (f : ModelFault) : Prop := f = .ringOverflow .txb ∨ (∃ n, f = .stringTooLong n) ∨ f = .handlerContract

theorem replyFault_overflow : ReplyFault (.ringOverflow .txb) := .inl rfl

theorem replyFault_string (n : Nat) : ReplyFault (.stringTooLong n) := .inr (.inl ⟨n, rfl⟩)

theorem replyFault_contract : ReplyFault .handlerContract := .inr (.inr rfl)

/-- A fault that is recorded is one of them. -/
def OnlyReplyFaults (s : State) : Prop := ∀ f, s.fault = some f → ReplyFault f

theorem OnlyReplyFaults.of_none {s : State} (h : s.fault = none) : OnlyReplyFaults s := by
  intro f hf
  rw [h] at hf
  cases hf

theorem OnlyReplyFaults.congr {s t : State} (hs : OnlyReplyFaults s) (h : t.fault = s.fault) : OnlyReplyFaults t := by
  unfold OnlyReplyFaults
  rwa [h]

theorem OnlyReplyFaults.latch {s : State} {f : ModelFault} (hs : OnlyReplyFaults s) (hf : ReplyFault f) :
    OnlyReplyFaults (latch f s) := by
  intro g hg
  cases h : s.fault with
  | none =>
    rw [latch_fault_none s f h] at hg
    cases hg
    exact hf
  | some g' =>
    rw [latch_fault_some s f g' h] at hg
    cases hg
    exact hs _ h

section
variable {s : State} (hs : OnlyReplyFaults s)
include hs

theorem sendFrame_onlyReplyFaults (payload : List Byte) (length status : Byte) :
    OnlyReplyFaults (sendFrame payload length status s).state := by
  obtain ⟨bs, -, h | ⟨-, h⟩⟩ := sendFrame_cases payload length status s <;> rw [h]
  · exact hs.congr (pushAll_fault _ _ _)
  · exact (hs.congr (pushAll_fault _ _ _)).latch replyFault_overflow

theorem sendStatusFrame_onlyReplyFaults (status : Byte) : OnlyReplyFaults (sendStatusFrame status s).state :=
  sendFrame_onlyReplyFaults hs _ _ _

theorem sendStringFrame_onlyReplyFaults (str : List Byte) : OnlyReplyFaults (sendStringFrame str s).state := by
  unfold sendStringFrame
  split
  · exact hs.latch (replyFault_string _)
  · exact sendFrame_onlyReplyFaults hs _ _ _

theorem takeError_onlyReplyFaults (code : Byte) : OnlyReplyFaults (takeError code s).state :=
  Res.bind_keeps (sendStatusFrame_onlyReplyFaults hs code) fun _ _ h => h.congr rfl

theorem namesReply_onlyReplyFaults (id slot : Byte) : OnlyReplyFaults (namesReply id slot s).state := by
  unfold namesReply
  split
  · exact sendStringFrame_onlyReplyFaults hs _
  · unfold namesError
    split
    · split
      · obtain ⟨e, he⟩ := drawBool_setEnv s
        rw [he]
        exact sendStatusFrame_onlyReplyFaults (s := setEnv s e) hs _
      · exact sendStatusFrame_onlyReplyFaults hs _
    · exact sendStatusFrame_onlyReplyFaults hs _

theorem sendAnswer_onlyReplyFaults (status : Byte) (payload : List Byte) (effect : WdEffect) :
    OnlyReplyFaults (sendAnswer status payload effect s).state := by
  unfold sendAnswer
  split
  · exact sendFrame_onlyReplyFaults (hs.congr (applyEffect_fault effect s)) _ _ _
  · exact hs.latch replyFault_contract

theorem reportIf_onlyReplyFaults (bad : Bool) : OnlyReplyFaults (reportIf bad s).state := by
  unfold reportIf
  split
  · exact sendStatusFrame_onlyReplyFaults (s := rbFlush .rxb s) hs _
  · exact hs

theorem judgeHeader_onlyReplyFaults (m st l : Byte) : OnlyReplyFaults (judgeHeader m st l s).state := by
  refine Res.bind_keeps (reportIf_onlyReplyFaults hs _) fun _ s1 h1 => ?_
  obtain ⟨e, he⟩ := secondCheck_setEnv (m != s.cfg.marker) st s1
  rw [he]
  refine Res.bind_keeps (reportIf_onlyReplyFaults (s := setEnv s1 e) h1 _) fun _ s2 h2 => ?_
  split
  · exact h2.congr rfl
  · split
    · exact sendStatusFrame_onlyReplyFaults h2 _
    · exact h2.congr rfl

end

/-- A user handler whose window is all written: one of the three faults, or a peek past the window that raised before
anything but the draw was done. -/
theorem userHandler_faults (f o : Byte) {w : List (Option Byte)} {s : State} (hs : s.fault = none)
    (hw : ∀ k : Nat, w[k]? ≠ some none) :
    OnlyReplyFaults (userHandler f o w s).state ∨
      ∃ e k, w.length ≤ k.toNat ∧ userHandler f o w s = raise (.unwrittenRead .rxb (o + k)) (setEnv s e) := by
  obtain ⟨e, -, h⟩ | ⟨e, reads, status, payload, effect, -, h⟩ := userHandler_cases f o w s <;>
    have he : OnlyReplyFaults (setEnv s e) := .of_none hs
  · rw [h]
    exact .inl (he.latch replyFault_contract)
  · obtain ⟨-, hp⟩ | ⟨fault, hp, rfl | ⟨k, -, rfl, hk⟩⟩ := peekArguments_cases o w reads (setEnv s e) <;>
      rw [h, hp]
    · exact .inl (sendAnswer_onlyReplyFaults he _ _ _)
    · exact .inl (he.latch replyFault_contract)
    · exact .inr ⟨e, k, hk.resolve_left (hw k.toNat), rfl⟩

/-! What a step may record. -/

/-- Where `t` has a fault that `s` had not, it is a reply's or a handler's, or a handler called since `s` peeked an
unwritten cell past its window. -/
def FaultAllowed (s t : State) : Prop :=
  ∀ f, t.fault = some f → ReplyFault f ∨
    ∃ id o k e, f = .unwrittenRead .rxb (o + k) ∧ t.history = s.history ++ [.invoke id o] ∧
      s.table.entries[id.toNat]? = some e ∧ e.handler = .user ∧ e.required ≤ k.toNat

theorem OnlyReplyFaults.allowed {s t : State} (h : OnlyReplyFaults t) : FaultAllowed s t := fun f hf => .inl (h f hf)

theorem FaultAllowed.of_none {s t : State} (h : t.fault = none) : FaultAllowed s t := (OnlyReplyFaults.of_none h).allowed

theorem FaultAllowed.congr {s t u : State} (h : FaultAllowed s t) (hf : u.fault = t.fault)
    (hh : u.history = t.history) : FaultAllowed s u := by
  unfold FaultAllowed
  rwa [hf, hh]

/-- The call of a user handler whose window holds the written argument bytes of its command (R59). -/
theorem userHandler_faultAllowed {s s1 : State} {f o : Byte} {w : List (Option Byte)} {e : Entry}
    (he : s.table.entries[f.toNat]? = some e) (hu : e.handler = .user) (hlen : w.length = e.required)
    (hw : ∀ k : Nat, w[k]? ≠ some none) (hf : s1.fault = none) (hh : s1.history = s.history ++ [.invoke f o]) :
    FaultAllowed s (userHandler f o w s1).state := by
  obtain h | ⟨env, k, hk, h⟩ := userHandler_faults f o hf hw
  · exact h.allowed
  · intro g hg
    rw [h] at hg ⊢
    cases (latch_fault_none (setEnv s1 env) _ hf).symm.trans hg
    exact .inr ⟨f, o, k, e, rfl, hh, he, hu, hlen ▸ hk⟩

/-- The end of a frame records no fault (R147). -/
theorem finish_faultAllowed {s : State} {r : Res Unit} (h : FaultAllowed s r.state) :
    FaultAllowed s (r.bind fun _ s1 => .ok () (finishFrame s1)).state :=
  Res.bind_keeps h fun _ _ h1 => h1.congr rfl rfl

/-! The entries of the table startup built. -/

theorem TableOk.entry {s : State} {i : Nat} {e : Entry} (h : TableOk s) (he : s.table.entries[i]? = some e) :
    ∃ c, s.cfg.commands[i]? = some c ∧ e = entryFor s.cfg i c := by
  obtain ⟨⟨h2, h255, -⟩, hb⟩ := h
  have htab : s.table = { entries := buildEntries s.cfg 0 s.cfg.commands } :=
    (Option.some.inj ((buildTable_of_legal h2 h255).symm.trans hb)).symm
  rw [htab, getElem?_buildEntries, Option.map_eq_some_iff] at he
  obtain ⟨c, hc, rfl⟩ := he
  exact ⟨c, hc, by rw [Nat.zero_add]⟩

/-- get-command-names takes its two arguments and nothing more (R179, R181). -/
theorem TableOk.required_names {s : State} {i : Nat} {e : Entry} (h : TableOk s)
    (he : s.table.entries[i]? = some e) (hn : e.handler = .commandNames) : e.required = 2 := by
  obtain ⟨c, hc, rfl⟩ := h.entry he
  have hi : i = 1 := by
    change handlerAt i = .commandNames at hn
    rw [handlerAt_eq_ite] at hn
    by_contra hne
    by_cases h0 : i = 0 <;> simp [h0, hne] at hn
  obtain ⟨⟨-, -, -, h2, -⟩, -⟩ := h
  subst hi
  rw [hc] at h2
  exact Option.some.inj h2

/-- An id that is not a built-in's has a user handler (R77). -/
theorem TableOk.handler_user {s : State} {i : Nat} {e : Entry} (h : TableOk s) (he : s.table.entries[i]? = some e)
    (hi : 2 ≤ i) : e.handler = .user := by
  obtain ⟨c, -, rfl⟩ := h.entry he
  show handlerAt i = .user
  rw [handlerAt_eq_ite, if_neg (by omega), if_neg (by omega)]

/-! Reads of queued cells. -/

/-- The cell `k` behind the tail of a ring that queues more than `k` bytes holds a value (R150). -/
theorem QueuedWritten.cell {b : RingId} {s : State} {k : Nat} (h : QueuedWritten b s) (hk : k < (rbCount b s).toNat) :
    ∃ v, Memory.read (ringOf s b).data (indexAt (ringOf s b).tail k).toNat = some v :=
  Option.isSome_iff_exists.mp (h k hk)

/-- The oldest queued byte can be popped (R102, R150). -/
theorem QueuedWritten.pop {b : RingId} {s : State} (h : QueuedWritten b s) (hn : 1 ≤ (rbCount b s).toNat) :
    ∃ v, rbPop b s = .ok v (setRing s b { ringOf s b with tail := (ringOf s b).tail + 1 }) := by
  obtain ⟨v, hv⟩ := h.cell (k := 0) hn
  rw [indexAt_zero] at hv
  exact ⟨v, rbPop_some hv⟩

/-- A window over queued cells is all written (R59, R150). -/
theorem QueuedWritten.window_written {s : State} {n : Nat} (h : QueuedWritten .rxb s) (hn : n ≤ (rbCount .rxb s).toNat)
    (k : Nat) : (window s.rxb.tail n s)[k]? ≠ some none := by
  rw [window, cellsFrom_getElem?]
  split
  · obtain ⟨v, hv⟩ := h.cell (k := k) (by omega)
    simp only [ringOf_rxb] at hv ⊢
    simp [hv]
  · simp

theorem cellsFrom_length (b : RingId) (s : State) (i : Byte) (n : Nat) : (cellsFrom b s i n).length = n := by
  induction n generalizing i with
  | zero => rfl
  | succ n ih => simp [cellsFrom, ih]

/-- get-command-names reads its two arguments among the queued bytes (R179). -/
theorem commandNames_onlyReplyFaults {s : State} (hs : OnlyReplyFaults s) (hq : QueuedWritten .rxb s)
    (hn : 2 ≤ (rbCount .rxb s).toNat) : OnlyReplyFaults (commandNames s.rxb.tail s).state := by
  obtain ⟨id, hid⟩ := hq.cell (k := 0) (by omega)
  obtain ⟨slot, hslot⟩ := hq.cell (k := 1) (by omega)
  rw [indexAt_zero, ringOf_rxb] at hid
  rw [ringOf_rxb] at hslot
  rw [commandNames, rbPeek, memRead_some (b := .rxb) hid, Res.bind_ok, rbPeek, memRead_some (b := .rxb) hslot,
    Res.bind_ok]
  exact namesReply_onlyReplyFaults hs id slot

/-! The payload stage. -/

/-- The call of the handler of a frame whose argument bytes are all queued, whichever handler it is (R175, R151). -/
theorem callHandler_faultAllowed {s : State} {f : Byte} {e : Entry} (htab : TableOk s) (hq : QueuedWritten .rxb s)
    (hf : s.fault = none) (he : s.table.entries[f.toNat]? = some e) (hn : e.required = (rbCount .rxb s).toNat) :
    FaultAllowed s (callHandler e f s.rxb.tail (emit (.invoke f s.rxb.tail) s)).state := by
  have hs : OnlyReplyFaults (emit (.invoke f s.rxb.tail) s) := .of_none hf
  have hq' : QueuedWritten .rxb (emit (.invoke f s.rxb.tail) s) := hq
  unfold callHandler
  split
  · exact (sendFrame_onlyReplyFaults hs _ _ _).allowed
  · have h2 := htab.required_names he ‹_›
    exact (commandNames_onlyReplyFaults hs hq' (by rw [← h2, hn]; exact le_rfl)).allowed
  · exact userHandler_faultAllowed he ‹_› (cellsFrom_length _ _ _ _) (hq'.window_written hn.le) hf rfl

/-- The payload step past its pop, the parser having waited for exactly the queued bytes and the popped one (R147,
R151). -/
theorem judgePayload_faultAllowed {s : State} {l : Byte} (f : Byte) (htab : TableOk s) (hq : QueuedWritten .rxb s)
    (hf : s.fault = none) (hl : l.toNat = 1 + (rbCount .rxb s).toNat) :
    FaultAllowed s (judgePayload l f s).state := by
  unfold judgePayload
  split
  · exact (takeError_onlyReplyFaults (.of_none hf) _).allowed
  · split
    · exact (takeError_onlyReplyFaults (.of_none hf) _).allowed
    · exact finish_faultAllowed (callHandler_faultAllowed htab hq hf ‹_› (by omega))

theorem payloadStep_faultAllowed {s : State} (htab : TableOk s) (h : Inbound 0 s) (hg : gate s = true)
    (hf : s.fault = none) : FaultAllowed s (payloadStep s).state := by
  have hn : 1 ≤ (rbCount .rxb s).toNat := by rw [h.count_of_gate hg]; exact h.parser.wait_pos
  have hcount : (rbCount .rxb (skipInbound 1 s)).toNat = (rbCount .rxb s).toNat - 1 :=
    rbCount_skip (b := .rxb) (n := 1) rfl hn
  obtain ⟨f, hp⟩ := h.rxb.pop hn
  rw [payloadStep, hp, Res.bind_ok]
  refine judgePayload_faultAllowed (s := skipInbound 1 s) f htab (h.skip_function hg).rxb hf ?_
  rw [hcount, ← h.count_of_gate hg]
  omega

theorem parseService_faultAllowed {s : State} (htab : TableOk s) (h : Inbound 0 s) (hf : s.fault = none) :
    FaultAllowed s (parseService s).state := by
  unfold parseService
  split
  · split
    · obtain ⟨m, st, l, hcells⟩ := h.header_cells ‹_› ‹_›
      rw [headerStep_cells hcells]
      have hs : OnlyReplyFaults (skipInbound 3 s) := .of_none hf
      exact (judgeHeader_onlyReplyFaults hs m st l).allowed
    · exact payloadStep_faultAllowed htab h ‹_› hf
  · exact .of_none hf

/-! The other phases record no fault. -/

theorem guardedPush_of_count {b : RingId} {s : State} (v : Byte) (h : (rbCount b s).toNat < 255) :
    guardedPush b v s = .ok () (rbPush b v s) := by
  refine if_neg ?_
  rintro ⟨-, hc⟩
  rw [hc] at h
  exact absurd h (by decide)

/-- There is room for the byte of phase (a): the parser waits for at most 255 (R151 (1)). -/
theorem rxService_fault {s : State} (h : Inbound 1 s) : (rxService s).state.fault = s.fault := by
  have hlt : (rbCount .rxb s).toNat < 255 := by
    have hroom := h.room
    have hwait := s.ps.wait.isLt
    omega
  obtain hr | hr := rxService_cases s <;> rw [hr]
  · rfl
  · rw [guardedPush_of_count]
    · rfl
    · exact hlt

/-- The byte that phase (b) pops was written (R150). -/
theorem tryTransmit_fault {s : State} (h : QueuedWritten .txb s) : (tryTransmit s).state.fault = s.fault := by
  unfold tryTransmit
  split
  · rename_i hen
    obtain ⟨v, hp⟩ := h.pop ((rbEmpty_eq_false_iff .txb s).mp hen.1)
    rw [hp]
    rfl
  · rfl

theorem checkWatchdog_fault (s : State) : (checkWatchdog s).fault = s.fault := by
  obtain ⟨e, b, evs, h⟩ := checkWatchdog_eq s
  rw [h]

theorem phaseOperation_faultAllowed {s : State} (hs : Sound s) (hf : s.fault = none) :
    FaultAllowed s (phaseOperation s).state := by
  obtain ⟨htab, hin⟩ := (sound_iff s).mp hs
  cases hp : s.phase <;> rw [hp] at hin
  case a => exact phaseOperation_a hp ▸ .of_none ((rxService_fault hin).trans hf)
  case b => exact phaseOperation_b hp ▸ .of_none ((tryTransmit_fault hin.txb).trans hf)
  case c => exact phaseOperation_c hp ▸ parseService_faultAllowed htab hin hf
  case d => exact phaseOperation_d hp ▸ .of_none ((checkWatchdog_fault s).trans hf)

theorem coreStep_faultAllowed {s t : State} (hs : Sound s) (hf : s.fault = none) (h : exec .coreStep s = .next t) :
    FaultAllowed s t := by
  obtain ⟨p, rfl⟩ := execCoreStep_state h
  exact (phaseOperation_faultAllowed hs hf).congr rfl rfl

/-! The frame forms (log 16). -/

/-- What the decoder knows of a frame for a user command (R81). -/
theorem decodeCommand_reqUser {v : View} {m f m' f' : Byte} {args args' : List Byte}
    (h : decodeCommand v m f args = .ok (.reqUser m' f' args')) :
    2 ≤ f'.toNat ∧ v.required[f'.toNat]? = some args'.length := by
  unfold decodeCommand at h
  split at h
  · cases h
  · split at h
    · cases h
    · rename_i n hn hlen
      split at h
      · split at h <;> cases h
      · split at h
        · split at h <;> cases h
        · rename_i h0 h1
          cases h
          have hne0 : f.toNat ≠ 0 := fun hc => h0 (BitVec.eq_of_toNat_eq hc)
          have hne1 : f.toNat ≠ 1 := fun hc => h1 (BitVec.eq_of_toNat_eq hc)
          exact ⟨by omega, by rw [hn, not_not.mp hlen]⟩

theorem decodePayload_reqUser {v : View} {m l m' f : Byte} {bs args rest : List Byte}
    (h : decodePayload v m l bs = .ok (.reqUser m' f args, rest)) :
    2 ≤ f.toNat ∧ v.required[f.toNat]? = some args.length := by
  unfold decodePayload at h
  split at h
  · cases h
  · split at h
    · cases h
    · split at h <;> cases h
      exact decodeCommand_reqUser ‹_›

theorem decodeInbound_reqUser {v : View} {m f : Byte} {bs args rest : List Byte}
    (h : decodeInbound v bs = .ok (.reqUser m f args, rest)) :
    2 ≤ f.toNat ∧ v.required[f.toNat]? = some args.length := by
  unfold decodeInbound at h
  split at h
  · split at h
    · cases h
    · split at h
      · cases h
      · split at h
        · cases h
        · exact decodePayload_reqUser h
  · cases h

/-- The frame before the parser was decoded with the table's widths (R81). -/
theorem fetchFrame_decoded {s : State} {i : Instr} (h : fetchFrame s = some i) :
    ∃ bs rest, decodeInbound (tableView s.cfg s.table) bs = .ok (i, rest) := by
  unfold fetchFrame at h
  split at h
  · split at h
    · cases h
    · split at h <;> cases h
      exact ⟨_, _, ‹_›⟩
  · cases h

/-- A frame for a user command has the argument bytes its command takes (R81, R177). -/
theorem fetchFrame_reqUser {s : State} {m f : Byte} {args : List Byte} (htab : TableOk s)
    (h : fetchFrame s = some (.reqUser m f args)) :
    ∃ e, s.table.entries[f.toNat]? = some e ∧ e.handler = .user ∧ args.length = e.required := by
  obtain ⟨bs, rest, hd⟩ := fetchFrame_decoded h
  obtain ⟨hf, hreq⟩ := decodeInbound_reqUser hd
  rw [tableView, List.getElem?_map, Option.map_eq_some_iff] at hreq
  obtain ⟨e, he, hlen⟩ := hreq
  exact ⟨e, he, htab.handler_user he hf, hlen.symm⟩

/-- The dispatch of a frame whose handler only replies (R147). -/
theorem dispatched_faultAllowed {s : State} (f : Byte) {handler : State → Res Unit} (hf : s.fault = none)
    (hh : ∀ {s1}, OnlyReplyFaults s1 → OnlyReplyFaults (handler s1).state) :
    FaultAllowed s (dispatched f handler s).state := by
  have hs : OnlyReplyFaults (emit (.invoke f (s.rxb.tail + 1)) (skipInbound 1 s)) := .of_none hf
  exact finish_faultAllowed (hh hs).allowed

theorem fetchFrame_faultAllowed {s t : State} {i : Instr} (htab : TableOk s) (hi : fetchFrame s = some i)
    (h : exec i s = .next t) : FaultAllowed s t := by
  obtain ⟨-, hf, -, ⟨-, m, st, l, rfl | rfl | rfl⟩ | ⟨m, f, args, rfl | rfl | rfl | ⟨id, slot, rfl⟩ | rfl⟩⟩ :=
    fetchFrame_form hi <;> cases h <;>
    have hs : ∀ n, OnlyReplyFaults (skipInbound n s) := fun _ => .of_none hf
  · exact (judgeHeader_onlyReplyFaults (hs 3) m st l).allowed
  · exact (judgeHeader_onlyReplyFaults (hs 3) m st l).allowed
  · exact (sendStatusFrame_onlyReplyFaults (hs 3) _).allowed
  · exact (takeError_onlyReplyFaults (hs 1) _).allowed
  · exact (takeError_onlyReplyFaults (hs 1) _).allowed
  · exact dispatched_faultAllowed _ hf fun h => sendFrame_onlyReplyFaults h _ _ _
  · exact dispatched_faultAllowed _ hf fun h => namesReply_onlyReplyFaults h id slot
  · obtain ⟨e, he, hu, hlen⟩ := fetchFrame_reqUser htab hi
    exact finish_faultAllowed (userHandler_faultAllowed he hu (by simpa using hlen) (by simp) hf rfl)

/-! Every step. -/

theorem coreMove_faultAllowed {s t : State} (hs : Sound s) (hf : s.fault = none) (h : coreMove s = .next t) :
    FaultAllowed s t := by
  obtain h | ⟨i, hi, h⟩ := coreMove_cases h
  · exact coreStep_faultAllowed hs hf h
  · obtain ⟨u, hu, ⟨-, rfl⟩ | ⟨-, rfl⟩⟩ := afterFrame_cases h
    · exact (fetchFrame_faultAllowed hs.1 hi hu).congr rfl rfl
    · exact fetchFrame_faultAllowed hs.1 hi hu

/-- The moves of the tick source and the serial environment (R203, R221) record no fault. -/
theorem environment_fault {i : Instr} {s t : State}
    (hi : (∃ v, i = .envRxArrive v) ∨ (∃ r, i = .envTxReady r) ∨ i = .wdTick) (h : exec i s = .next t) :
    t.fault = s.fault := by
  obtain ⟨v, rfl⟩ | ⟨r, rfl⟩ | rfl := hi
  · obtain ⟨e, rfl⟩ := execEnvRxArrive_cases h
    rfl
  · cases h
    rfl
  · cases h
    rfl

theorem step_faultAllowed {s t : State} (hs : Sound s) (hf : s.fault = none) (h : step s = .next t) :
    FaultAllowed s t := by
  obtain ⟨e, h | rfl | ⟨i, hi, h⟩⟩ := step_cases h
  · exact coreMove_faultAllowed (s := setEnv s e) (hs.congr (setEnv_sameCore s e)) hf h
  · exact .of_none hf
  · exact .of_none ((environment_fault hi h).trans hf)

/-- Settles O55: phases (a), (b) and (d) record no fault, as soundness bounds RXB and says that queued cells are
written; phase (c) replies or calls a handler whose window is queued. -/
theorem onlyRepliesAndHandlersFault : Obligations.OnlyRepliesAndHandlersFault := by
  unfold Obligations.OnlyRepliesAndHandlersFault
  intro s t f hs hf h ht
  obtain (hover | hstring | hcontract) | hpeek := step_faultAllowed hs hf h f ht
  · exact .inl hover
  · exact .inr (.inl hstring)
  · exact .inr (.inr (.inl hcontract))
  · exact .inr (.inr (.inr hpeek))

end Sys2Proof.Machine
end

section
/-! PROOFS. The frame codec (`30_encoding.md` sections 1, 3 and 4): what the inbound decoder accepts is exactly the
encodings of the well-formed inbound forms, and the outbound forms come back too. -/

namespace Sys2Proof.Machine

/-! The decoder, said once. -/

/-- The bytes of a frame with a good header and a payload, in wire order (R70, R74). -/
def commandBytes (m f : Byte) (args : List Byte) : List Byte :=
  m :: 0x00#8 :: BitVec.ofNat 8 (args.length + 1) :: f :: args

/-- Up to 255 payload bytes, the length byte says how many they are (R71, R74). -/
theorem lengthByte_toNat {n : Nat} (h : n ≤ 255) : (BitVec.ofNat 8 n).toNat = n := by
  rw [BitVec.toNat_ofNat]
  omega

/-- A length byte of 1 or more names a payload of up to 255 bytes. -/
theorem lengthByte_ne_zero {n : Nat} (h1 : 1 ≤ n) (h : n ≤ 255) : BitVec.ofNat 8 n ≠ 0x00#8 := fun hz => by
  have h0 : n = 0 := by
    rw [← lengthByte_toNat h, hz]
    rfl
  omega

/-- A payload decodes when all its bytes are there and form a command (R74, R147). -/
theorem decodePayload_eq_ok_iff {v : View} {m l : Byte} {bs rest : List Byte} {i : Instr} :
    decodePayload v m l bs = .ok (i, rest) ↔
      ∃ f args, bs = f :: (args ++ rest) ∧ args.length = l.toNat - 1 ∧ decodeCommand v m f args = .ok i := by
  constructor
  · intro h
    unfold decodePayload at h
    split at h
    · cases h
    · rename_i f tail
      split at h
      · cases h
      · split at h <;> cases h
        exact ⟨f, tail.take (l.toNat - 1), by rw [List.take_append_drop], by rw [List.length_take]; omega, ‹_›⟩
  · rintro ⟨f, args, rfl, hlen, hd⟩
    simp [decodePayload, ← hlen, hd]

/-- Everything the inbound decoder accepts (R81: the first row that matches): a bad header, an acknowledge request, or a
command with its argument bytes. -/
theorem decodeInbound_cases {v : View} {bs rest : List Byte} {i : Instr} (h : decodeInbound v bs = .ok (i, rest)) :
    (∃ m s l, m ≠ v.marker ∧ bs = [m, s, l] ++ rest ∧ i = .badMarker m s l) ∨
    (∃ s l, s ≠ 0x00#8 ∧ bs = [v.marker, s, l] ++ rest ∧ i = .badStatus v.marker s l) ∨
    (bs = [v.marker, 0x00#8, 0x00#8] ++ rest ∧ i = .reqAck v.marker) ∨
    ∃ f args, args.length ≤ 254 ∧ bs = commandBytes v.marker f args ++ rest ∧
      decodeCommand v v.marker f args = .ok i := by
  unfold decodeInbound at h
  split at h
  · rename_i m s l tail
    split at h
    · cases h
      exact .inl ⟨m, s, l, ‹_›, rfl, rfl⟩
    · obtain rfl : m = v.marker := not_not.mp ‹_›
      split at h
      · cases h
        exact .inr (.inl ⟨s, l, ‹_›, rfl, rfl⟩)
      · obtain rfl : s = 0x00#8 := not_not.mp ‹_›
        split at h
        · subst l
          cases h
          exact .inr (.inr (.inl ⟨rfl, rfl⟩))
        · rename_i hl
          obtain ⟨f, args, rfl, hlen, hd⟩ := decodePayload_eq_ok_iff.mp h
          have hpos : l.toNat ≠ 0 := fun h0 => hl (BitVec.eq_of_toNat_eq h0)
          have hlt := l.isLt
          have hbyte : BitVec.ofNat 8 (args.length + 1) = l :=
            BitVec.eq_of_toNat_eq (by rw [lengthByte_toNat] <;> omega)
          exact .inr (.inr (.inr ⟨f, args, by omega, by simp [commandBytes, hbyte], hd⟩))
  · cases h

/-- A command with its argument bytes decodes, with the bytes after it (R74, R81). -/
theorem decodeInbound_commandBytes {v : View} {f : Byte} {args : List Byte} {i : Instr} (rest : List Byte)
    (hlen : args.length ≤ 254) (hd : decodeCommand v v.marker f args = .ok i) :
    decodeInbound v (commandBytes v.marker f args ++ rest) = .ok (i, rest) := by
  have hl : BitVec.ofNat 8 (args.length + 1) ≠ 0x00#8 := lengthByte_ne_zero (by omega) (by omega)
  have hp : decodePayload v v.marker (BitVec.ofNat 8 (args.length + 1)) (f :: (args ++ rest)) = .ok (i, rest) :=
    decodePayload_eq_ok_iff.mpr ⟨f, args, rfl, by rw [lengthByte_toNat] <;> omega, hd⟩
  simpa [commandBytes, decodeInbound, hl] using hp

/-! The five forms of a command (R81, R147). -/

/-- A command that decodes is well formed, and its encoding is the frame it was read from. -/
theorem decodeCommand_wellFormed {v : View} {f : Byte} {args : List Byte} {i : Instr} (hlen : args.length ≤ 254)
    (h : decodeCommand v v.marker f args = .ok i) :
    WellFormed v i = true ∧ encode i = some (commandBytes v.marker f args) := by
  unfold decodeCommand at h
  split at h
  · rename_i hnone
    rw [List.getElem?_eq_none_iff] at hnone
    cases h
    exact ⟨by simp [WellFormed, View.nfunc, hnone, hlen], rfl⟩
  · rename_i n hn
    split at h
    · rename_i hne
      obtain ⟨hlt, rfl⟩ := List.getElem?_eq_some_iff.mp hn
      cases h
      exact ⟨by simp [WellFormed, View.nfunc, hlt, hlen, Ne.symm hne], rfl⟩
    · obtain rfl : args.length = n := not_not.mp ‹_›
      split at h
      · subst f
        split at h <;> cases h
        exact ⟨by simpa [WellFormed] using hn, rfl⟩
      · rename_i h0
        split at h
        · subst f
          split at h <;> cases h
          exact ⟨by simpa [WellFormed] using hn, rfl⟩
        · rename_i h1
          cases h
          have hne0 : f.toNat ≠ 0 := fun hc => h0 (BitVec.eq_of_toNat_eq hc)
          have hne1 : f.toNat ≠ 1 := fun hc => h1 (BitVec.eq_of_toNat_eq hc)
          have h2 : 2 ≤ f.toNat := by omega
          exact ⟨by simp [WellFormed, h2, hn, hlen], rfl⟩

/-- A well-formed form with a payload is what its function id and its argument bytes decode to. -/
theorem decodeCommand_of_wellFormed {v : View} {i : Instr} (hi : PayloadForm i) (hw : WellFormed v i = true) :
    ∃ f args, args.length ≤ 254 ∧ encode i = some (commandBytes v.marker f args) ∧
      decodeCommand v v.marker f args = .ok i := by
  obtain ⟨m, f, args, rfl | rfl | rfl | ⟨id, slot, rfl⟩ | rfl⟩ := hi <;>
    simp only [WellFormed, Bool.and_eq_true, beq_iff_eq, bne_iff_ne, ne_eq, decide_eq_true_eq] at hw
  · obtain ⟨⟨rfl, hf⟩, hlen⟩ := hw
    exact ⟨f, args, hlen, rfl, by simp [decodeCommand, List.getElem?_eq_none_iff.mpr hf]⟩
  · obtain ⟨⟨⟨rfl, hf⟩, hne⟩, hlen⟩ := hw
    have hn := List.getElem?_eq_getElem hf
    have hwidth : args.length ≠ v.required[f.toNat] := fun hc => hne (by rw [hn, hc])
    exact ⟨f, args, hlen, rfl, by simp [decodeCommand, hn, hwidth]⟩
  · obtain ⟨rfl, hn⟩ := hw
    exact ⟨0x00#8, [], by simp, rfl, by simp [decodeCommand, hn]⟩
  · obtain ⟨rfl, hn⟩ := hw
    exact ⟨0x01#8, [id, slot], by simp, rfl, by simp [decodeCommand, hn]⟩
  · obtain ⟨⟨⟨rfl, hf⟩, hn⟩, hlen⟩ := hw
    have h0 : f ≠ 0x00#8 := fun hc => absurd hf (by rw [hc]; decide)
    have h1 : f ≠ 0x01#8 := fun hc => absurd hf (by rw [hc]; decide)
    exact ⟨f, args, hlen, rfl, by simp [decodeCommand, hn, h0, h1]⟩

/-! The round trips. -/

/-- The forms that have an encoding: the three of a header alone, the five with a payload, the two outbound ones. -/
theorem encode_cases {i : Instr} {bs : List Byte} (h : encode i = some bs) :
    (∃ m s l, i = .badMarker m s l ∨ i = .badStatus m s l ∨ i = .reqAck m) ∨ PayloadForm i ∨
      (∃ m s, i = .rspStatus m s) ∨ ∃ m s p, i = .rspData m s p := by
  cases i with
  | badMarker m s l => exact .inl ⟨m, s, l, .inl rfl⟩
  | badStatus m s l => exact .inl ⟨m, s, l, .inr (.inl rfl)⟩
  | reqAck m => exact .inl ⟨m, 0x00#8, 0x00#8, .inr (.inr rfl)⟩
  | badFunc m f args => exact .inr (.inl ⟨m, f, args, .inl rfl⟩)
  | badCount m f args => exact .inr (.inl ⟨m, f, args, .inr (.inl rfl)⟩)
  | reqCount m => exact .inr (.inl ⟨m, 0x00#8, [], .inr (.inr (.inl rfl))⟩)
  | reqNames m id slot => exact .inr (.inl ⟨m, 0x01#8, [], .inr (.inr (.inr (.inl ⟨id, slot, rfl⟩)))⟩)
  | reqUser m f args => exact .inr (.inl ⟨m, f, args, .inr (.inr (.inr (.inr rfl)))⟩)
  | rspStatus m s => exact .inr (.inr (.inl ⟨m, s, rfl⟩))
  | rspData m s p => exact .inr (.inr (.inr ⟨m, s, p, rfl⟩))
  | _ => cases h

/-- A well-formed form that ends with its header (R81). -/
theorem decodeInbound_headerForm {v : View} {i : Instr} {m s l : Byte} {bs : List Byte} (rest : List Byte)
    (hi : i = .badMarker m s l ∨ i = .badStatus m s l ∨ i = .reqAck m) (hw : WellFormed v i = true)
    (he : encode i = some bs) : decodeInbound v (bs ++ rest) = .ok (i, rest) := by
  obtain rfl | rfl | rfl := hi <;> cases he <;>
    simp only [WellFormed, Bool.and_eq_true, beq_iff_eq, bne_iff_ne, ne_eq] at hw
  · simp [decodeInbound, hw]
  · simp [decodeInbound, hw]
  · simp [decodeInbound, hw]

/-- Settles O47: by the form, a header alone or a command with its argument bytes. -/
theorem inboundFramesRoundTrip : Obligations.InboundFramesRoundTrip := by
  unfold Obligations.InboundFramesRoundTrip
  intro v i bs rest hw he hstatus hdata
  obtain ⟨m, s, l, hi⟩ | hi | ⟨m, s, rfl⟩ | ⟨m, s, p, rfl⟩ := encode_cases he
  · exact decodeInbound_headerForm rest hi hw he
  · obtain ⟨f, args, hlen, hbytes, hd⟩ := decodeCommand_of_wellFormed hi hw
    obtain rfl : commandBytes v.marker f args = bs := Option.some.inj (hbytes.symm.trans he)
    exact decodeInbound_commandBytes rest hlen hd
  · exact absurd rfl (hstatus m s)
  · exact absurd rfl (hdata m s p)

/-- Settles O49: each row of R81 that the decoder can match encodes to the bytes that matched it. -/
theorem decodedFramesAreWellFormed : Obligations.DecodedFramesAreWellFormed := by
  unfold Obligations.DecodedFramesAreWellFormed
  intro v i bs rest h
  obtain ⟨m, s, l, hm, rfl, rfl⟩ | ⟨s, l, hs, rfl, rfl⟩ | ⟨rfl, rfl⟩ | ⟨f, args, hlen, rfl, hd⟩ :=
    decodeInbound_cases h
  · exact ⟨by simp [WellFormed, hm], _, rfl, rfl⟩
  · exact ⟨by simp [WellFormed, hs], _, rfl, rfl⟩
  · exact ⟨by simp [WellFormed], _, rfl, rfl⟩
  · obtain ⟨hw, he⟩ := decodeCommand_wellFormed hlen hd
    exact ⟨hw, _, he, rfl⟩

/-- Settles O48: RSP.STATUS has length byte 0, RSP.DATA the number of its payload bytes. -/
theorem outboundFramesRoundTrip : Obligations.OutboundFramesRoundTrip := by
  unfold Obligations.OutboundFramesRoundTrip
  intro v i bs rest hw he hi
  obtain ⟨m, s, rfl⟩ | ⟨m, s, payload, rfl⟩ := hi <;> cases he <;>
    simp only [WellFormed, Bool.and_eq_true, beq_iff_eq, decide_eq_true_eq] at hw
  · simp [decodeOutbound, hw]
  · obtain ⟨⟨rfl, hpos⟩, hmax⟩ := hw
    have hne := lengthByte_ne_zero hpos hmax
    simp only [List.cons_append, decodeOutbound, ne_eq, not_true_eq_false, if_false, hne, lengthByte_toNat hmax]
    simp

/-- Settles O46: the decoders run on the words. -/
theorem frameWordsDecode : Obligations.FrameWordsDecode := by
  unfold Obligations.FrameWordsDecode
  exact ⟨rfl, rfl, rfl, rfl, rfl, rfl⟩

end Sys2Proof.Machine
end

section
/-! PROOFS. Frames as instructions (log 16, log 20): the replies the outbound forms enqueue, and the agreement of the
inbound forms with the parser's steps on every state whose table is as startup built it. -/

namespace Sys2Proof.Machine

/-! The outbound forms (R82). -/

/-- R192 without room: the bytes that fit stay enqueued and the latch takes the overflow (R125). -/
theorem sendStatusFrame_overflow (status : Byte) {s : State} (hp : s.cfg.overflowPolicy = .fault)
    (h : 252 < (rbCount .txb s).toNat) :
    sendStatusFrame status s = .raised (latch (.ringOverflow .txb)
      (pushAll .txb ([s.cfg.marker, status, 0x00#8].take (255 - (rbCount .txb s).toNat)) s)) :=
  enqueueAll_overflow [s.cfg.marker, status, 0x00#8] s hp (show 255 < (rbCount .txb s).toNat + 3 by omega)

/-- Settles O13: both instructions are `sendStatusFrame`, with room and without. -/
theorem statusFramesAreThreeBytes : Obligations.StatusFramesAreThreeBytes := by
  unfold Obligations.StatusFramesAreThreeBytes
  intro m status s i hi
  have hexec : exec i s = done (sendStatusFrame status s) := by
    obtain rfl | rfl := hi <;> rfl
  refine ⟨fun hroom => ⟨_, ?_, pushAll_appended .txb _ s⟩, fun hf hp hover => ⟨_, ?_, pushAll_appended .txb _ s⟩⟩
  · rw [hexec, sendStatusFrame_room status s hroom, done_ok]
  · rw [hexec, sendStatusFrame_overflow status hp hover, done_raised, latch_of_fault_none]
    rw [pushAll_fault, hf]

/-- Settles O14: a payload of at most 255 bytes is sent whole, behind its length. -/
theorem dataFramesCarryTheirLength : Obligations.DataFramesCarryTheirLength := by
  unfold Obligations.DataFramesCarryTheirLength
  intro m status payload s hlen hroom
  have hn := lengthByte_toNat hlen
  have hbytes : replyBytes payload (BitVec.ofNat 8 payload.length) status s =
      s.cfg.marker :: status :: BitVec.ofNat 8 payload.length :: payload := by simp [replyBytes, hn]
  refine ⟨_, ?_, pushAll_appended .txb _ s⟩
  show execRspData m status payload s = _
  rw [execRspData, if_pos hlen, sendFrame_room _ _ _ _ hn.le (by rwa [hn]), hbytes, done_ok]

/-! The frame before the parser. -/

/-- The bytes fetched are the cells of the inbound ring, all written (R57). -/
theorem cellsFrom_of_fetchBytes {s : State} {i : Byte} {n : Nat} {bs : List Byte} (h : fetchBytes s i n = some bs) :
    cellsFrom .rxb s i n = bs.map some := by
  induction n generalizing i bs with
  | zero =>
    cases h
    rfl
  | succ n ih =>
    unfold fetchBytes at h
    split at h <;> cases h
    rename_i v rest hv hrest
    rw [cellsFrom, ih hrest, ringOf_rxb, hv, List.map_cons]

/-- What the fetch decides (R81, R140): the core is enabled in phase (c) with the gate open, and the bytes before the
parser decode. -/
theorem fetchFrame_eq_some_iff {s : State} {i : Instr} :
    fetchFrame s = some i ↔ s.phase = .c ∧ Running s ∧ gate s = true ∧
      ∃ bs rest, frameBytes s = some bs ∧ decodeInbound (tableView s.cfg s.table) bs = .ok (i, rest) := by
  constructor
  · intro h
    unfold fetchFrame at h
    split at h
    · rename_i hen
      obtain ⟨hc, hh, hf, hg⟩ := hen
      split at h
      · cases h
      · split at h <;> cases h
        exact ⟨hc, ⟨hh, hf⟩, hg, _, _, ‹_›, ‹_›⟩
    · cases h
  · rintro ⟨hc, ⟨hh, hf⟩, hg, bs, rest, hbs, hd⟩
    simp [fetchFrame, hc, hh, hf, hg, hbs, hd]

/-- The fetch looks at the inbound ring, the parser and the marker. -/
theorem frameBytes_setEnv (s : State) (e : Env) : frameBytes (setEnv s e) = frameBytes s := by
  have hfetch : ∀ i n, fetchBytes (setEnv s e) i n = fetchBytes s i n := fun i n => by
    induction n generalizing i with
    | zero => rfl
    | succ n ih => simp only [fetchBytes, setEnv_rxb, ih]
  simp only [frameBytes, setEnv_ps, setEnv_rxb, setEnv_cfg, hfetch]

/-- An inbound form runs as an operation of the parser: it has a next state (R81, log 3). -/
theorem exec_inbound_done {i : Instr}
    (hi : (∃ m st l, i = .badMarker m st l ∨ i = .badStatus m st l ∨ i = .reqAck m) ∨ PayloadForm i) (s : State) :
    ∃ r, exec i s = done r := by
  obtain ⟨m, st, l, rfl | rfl | rfl⟩ | ⟨m, f, args, rfl | rfl | rfl | ⟨id, slot, rfl⟩ | rfl⟩ := hi <;>
    exact ⟨_, rfl⟩

theorem coreMove_of_fetchFrame {s : State} {i : Instr} (h : fetchFrame s = some i) :
    coreMove s = afterFrame (exec i s) := by
  simp [coreMove, h]

/-- Behind an operation of the parser comes phase (d), unless a fault is recorded (R216). -/
theorem afterFrame_done (r : Res Unit) :
    afterFrame (done r) = .next (if r.state.fault = none then setPhase r.state .d else r.state) := rfl

/-- Settles O43: what the fetch looks at is untouched by the draw of the move, and the form it finds has a next
state. -/
theorem stepRunsTheDecodedFrame : Obligations.StepRunsTheDecodedFrame := by
  unfold Obligations.StepRunsTheDecodedFrame
  intro s moves bs i left hmoves hrun hc hgate hbs hd
  have hfetch : fetchFrame (setEnv s { s.env with moves := moves }) = some i :=
    fetchFrame_eq_some_iff.mpr
      ⟨hc, hrun, (gate_eq_true_iff s).mpr hgate, bs, left, (frameBytes_setEnv s _).trans hbs, hd⟩
  obtain ⟨-, -, -, hform⟩ := fetchFrame_form hfetch
  obtain ⟨r, hr⟩ := exec_inbound_done (hform.imp And.right id) (setEnv s { s.env with moves := moves })
  have hstep : step s = coreMove (setEnv s { s.env with moves := moves }) := by
    simp [step, takeMove, hmoves, runMove]
  refine ⟨r.state, hr, ?_⟩
  rw [hstep, coreMove_of_fetchFrame hfetch, hr, afterFrame_done]
  rfl

/-! The header forms run as the header step (R143, R144). -/

theorem parseService_header {s : State} (hg : gate s = true) (hst : s.ps.stage = .awaitingHeader) :
    parseService s = headerStep s := by
  simp [parseService, hg, hst]

/-- The form three bytes decode to runs as the verdict on that header; REQ.ACK is the good one with length 0. -/
theorem exec_headerForm {s : State} {m st l : Byte} {i : Instr} {rest : List Byte}
    (hd : decodeInbound (tableView s.cfg s.table) [m, st, l] = .ok (i, rest)) :
    exec i s = done (judgeHeader m st l (skipInbound 3 s)) := by
  obtain ⟨hw, ws, he, hws⟩ := decodedFramesAreWellFormed _ _ _ _ hd
  obtain rfl | rfl | rfl := decodeInbound_three hd
  · rfl
  · rfl
  · cases he
    obtain ⟨rfl, rfl, -⟩ : 0x00#8 = st ∧ 0x00#8 = l ∧ rest = [] := by simpa using hws
    have hm : m = s.cfg.marker := by simpa [WellFormed, tableView] using hw
    rw [judgeHeader_good (s := skipInbound 3 s) hm rfl, if_pos rfl]
    rfl

/-! The forms with a payload run as the payload step (R147). -/

/-- Id 0 is command-count (R77). -/
theorem TableOk.handler_count {s : State} {e : Entry} (h : TableOk s) (he : s.table.entries[0]? = some e) :
    e.handler = .commandCount := by
  obtain ⟨c, -, rfl⟩ := h.entry he
  rfl

/-- Id 1 is get-command-names (R77). -/
theorem TableOk.handler_names {s : State} {e : Entry} (h : TableOk s) (he : s.table.entries[1]? = some e) :
    e.handler = .commandNames := by
  obtain ⟨c, -, rfl⟩ := h.entry he
  rfl

/-- A window is cells of the inbound array (R59). -/
theorem window_congr {s t : State} (h : t.rxb.data = s.rxb.data) (o : Byte) (n : Nat) :
    window o n t = window o n s := by
  unfold window
  induction n generalizing o with
  | zero => rfl
  | succ n ih => simp only [cellsFrom, ringOf_rxb, h, ih]

/-- get-command-names on two written argument bytes (R179). -/
theorem commandNames_window {o id slot : Byte} {s : State} (h : window o 2 s = [some id, some slot]) :
    commandNames o s = namesReply id slot s := by
  simp only [window, cellsFrom, ringOf_rxb, List.cons.injEq, and_true] at h
  obtain ⟨hid, hslot⟩ := h
  have hidx : indexAt o 1 = o + 1 := rfl
  rw [commandNames, rbPeek, memRead_some (b := .rxb) hid, Res.bind_ok, rbPeek, hidx, memRead_some (b := .rxb) hslot,
    Res.bind_ok]

/-- A function id outside the table (R147, R231). -/
theorem judgePayload_undefined {l f : Byte} {s : State} (he : s.table.entries[f.toNat]? = none) :
    judgePayload l f s = takeError statusUndefinedFunction s := by
  simp [judgePayload, he]

/-- Another number of payload bytes than the entry asks for (R147, R232). -/
theorem judgePayload_miscounted {l f : Byte} {s : State} {e : Entry} (he : s.table.entries[f.toNat]? = some e)
    (hl : l.toNat ≠ 1 + e.required) : judgePayload l f s = takeError statusByteCountError s := by
  simp [judgePayload, he, hl]

/-- A valid frame is dispatched to the handler of its entry (R147). -/
theorem judgePayload_eq_dispatched {l f : Byte} {s : State} {e : Entry} (he : s.table.entries[f.toNat]? = some e)
    (hl : l.toNat = 1 + e.required) :
    judgePayload l f (skipInbound 1 s) = dispatched f (callHandler e f (s.rxb.tail + 1)) s := by
  have he' : (skipInbound 1 s).table.entries[f.toNat]? = some e := he
  simp only [judgePayload, he', hl, ne_eq, not_true_eq_false, if_false]
  rfl

/-- A dispatch runs its handler in one state. -/
theorem dispatched_congr {f : Byte} {handler handler' : State → Res Unit} {s : State}
    (h : ∀ s1, s1.rxb.data = s.rxb.data → handler s1 = handler' s1) :
    dispatched f handler s = dispatched f handler' s := by
  rw [dispatched, dispatched, h]
  rfl

theorem tableView_required (cfg : Config) (tab : Table) (k : Nat) :
    (tableView cfg tab).required[k]? = tab.entries[k]?.map (·.required) := by
  simp [tableView]

/-- A command with the byte count of its entry runs as the dispatch to the entry's handler, which reads the bytes that
were decoded (R77, R147, R177 to R179). -/
theorem exec_validCommand {s : State} {f : Byte} {args : List Byte} {e : Entry} {i : Instr} (htab : TableOk s)
    (he : s.table.entries[f.toNat]? = some e) (hn : args.length = e.required)
    (hargs : window (s.rxb.tail + 1) args.length s = args.map some)
    (hd : decodeCommand (tableView s.cfg s.table) s.cfg.marker f args = .ok i) :
    exec i s = done (dispatched f (callHandler e f (s.rxb.tail + 1)) s) := by
  simp only [decodeCommand, tableView_required, he, Option.map_some, hn, ne_eq, not_true_eq_false, if_false] at hd
  split at hd
  · subst f
    split at hd <;> cases hd
    refine congrArg done (dispatched_congr fun s1 _ => ?_)
    simp only [callHandler, htab.handler_count he]
  · rename_i h0
    split at hd
    · subst f
      split at hd <;> cases hd
      refine congrArg done (dispatched_congr fun s1 hs1 => ?_)
      simp only [callHandler, htab.handler_names he]
      exact (commandNames_window ((window_congr hs1 _ _).trans hargs)).symm
    · rename_i h1
      cases hd
      have hne0 : f.toNat ≠ 0 := fun hc => h0 (BitVec.eq_of_toNat_eq hc)
      have hne1 : f.toNat ≠ 1 := fun hc => h1 (BitVec.eq_of_toNat_eq hc)
      refine congrArg done (dispatched_congr fun s1 hs1 => ?_)
      simp only [callHandler, htab.handler_user he (by omega), ← hn, window_congr hs1, hargs]

/-- The form a command decodes to runs as the payload step past its pop: the decoder asks of the table what the step
asks of it, in the same order (R81, R147). -/
theorem exec_payloadForm {s : State} {l f : Byte} {args : List Byte} {i : Instr} (htab : TableOk s)
    (hl : l.toNat = 1 + args.length) (hargs : window (s.rxb.tail + 1) args.length s = args.map some)
    (hd : decodeCommand (tableView s.cfg s.table) s.cfg.marker f args = .ok i) :
    exec i s = done (judgePayload l f (skipInbound 1 s)) := by
  cases he : s.table.entries[f.toNat]? with
  | none =>
    obtain rfl : .badFunc s.cfg.marker f args = i := by simpa [decodeCommand, tableView_required, he] using hd
    rw [judgePayload_undefined (s := skipInbound 1 s) he]
    rfl
  | some e =>
    by_cases hn : args.length = e.required
    · rw [judgePayload_eq_dispatched he (hn ▸ hl), exec_validCommand htab he hn hargs hd]
    · obtain rfl : .badCount s.cfg.marker f args = i := by simpa [decodeCommand, tableView_required, he, hn] using hd
      rw [judgePayload_miscounted (s := skipInbound 1 s) he (by omega)]
      rfl

/-- The payload step on a frame whose bytes are written is the verdict past its pop (R147). -/
theorem parseService_payload {s : State} {f : Byte} (hg : gate s = true) (hst : s.ps.stage = .awaitingPayload)
    (h : Memory.read s.rxb.data s.rxb.tail.toNat = some f) :
    parseService s = judgePayload s.ps.wait f (skipInbound 1 s) := by
  simp only [parseService, hg, hst, if_true, payloadStep, rbPop_some (b := .rxb) h, Res.bind_ok]
  rfl

/-! The agreement. -/

/-- The frame before the parser runs as the parser's step. -/
theorem exec_fetchFrame {s : State} {i : Instr} (htab : TableOk s) (h : fetchFrame s = some i) :
    exec i s = done (parseService s) := by
  obtain ⟨-, -, hg, bs, rest, hbs, hd⟩ := fetchFrame_eq_some_iff.mp h
  unfold frameBytes at hbs
  split at hbs
  · obtain ⟨m, st, l, rfl⟩ := List.length_eq_three.mp (fetchBytes_length hbs)
    rw [exec_headerForm hd, parseService_header hg ‹_›, headerStep_cells (cellsFrom_of_fetchBytes hbs)]
  · split at hbs
    · cases hbs
    · rename_i hl
      split at hbs <;> cases hbs
      rename_i payload hpayload
      rw [decodeInbound_goodHeader hl] at hd
      obtain ⟨f, args, rfl, hlen, hcommand⟩ := decodePayload_eq_ok_iff.mp hd
      have hcount := fetchBytes_length hpayload
      simp only [List.length_cons, List.length_append] at hcount
      obtain rfl : rest = [] := List.length_eq_zero_iff.mp (by omega)
      have hwait : s.ps.wait.toNat = args.length + 1 := by omega
      have hcells := cellsFrom_of_fetchBytes hpayload
      rw [hwait, cellsFrom, List.append_nil, List.map_cons, List.cons.injEq] at hcells
      obtain ⟨hf, hargs⟩ := hcells
      rw [parseService_payload hg ‹_› hf, exec_payloadForm (l := s.ps.wait) htab (by omega) hargs hcommand]

/-- An enabled core in phase (c) runs the parser's step, and phase (d) follows unless it raised (R216). -/
theorem exec_coreStep_of_phase_c {s : State} (hc : s.phase = .c) (hrun : Running s) :
    exec .coreStep s = afterFrame (done (parseService s)) := by
  obtain ⟨hh, hf⟩ := hrun
  have hset := parseService_settles s
  rw [afterFrame_done]
  show execCoreStep s = _
  simp only [execCoreStep, hh, hf, phaseOperation_c hc]
  cases hr : parseService s with
  | ok a t =>
    rw [hr] at hset
    obtain ⟨hfault, -, hhalt⟩ := hset
    simp [advancePhase, nextPhase, hc, hfault, hf, hhalt, hh]
  | raised t =>
    rw [hr] at hset
    obtain ⟨hfault, -, -⟩ := hset
    simp [hfault]

/-- Settles O44: where the fetch finds a frame, its form is the parser's step; else the move is a core step. -/
theorem decodedStepIsThePollLoop : Obligations.DecodedStepIsThePollLoop := by
  unfold Obligations.DecodedStepIsThePollLoop
  intro s htab
  cases h : fetchFrame s with
  | none => simp [coreMove, h]
  | some i =>
    obtain ⟨hc, hrun, -⟩ := fetchFrame_eq_some_iff.mp h
    rw [coreMove_of_fetchFrame h, exec_fetchFrame htab h, exec_coreStep_of_phase_c hc hrun]

end Sys2Proof.Machine
end

section
/-! PROOFS. The ring buffers (`40_ring_buffer.md`): what each primitive answers, runs of raw pushes and pops, and O1 to
O7. -/

namespace Sys2Proof.Machine

/-! The empty ring (R103, R106). -/

theorem rbEmpty_iff (b : RingId) (s : State) : rbEmpty b s = true ↔ (ringOf s b).head = (ringOf s b).tail :=
  beq_iff_eq

theorem rbCount_toNat_eq_zero_iff (b : RingId) (s : State) :
    (rbCount b s).toNat = 0 ↔ (ringOf s b).head = (ringOf s b).tail :=
  (BitVec.toNat_inj (y := 0)).trans sub_eq_zero

/-! Runs of pops (R102, R107). -/

theorem Res.map_eq_ok_iff {α β : Type} {g : α → β} {r : Res α} {c : β} {t : State} :
    r.map g = .ok c t ↔ ∃ a, r = .ok a t ∧ g a = c := by
  cases r with
  | ok a s => simp [and_comm]
  | raised s => simp

theorem cellsFrom_congr {b : RingId} {s t : State} (h : (ringOf t b).data = (ringOf s b).data) (i : Byte) (n : Nat) :
    cellsFrom b t i n = cellsFrom b s i n := by
  refine List.ext_getElem? fun k => ?_
  rw [cellsFrom_getElem?, cellsFrom_getElem?, h]

@[simp] theorem setTail_tail (b : RingId) (s : State) : setTail b (ringOf s b).tail s = s := setRing_ringOf s b

/-- A run of pops succeeds exactly on written cells: it returns them in order from the tail on and moves the tail past
them. -/
theorem popMany_eq_ok_iff {b : RingId} {n : Nat} {bs : List Byte} {s t : State} :
    popMany b n s = .ok bs t ↔
      cellsFrom b s (ringOf s b).tail n = bs.map some ∧ t = setTail b (indexAt (ringOf s b).tail n) s := by
  induction n generalizing s bs with
  | zero => cases bs <;> simp [popMany, cellsFrom, indexAt_zero, eq_comm (a := t)]
  | succ n ih =>
    obtain ⟨v, hv, hp⟩ | ⟨hv, hp⟩ := rbPop_cases b s
    · have hcells := cellsFrom_congr (b := b) (s := s)
        (t := setRing s b { ringOf s b with tail := (ringOf s b).tail + 1 }) (by simp)
      simp only [popMany, hp, Res.bind_ok, Res.map_eq_ok_iff, ih, hcells, cellsFrom, hv, ringOf_setRing, setTail_eq,
        setRing_setRing, indexAt_succ]
      cases bs <;> simp [and_assoc, and_comm]
    · cases bs <;> simp [popMany, hp, cellsFrom, hv]

/-! Pushes followed by pops (R106 to R108). -/

/-- A run of at most 256 pushes overwrites none of its own bytes. -/
theorem Appended.cells {b : RingId} {bs : List Byte} {s t : State} (h : Appended b bs s t) (hlen : bs.length ≤ 256) :
    cellsFrom b t (ringOf s b).head bs.length = bs.map some := by
  obtain ⟨-, -, -, hcell, -⟩ := h
  refine List.ext_getElem? fun k => ?_
  rw [cellsFrom_getElem?, List.getElem?_map]
  by_cases hk : k < bs.length
  · have hget := List.getElem?_eq_getElem hk
    rw [if_pos hk, hcell k _ hget (by omega), hget, Option.map_some]
  · rw [if_neg hk, List.getElem?_eq_none (by omega), Option.map_none]

/-- Settles O5: the pushes leave the bytes behind the old head, which is the tail the pops begin at. -/
theorem pushedBytesComeBackInOrder : Obligations.PushedBytesComeBackInOrder := by
  unfold Obligations.PushedBytesComeBackInOrder
  intro b s vs he hlen
  have happ := pushAll_appended b vs s
  have hcells := happ.cells hlen
  obtain ⟨-, hhead, htail, -, -⟩ := happ
  rw [rbEmpty_iff] at he
  refine ⟨_, popMany_eq_ok_iff.mpr ⟨by rw [htail, ← he, hcells], rfl⟩, ?_⟩
  rw [rbEmpty_iff, setTail_eq, ringOf_setRing, hhead, htail, he]

/-- 256 pushes bring the head round to where it was. -/
theorem rbEmpty_pushAll_256 {b : RingId} {s : State} {vs : List Byte} (he : rbEmpty b s = true)
    (hlen : vs.length = 256) : rbEmpty b (pushAll b vs s) = true := by
  rw [rbEmpty_iff, ← rbCount_toNat_eq_zero_iff] at he ⊢
  rw [(pushAll_appended b vs s).count, he, hlen]

/-- Settles O6: the full ring reads as empty, and an empty ring gives back the one byte pushed next. -/
theorem fullRingReadsEmptyThenLosesTheOldest : Obligations.FullRingReadsEmptyThenLosesTheOldest := by
  unfold Obligations.FullRingReadsEmptyThenLosesTheOldest
  intro b s vs v he hlen
  have hfull := rbEmpty_pushAll_256 he hlen
  refine ⟨hfull, ?_, ?_⟩
  · rw [rbCount_push_toNat, (rbCount_toNat_eq_zero_iff b _).mpr ((rbEmpty_iff b _).mp hfull)]
  · obtain ⟨t, hpop, ht⟩ := pushedBytesComeBackInOrder b (pushAll b vs s) [v] hfull (by simp)
    refine ⟨t, ?_, ht⟩
    obtain ⟨hcells, rfl⟩ := popMany_eq_ok_iff.mp hpop
    simp only [List.length_singleton, cellsFrom, List.map_cons, List.map_nil, List.cons.injEq, and_true, pushAll]
      at hcells
    exact rbPop_some hcells

/-- Settles O7: the pushes move the head alone and the pops the tail alone. -/
theorem countFollowsPushesAndPops : Obligations.CountFollowsPushesAndPops := by
  unfold Obligations.CountFollowsPushesAndPops
  intro b s t vs bs m h
  obtain ⟨-, rfl⟩ := popMany_eq_ok_iff.mp h
  obtain ⟨-, hhead, htail, -, -⟩ := pushAll_appended b vs s
  simp only [rbCount, setTail_eq, ringOf_setRing, hhead, htail, indexAt]
  ring

/-! Each primitive as an instruction. -/

theorem exec_rbPeek (b : RingId) (i : Byte) (s : State) :
    exec (.rbPeek b i) s = answer ((memRead b i s).map Ret.byte) := rfl

theorem exec_rbPush (b : RingId) (v : Byte) (s : State) : exec (.rbPush b v) s = .next (rbPush b v s) := rfl

theorem exec_rbPop (b : RingId) (s : State) : exec (.rbPop b) s = answer ((rbPop b s).map Ret.byte) := rfl

theorem exec_rbFlush (b : RingId) (s : State) : exec (.rbFlush b) s = .next (rbFlush b s) := rfl

/-- Settles O1: each reads through its shared operation, and only a read of an unwritten cell raises. -/
theorem ringReadsReturnValues : Obligations.RingReadsReturnValues := by
  unfold Obligations.RingReadsReturnValues
  intro b s
  refine ⟨rfl, rfl, rbCount_toNat_eq_zero_iff b s, fun i => ⟨fun v hv => ?_, fun hv hf => ?_⟩⟩
  · rw [exec_rbPeek, memRead_some hv]
    rfl
  · rw [exec_rbPeek, memRead_none hv, Res.map_raised, answer_raised, latch_of_fault_none _ hf]

/-- Settles O2: a push is one update of its ring. -/
theorem pushStoresAtHeadAndAdvances : Obligations.PushStoresAtHeadAndAdvances := by
  unfold Obligations.PushStoresAtHeadAndAdvances
  intro b v s
  refine ⟨_, exec_rbPush b v s, ?_⟩
  rw [rbPush_eq, ringOf_setRing]
  exact ⟨rfl, rfl, rfl, Memory.read_write_same _ _ _, fun a ha => Memory.read_write_other _ _ _ _ ha⟩

/-- Settles O3: the cell at the tail decides. -/
theorem popReadsAtTailOrRaises : Obligations.PopReadsAtTailOrRaises := by
  unfold Obligations.PopReadsAtTailOrRaises
  intro b s
  refine ⟨fun v hv => ?_, fun hv hf => ?_⟩
  · rw [exec_rbPop, rbPop_some hv]
    rfl
  · rw [exec_rbPop, rbPop_none hv, Res.map_raised, answer_raised, latch_of_fault_none _ hf]

theorem rbEmpty_rbFlush (b : RingId) (s : State) : rbEmpty b (rbFlush b s) = true := by
  rw [rbEmpty_iff, rbFlush_eq, ringOf_setRing]

/-- The gate is closed on an empty inbound ring (R140). -/
theorem gate_of_rbEmpty {s : State} (he : rbEmpty .rxb s = true) (hw : s.ps.wait ≠ 0x00#8) : gate s = false := by
  rw [rbEmpty_iff, ← rbCount_toNat_eq_zero_iff] at he
  rw [← Bool.not_eq_true, gate_eq_true_iff, he, Nat.le_zero]
  exact fun h => hw (BitVec.eq_of_toNat_eq h)

/-- Settles O4: a flush leaves its ring empty and the parser as it was. -/
theorem flushEmptiesTheRing : Obligations.FlushEmptiesTheRing := by
  unfold Obligations.FlushEmptiesTheRing
  intro b s
  refine ⟨_, exec_rbFlush b s, rbFlush_eq b s, rbEmpty_rbFlush b s, ?_⟩
  rintro rfl hw
  exact gate_of_rbEmpty (rbEmpty_rbFlush .rxb s) hw

end Sys2Proof.Machine
end

section
/-! PROOFS. The byte transport (`41_transport.md`): what the guarded push, RXR and TXR decide, the frame REQ.COUNT
(R178), O8 to O11 and O28. -/

namespace Sys2Proof.Machine

/-! The guarded push (R121, R125). -/

theorem guardedPush_room {b : RingId} {s : State} (v : Byte)
    (h : s.cfg.overflowPolicy = .wrap ∨ (rbCount b s).toNat < 255) : guardedPush b v s = .ok () (rbPush b v s) := by
  obtain h | h := h
  · exact if_neg (by simp [h])
  · exact guardedPush_of_count v h

theorem guardedPush_full {b : RingId} {s : State} (v : Byte) (hp : s.cfg.overflowPolicy = .fault)
    (h : (rbCount b s).toNat = 255) : guardedPush b v s = .raised (latch (.ringOverflow b) s) :=
  if_pos ⟨hp, BitVec.eq_of_toNat_eq h⟩

theorem rbPush_appended (b : RingId) (v : Byte) (s : State) : Appended b [v] s (rbPush b v s) :=
  pushAll_appended b [v] s

theorem exec_enqueueOutbound (v : Byte) (s : State) :
    exec (.enqueueOutbound v) s = done (guardedPush .txb v s) := rfl

/-- Settles O11: the operation is the guarded push on TXB. -/
theorem enqueueAppendsOrOverflows : Obligations.EnqueueAppendsOrOverflows := by
  unfold Obligations.EnqueueAppendsOrOverflows
  intro v s
  refine ⟨fun hroom => ⟨_, ?_, rbPush_appended .txb v s⟩, fun hp hc hf => ?_⟩
  · rw [exec_enqueueOutbound, guardedPush_room v (hroom.imp_right (by omega)), done_ok]
  · rw [exec_enqueueOutbound, guardedPush_full v hp hc, done_raised, latch_of_fault_none _ hf]

/-! The receive register (R120, R121). -/

/-- The state once the byte in RXR is taken (R120). -/
def received (s : State) : State := noted [.rx s.rxr.data] { s with rxr := { s.rxr with valid := false } }

theorem tryReceive_valid {s : State} (h : s.rxr.valid = true) : tryReceive s = .ok (some s.rxr.data) (received s) :=
  if_pos h

theorem tryReceive_empty {s : State} (h : s.rxr.valid = false) : tryReceive s = .ok none s :=
  if_neg (by simp [h])

theorem exec_tryReceive (s : State) : exec .tryReceive s = answer ((tryReceive s).map Ret.optByte) := rfl

/-- Settles O8: the valid bit of RXR decides. -/
theorem tryReceiveTakesTheByte : Obligations.TryReceiveTakesTheByte := by
  unfold Obligations.TryReceiveTakesTheByte
  intro s
  refine ⟨fun h => ?_, fun h => ?_⟩
  · rw [exec_tryReceive, tryReceive_valid h]
    rfl
  · rw [exec_tryReceive, tryReceive_empty h]
    rfl

theorem exec_rxService_valid {s : State} (h : s.rxr.valid = true) :
    exec .rxService s = done (guardedPush .rxb s.rxr.data (received s)) := by
  show done (rxService s) = _
  rw [rxService, tryReceive_valid h, Res.bind_ok]

theorem exec_rxService_empty {s : State} (h : s.rxr.valid = false) : exec .rxService s = .next s := by
  show done (rxService s) = _
  rw [rxService, tryReceive_empty h, Res.bind_ok, done_ok]

/-- Settles O9: the byte taken from RXR goes through the guarded push on RXB, which sees the rings as they were. -/
theorem rxServiceMovesOneByte : Obligations.RxServiceMovesOneByte := by
  unfold Obligations.RxServiceMovesOneByte
  intro s
  refine ⟨exec_rxService_empty, fun h hroom => ⟨_, ?_, rbPush_appended .rxb _ (received s)⟩,
    fun h hp hc hf => ?_⟩
  · rw [exec_rxService_valid h, guardedPush_room (b := .rxb) (s := received s) _ hroom, done_ok]
  · rw [exec_rxService_valid h, guardedPush_full (b := .rxb) (s := received s) _ hp hc, done_raised,
      latch_of_fault_none (s := received s) _ hf]
    rfl

/-! The transmit register (R122, R123). -/

theorem tryTransmit_idle {s : State} (h : rbEmpty .txb s = true ∨ s.txr.ready = false) :
    tryTransmit s = .ok () s := by
  obtain h | h := h
  · exact if_neg (by simp [txEmpty, h])
  · exact if_neg (by simp [h])

theorem tryTransmit_ready {s : State} (he : rbEmpty .txb s = false) (hr : s.txr.ready = true) :
    tryTransmit s = (rbPop .txb s).bind fun v s1 => .ok () (emit (.tx v) s1) :=
  if_pos ⟨he, hr⟩

/-- Settles O10: with TXR ready the cell at the tail of TXB decides. -/
theorem transmitMovesOneByteIfReady : Obligations.TransmitMovesOneByteIfReady := by
  unfold Obligations.TransmitMovesOneByteIfReady
  intro s i hi
  have hexec : exec i s = done (tryTransmit s) := by
    obtain rfl | rfl := hi <;> rfl
  rw [hexec]
  refine ⟨fun h => ?_, fun v he hr hv => ?_, fun he hr hv hf => ?_⟩
  · rw [tryTransmit_idle h, done_ok]
  · rw [tryTransmit_ready he hr, rbPop_some (b := .txb) hv]
    rfl
  · rw [tryTransmit_ready he hr, rbPop_none (b := .txb) hv, Res.bind_raised, done_raised, latch_of_fault_none _ hf]
    rfl

/-! The frame REQ.COUNT (R178). -/

/-- The reply of command-count: NFUNC in one payload byte (R178). -/
def countReply (s : State) : List Byte := [s.cfg.marker, 0x00#8, 0x01#8, BitVec.ofNat 8 s.table.entries.length]

theorem commandCount_eq (s : State) : commandCount s = enqueueAll (countReply s) s := rfl

theorem commandCount_room {s : State} (h : Room 4 s) : commandCount s = .ok () (pushAll .txb (countReply s) s) :=
  enqueueAll_room (countReply s) s h

theorem commandCount_overflow {s : State} (hp : s.cfg.overflowPolicy = .fault) (h : 251 < (rbCount .txb s).toNat) :
    commandCount s = .raised (latch (.ringOverflow .txb)
      (pushAll .txb ((countReply s).take (255 - (rbCount .txb s).toNat)) s)) :=
  enqueueAll_overflow (countReply s) s hp (show 255 < (rbCount .txb s).toNat + 4 by omega)

/-- The state in which the dispatch of command `f` calls its handler (R147). -/
def dispatching (f : Byte) (s : State) : State := noted [.invoke f (s.rxb.tail + 1)] (pastBytes 1 s)

theorem dispatched_eq (f : Byte) (handler : State → Res Unit) (s : State) :
    dispatched f handler s = (handler (dispatching f s)).bind fun _ s1 => .ok () (finishFrame s1) := rfl

theorem frameEnd_dispatching (f : Byte) (s : State) :
    frameEnd (dispatching f s) = frameEnd (noted [.invoke f (s.rxb.tail + 1)] s) := rfl

theorem exec_reqCount (m : Byte) (s : State) : exec (.reqCount m) s = done (dispatched 0x00#8 commandCount s) := rfl

/-- Settles O28: command-count runs behind the dispatch, which touches neither TXB, the parameters nor the table; the
end of the frame follows its reply, unless that raised. -/
theorem countRequestIsAnswered : Obligations.CountRequestIsAnswered := by
  unfold Obligations.CountRequestIsAnswered
  intro m s
  refine ⟨rfl, fun hroom => ⟨_, ?_, pushAll_appended .txb (countReply s) _⟩,
    fun hf hp hover => ⟨_, ?_, pushAll_appended .txb _ (dispatching 0x00#8 s)⟩⟩
  · rw [exec_reqCount, dispatched_eq, commandCount_room (s := dispatching 0x00#8 s) hroom, Res.bind_ok, done_ok,
      finishFrame_pushAll, frameEnd_eq, frameEnd_dispatching]
    rfl
  · rw [exec_reqCount, dispatched_eq, commandCount_overflow (s := dispatching 0x00#8 s) hp hover, Res.bind_raised,
      done_raised, latch_of_fault_none _ ((pushAll_fault _ _ (dispatching 0x00#8 s)).trans hf)]
    rfl

end Sys2Proof.Machine
end

section
/-! PROOFS. The header stage (`42_framing.md` section 2): the replies to a header that fails its checks, the good
header, and O17 to O20. -/

namespace Sys2Proof.Machine

/-! The reply to a failing check (R143, R230). -/

/-- COMMUNICATION_ERROR, as every failing header check sends it. -/
def headerError (s : State) : List Byte := [s.cfg.marker, 0x05#8, 0x00#8]

@[simp] theorem headerError_length (s : State) : (headerError s).length = 3 := rfl

theorem Room.mono {k n : Nat} {s : State} (h : Room n s) (hk : k ≤ n) : Room k s := h.imp_right (by omega)

theorem rejectHeader_eq (s : State) : rejectHeader s = enqueueAll (headerError s) (flushed s) := rfl

theorem flushed_pushAll (bs : List Byte) (s : State) :
    flushed (pushAll .txb bs (flushed s)) = pushAll .txb bs (flushed s) :=
  rbFlush_pushAll bs (flushed s)

/-- Two runs of guarded pushes are one: the second does not happen where the first raises (R125). -/
theorem enqueueAll_append (as bs : List Byte) (s : State) :
    enqueueAll (as ++ bs) s = (enqueueAll as s).bind fun _ t => enqueueAll bs t := by
  induction as generalizing s with
  | nil => rfl
  | cons v rest ih =>
    simp only [List.cons_append, enqueueAll]
    cases enqueueOutbound v s with
    | ok _ t => exact ih t
    | raised t => rfl

/-- The end of a header that failed its checks: flushed, the replies `rs` sent, the parser back (R143). -/
def rejected (rs : List Byte) (s : State) : Res Unit :=
  (enqueueAll rs (flushed s)).bind fun _ t => .ok () (resetParser t)

theorem rejected_room {rs : List Byte} {s : State} (h : Room rs.length s) :
    rejected rs s = .ok () (pushAll .txb rs (frameEnd s)) := by
  rw [rejected, enqueueAll_room rs (flushed s) h, Res.bind_ok, resetParser_pushAll]
  rfl

theorem rejected_overflow {rs : List Byte} {s : State} (hp : s.cfg.overflowPolicy = .fault)
    (h : 255 < (rbCount .txb s).toNat + rs.length) :
    rejected rs s = .raised (latch (.ringOverflow .txb)
      (pushAll .txb (rs.take (255 - (rbCount .txb s).toNat)) (flushed s))) := by
  rw [rejected, enqueueAll_overflow rs (flushed s) hp h, Res.bind_raised]
  rfl

/-- A second check behind a reply that went out appends its own reply to it. -/
theorem reportIf_after_headerError {again : Bool} {s : State} (h : Room 3 s) :
    (reportIf again (pushAll .txb (headerError s) (flushed s))).bind (fun _ t => .ok () (resetParser t)) =
      rejected (headerError s ++ if again then headerError s else []) s := by
  have hfirst : enqueueAll (headerError s) (flushed s) = .ok () (pushAll .txb (headerError s) (flushed s)) :=
    enqueueAll_room (headerError s) (flushed s) h
  rw [rejected, enqueueAll_append, hfirst, Res.bind_ok]
  cases again with
  | false => rfl
  | true =>
    rw [reportIf, if_pos rfl, rejectHeader_eq, flushed_pushAll, headerError, pushAll_cfg]
    rfl

/-! The two checks (R143, R145). -/

theorem drawBool_congr {s t : State} (he : t.env = s.env) :
    drawBool t = ((drawBool s).1, setEnv t (drawBool s).2.env) := by
  unfold drawBool
  rw [he]
  split <;> rfl

/-- The second check looks at the parameters and at `env`, and changes at most `env`. -/
theorem secondCheck_congr {badM : Bool} {st : Byte} {s t : State} (hc : t.cfg = s.cfg) (he : t.env = s.env) :
    secondCheck badM st t = ((secondCheck badM st s).1, setEnv t (secondCheck badM st s).2.env) := by
  unfold secondCheck
  rw [hc]
  split
  · exact drawBool_congr he
  · rw [← he]
    rfl

theorem secondCheck_latched {badM : Bool} {st : Byte} {s : State} (h : s.cfg.hdrRecheck = .latched) :
    secondCheck badM st s = (st != 0x00#8, s) :=
  if_neg (by simp [h])

theorem secondCheck_draw {st : Byte} {s : State} (h : s.cfg.hdrRecheck = .draw) :
    secondCheck true st s = drawBool s :=
  if_pos ⟨h, rfl⟩

theorem drew_drawBool (s : State) : Drew (drawBool s).1 s (drawBool s).2.env := by
  obtain ⟨r, rest, hb, hd⟩ | ⟨hb, hd⟩ := drawBool_cases s <;> rw [hd]
  · refine ⟨fun b rest' h => ?_, fun h => by simp [hb] at h⟩
    obtain ⟨rfl, rfl⟩ := List.cons.inj (hb.symm.trans h)
    exact ⟨rfl, rfl⟩
  · exact ⟨fun b rest h => by simp [hb] at h, fun _ => rfl⟩

/-! The verdict on a header (R143). -/

/-- Only the status check fails. -/
theorem judgeHeader_badStatus {m st l : Byte} {s : State} (hm : m = s.cfg.marker) (hs : st ≠ 0x00#8) :
    judgeHeader m st l s = rejected (headerError s) s := by
  subst hm
  have hs' : (st != 0x00#8) = true := by simpa using hs
  simp [judgeHeader, reportIf, secondCheck, hs', rejectHeader_eq, rejected]

/-- With room for its reply, a bad marker goes on to the second check, which decides on a second reply. -/
theorem judgeHeader_badMarker {m st l : Byte} {s : State} (hm : m ≠ s.cfg.marker) (h : Room 3 s) :
    judgeHeader m st l s =
      rejected (headerError s ++ if (secondCheck true st s).1 then headerError s else [])
        (setEnv s (secondCheck true st s).2.env) := by
  have hm' : (m != s.cfg.marker) = true := by simpa using hm
  have hcheck := secondCheck_congr (badM := true) (st := st) (s := s)
    (t := pushAll .txb (headerError s) (flushed s)) (pushAll_cfg _ _ _) (pushAll_env _ _ _)
  have hfirst : rejectHeader s = .ok () (pushAll .txb (headerError s) (flushed s)) := rejectHeader_room s h
  simp only [judgeHeader, hm', reportIf, if_true, Bool.true_or, hfirst, Res.bind_ok, hcheck, setEnv_pushAll]
  exact reportIf_after_headerError (s := setEnv s (secondCheck true st s).2.env) h

/-- Without room for its reply, a bad marker raises before the second check (R244). -/
theorem judgeHeader_badMarker_overflow {m st l : Byte} {s : State} (hm : m ≠ s.cfg.marker)
    (hp : s.cfg.overflowPolicy = .fault) (h : 252 < (rbCount .txb s).toNat) :
    judgeHeader m st l s = .raised (latch (.ringOverflow .txb)
      (pushAll .txb ((headerError s).take (255 - (rbCount .txb s).toNat)) (flushed s))) := by
  have hm' : (m != s.cfg.marker) = true := by simpa using hm
  simp only [judgeHeader, hm', reportIf, if_true, rejectHeader_overflow s hp h, Res.bind_raised]
  rfl

/-- The two header forms and the header step on their bytes are this verdict, past the three bytes (log 16). -/
theorem exec_badHeader {m st l : Byte} {s : State} {i : Instr}
    (hi : i = .badMarker m st l ∨ i = .badStatus m st l ∨
      (i = .headerStep ∧ cellsFrom .rxb s s.rxb.tail 3 = [some m, some st, some l])) :
    exec i s = done (judgeHeader m st l (skipInbound 3 s)) := by
  obtain rfl | rfl | ⟨rfl, hcells⟩ := hi
  · rfl
  · rfl
  · exact congrArg done (headerStep_cells hcells)

/-- Bytes that were taken make no difference to a flush. -/
theorem rejected_skip (rs : List Byte) (n : Byte) (s : State) : rejected rs (skipInbound n s) = rejected rs s := rfl

/-- A raise behind pushes on a state without a fault. -/
theorem done_raised_pushAll {f : ModelFault} {bs : List Byte} {s : State} (h : s.fault = none) :
    done (.raised (latch f (pushAll .txb bs s))) = .next { pushAll .txb bs s with fault := some f } := by
  rw [done_raised, latch_of_fault_none _ ((pushAll_fault _ _ s).trans h)]

/-- The replies to a header that is judged by its own bytes: one per failing check. -/
def headerReplies (m st : Byte) (s : State) : List Byte :=
  (if m = s.cfg.marker then [] else headerError s) ++ (if st = 0x00#8 then [] else headerError s)

/-- A bad header that is judged by its own bytes, with room for a first reply. -/
theorem judgeHeader_latched {m st l : Byte} {s : State} (hbad : m ≠ s.cfg.marker ∨ st ≠ 0x00#8)
    (hown : s.cfg.hdrRecheck = .latched ∨ m = s.cfg.marker) (h : m ≠ s.cfg.marker → Room 3 s) :
    judgeHeader m st l s = rejected (headerReplies m st s) s := by
  by_cases hm : m = s.cfg.marker
  · have hs : st ≠ 0x00#8 := hbad.resolve_left (not_not_intro hm)
    rw [judgeHeader_badStatus hm hs, headerReplies, if_pos hm, if_neg hs, List.nil_append]
  · have hl := hown.resolve_right hm
    have hsecond : (if (st != 0x00#8) = true then headerError s else []) =
        if st = 0x00#8 then [] else headerError s := by
      by_cases hs : st = 0x00#8 <;> simp [hs]
    rw [judgeHeader_badMarker hm (h hm), secondCheck_latched hl, headerReplies, if_neg hm, hsecond]
    rfl

/-- Settles O17: where even a first reply does not fit the header step ends with it, and else the verdict is one run of
guarded pushes, of one reply per failing check. -/
theorem badHeaderIsRejected : Obligations.BadHeaderIsRejected := by
  unfold Obligations.BadHeaderIsRejected
  intro m st l s i rs hbad hown hi hrs
  obtain rfl : rs = headerReplies m st s := hrs
  rw [exec_badHeader hi]
  refine ⟨fun hroom => ⟨_, ?_, pushAll_appended .txb _ _⟩, fun hf hp hover => ⟨_, ?_, pushAll_appended .txb _ _⟩⟩
  · have hfirst (hm : m ≠ s.cfg.marker) : Room 3 s := by
      rw [headerReplies, if_neg hm, List.length_append, headerError_length] at hroom
      exact hroom.mono (by omega)
    rw [judgeHeader_latched (s := skipInbound 3 s) hbad hown hfirst, rejected_skip]
    exact congrArg done (rejected_room hroom)
  · by_cases hfit : m ≠ s.cfg.marker ∧ 252 < (rbCount .txb s).toNat
    · obtain ⟨hm, hc⟩ := hfit
      have htake : (headerReplies m st s).take (255 - (rbCount .txb s).toNat) =
          (headerError s).take (255 - (rbCount .txb s).toNat) := by
        rw [headerReplies, if_neg hm, List.take_append_of_le_length]
        rw [headerError_length]
        omega
      rw [judgeHeader_badMarker_overflow (s := skipInbound 3 s) hm hp hc, htake]
      exact done_raised_pushAll hf
    · have hfirst (hm : m ≠ s.cfg.marker) : Room 3 s := .inr (by have := not_and.mp hfit hm; omega)
      rw [judgeHeader_latched (s := skipInbound 3 s) hbad hown hfirst, rejected_skip]
      exact (congrArg done (rejected_overflow hp hover)).trans (done_raised_pushAll hf)

/-- Replies sent after a draw: they leave `env` as the draw left it. -/
theorem drew_appended {r : Bool} {s : State} {e : Env} (h : Drew r s e) (bs : List Byte) (u : State) :
    Drew r s (pushAll .txb bs { u with env := e }).env ∧
      Appended .txb bs { u with env := (pushAll .txb bs { u with env := e }).env }
        (pushAll .txb bs { u with env := e }) := by
  rw [pushAll_env]
  exact ⟨h, pushAll_appended .txb bs _⟩

/-- Settles O18: the draw is the one of the state the step began in, as the first reply and the flush leave `env`
alone. -/
theorem badMarkerUnderDraw : Obligations.BadMarkerUnderDraw := by
  unfold Obligations.BadMarkerUnderDraw
  intro m st l s i err hm hdraw hi herr
  obtain rfl : err = headerError s := herr
  have hdrew := drew_drawBool s
  have hfits (h : Room 3 s) : exec i s = done (rejected
      (headerError s ++ if (drawBool s).1 = true then headerError s else []) (setEnv s (drawBool s).2.env)) := by
    rw [exec_badHeader hi, judgeHeader_badMarker (s := skipInbound 3 s) hm h, secondCheck_draw (s := skipInbound 3 s)
      hdraw, drawBool_congr (s := s) (t := skipInbound 3 s) rfl]
    rfl
  generalize (drawBool s).1 = again, (drawBool s).2.env = e at hdrew hfits
  refine ⟨fun hroom => ?_, fun hf hp => ⟨fun hc => ⟨_, ?_, pushAll_appended .txb _ _⟩, fun hlo hhi => ?_⟩⟩
  · obtain ⟨hd, happ⟩ := drew_appended hdrew (headerError s ++ if again = true then headerError s else []) (frameEnd s)
    refine ⟨_, again, ?_, hd, happ⟩
    have hlen : (headerError s ++ if again = true then headerError s else []).length ≤ 6 := by
      cases again <;> simp
    rw [hfits (hroom.mono (by omega))]
    exact congrArg done (rejected_room (s := setEnv s e) (hroom.mono hlen))
  · rw [exec_badHeader hi, judgeHeader_badMarker_overflow (s := skipInbound 3 s) hm hp hc]
    exact done_raised_pushAll hf
  · have hroom : Room 3 s := .inr (by omega)
    rw [hfits hroom]
    cases again with
    | false =>
      obtain ⟨hd, happ⟩ := drew_appended hdrew (headerError s) (frameEnd s)
      refine ⟨_, false, hd, fun _ => ⟨?_, happ⟩, nofun⟩
      exact congrArg done (rejected_room (rs := headerError s) (s := setEnv s e) hroom)
    | true =>
      obtain ⟨hd, happ⟩ := drew_appended hdrew ((headerError s ++ headerError s).take (255 - (rbCount .txb s).toNat))
        (flushed s)
      have hover : 255 < (rbCount .txb s).toNat + (headerError s ++ headerError s).length := by
        rw [List.length_append, headerError_length]
        omega
      refine ⟨_, true, hd, nofun, fun _ => ⟨?_, happ⟩⟩
      exact (congrArg done (rejected_overflow (s := setEnv s e) hp hover)).trans (done_raised_pushAll hf)

/-! The good header (R144, R146). -/

/-- Settles O19: REQ.ACK and the header step on its bytes are the one status reply, past the three bytes. -/
theorem ackRequestIsAnswered : Obligations.AckRequestIsAnswered := by
  unfold Obligations.AckRequestIsAnswered
  intro s i hi
  have hexec : exec i s = done (sendStatusFrame statusOk (pastBytes 3 s)) := by
    obtain rfl | ⟨rfl, hcells⟩ := hi
    · rfl
    · exact congrArg done ((headerStep_cells hcells).trans (judgeHeader_good rfl rfl))
  rw [hexec]
  refine ⟨fun hroom => ⟨_, ?_, pushAll_appended .txb _ _⟩, fun hf hp hc => ⟨_, ?_, pushAll_appended .txb _ _⟩⟩
  · exact congrArg done (sendStatusFrame_room statusOk (pastBytes 3 s) hroom)
  · exact (congrArg done (sendStatusFrame_overflow statusOk (s := pastBytes 3 s) hp hc)).trans
      (done_raised_pushAll hf)

/-- Settles O20: a good header passes both checks and only sets the parser. -/
theorem goodHeaderWaitsForItsPayload : Obligations.GoodHeaderWaitsForItsPayload := by
  unfold Obligations.GoodHeaderWaitsForItsPayload
  intro l s hl hcells
  show done (headerStep s) = _
  rw [headerStep_cells hcells, judgeHeader_good (m := s.cfg.marker) (s := skipInbound 3 s) rfl rfl, if_neg hl]
  rfl

end Sys2Proof.Machine
end

section
/-! PROOFS. The payload stage and the gate before it (`42_framing.md` sections 1 and 3): the end of a frame behind a
reply or a handler's call, the frames that are rejected, the frame of a user command (R177), O21 to O23 and O31. -/

namespace Sys2Proof.Machine

/-! The gate (R140, R141). -/

theorem parseService_closed {s : State} (h : gate s = false) : parseService s = .ok () s := by simp [parseService, h]

/-- Settles O23: the gate decides, and then the stage of the parser. -/
theorem parseServiceObeysTheGate : Obligations.ParseServiceObeysTheGate := by
  unfold Obligations.ParseServiceObeysTheGate
  intro s
  refine ⟨fun hlt => ?_, fun hle => ⟨(parseService s).state, rfl, fun hst => ?_, fun hst => ?_⟩⟩
  · have hg : gate s = false := by
      rw [← Bool.not_eq_true, gate_eq_true_iff]
      omega
    exact congrArg done (parseService_closed hg)
  · rw [parseService_header ((gate_eq_true_iff s).mpr hle) hst]
    rfl
  · have hpayload : parseService s = payloadStep s := by simp [parseService, (gate_eq_true_iff s).mpr hle, hst]
    rw [hpayload]
    rfl

/-! The payload step (R147). -/

/-- The end of the frame behind an operation: it follows unless that operation raised, which the fault latch shows. -/
theorem finish_state {s : State} {r : Res Unit} (hr : Settles s r) (hf : s.fault = none) :
    done (r.bind fun _ s1 => .ok () (finishFrame s1)) =
      .next (if r.state.fault = none then frameEnd r.state else r.state) := by
  cases r with
  | ok _ t =>
    obtain ⟨hfault, -, -⟩ := hr
    exact congrArg Host.Outcome.next (if_pos (hfault.trans hf)).symm
  | raised t =>
    obtain ⟨hfault, -, -⟩ := hr
    exact congrArg Host.Outcome.next (if_neg hfault).symm

/-- The payload step on a written function id is the verdict past it. -/
theorem exec_payloadStep {f : Byte} {s : State} (h : Memory.read s.rxb.data s.rxb.tail.toNat = some f) :
    exec .payloadStep s = done (judgePayload s.ps.wait f (skipInbound 1 s)) := by
  show done (payloadStep s) = _
  rw [payloadStep, rbPop_some (b := .rxb) h, Res.bind_ok]
  rfl

theorem exec_invoke {id offset : Byte} {s : State} {e : Entry} (he : s.table.entries[id.toNat]? = some e) :
    exec (.invoke id offset) s = done (callHandler e id offset s) := by
  show execInvoke id offset s = _
  simp [execInvoke, he]

/-- A protocol error is its status reply, and then the end of the frame (R241). -/
theorem takeError_state {code : Byte} {s : State} (hf : s.fault = none) :
    ∃ t, exec (.sendStatus code) s = .next t ∧
      done (takeError code s) = .next (if t.fault = none then frameEnd t else t) :=
  ⟨_, rfl, finish_state (sendStatusFrame_settles code s) hf⟩

/-- Settles O21: the entry at the function id and the wait count decide between the two errors and the dispatch. -/
theorem payloadStepChecksThenDispatches : Obligations.PayloadStepChecksThenDispatches := by
  unfold Obligations.PayloadStepChecksThenDispatches
  intro f s hread hf
  rw [exec_payloadStep hread]
  refine ⟨fun he => ?_, fun e he => ⟨fun hl => ?_, fun hl => ?_⟩⟩
  · rw [judgePayload_undefined (s := skipInbound 1 s) he]
    exact takeError_state (s := skipInbound 1 s) hf
  · rw [judgePayload_miscounted (s := skipInbound 1 s) he hl]
    exact takeError_state (s := skipInbound 1 s) hf
  · rw [judgePayload_eq_dispatched he hl, dispatched_eq]
    refine ⟨_, exec_invoke (s := dispatching f s) he, ?_⟩
    exact finish_state (callHandler_settles e f (s.rxb.tail + 1) (dispatching f s)) hf

/-- Settles O22: both forms take their protocol error, which looks neither at the marker nor at the bytes taken. -/
theorem rejectedFramesGetOneReply : Obligations.RejectedFramesGetOneReply := by
  unfold Obligations.RejectedFramesGetOneReply
  intro m f args s hroom
  have herror (code : Byte) : done (takeError code (skipInbound 1 s)) =
      .next (pushAll .txb [s.cfg.marker, code, 0x00#8] (frameEnd s)) :=
    congrArg done (takeError_room code (skipInbound 1 s) hroom)
  exact ⟨⟨_, herror statusUndefinedFunction, pushAll_appended .txb _ _⟩,
    ⟨_, herror statusByteCountError, pushAll_appended .txb _ _⟩⟩

/-! The frame of a user command (R177). -/

/-- A user handler that peeks its arguments alone, with room for its answer (R224, log 9). -/
theorem userHandler_room {f o status : Byte} {w : List (Option Byte)} {reads payload : List Byte} {effect : WdEffect}
    {s s1 : State} (hd : drawAnswer f o w s = (.reply reads status payload effect, s1))
    (hreads : ∀ k ∈ reads, Peekable w k) (hlen : payload.length ≤ 255) (hroom : Room (3 + payload.length) s) :
    userHandler f o w s = .ok () (pushAll .txb
      (s.cfg.marker :: status :: BitVec.ofNat 8 payload.length :: payload)
      (withEffect effect { s with env := s1.env })) := by
  have hroom' : Room (3 + payload.length) (applyEffect effect { s with env := s1.env }) := by
    rw [applyEffect_eq_withEffect]
    exact hroom.congr (by simp) (by simp)
  rw [userHandler_reply hd, peekArguments_ok hreads, Res.bind_ok, sendAnswer_room _ _ _ _ hlen hroom',
    applyEffect_eq_withEffect, withEffect_cfg]

/-- The end of a frame and the effect of its handler touch different parts of the state. -/
theorem frameEnd_withEffect (effect : WdEffect) (s : State) :
    frameEnd (withEffect effect s) = withEffect effect (frameEnd s) := by
  cases effect <;> rfl

/-- Settles O31: the dispatch leaves `env` alone, so the handler's draw is that of the state the frame found. -/
theorem userRequestSendsTheAnswer : Obligations.UserRequestSendsTheAnswer := by
  unfold Obligations.UserRequestSendsTheAnswer
  intro m f status args reads payload effect s s1 hd hreads hlen hroom
  have hd' := drawAnswer_congr (s := s) (t := dispatching f s) rfl hd
  have hhandler := userHandler_room hd' (fun k hk => peekable_arguments (hreads k hk)) hlen hroom
  have hexec : exec (.reqUser m f args) s =
      done (dispatched f (userHandler f (s.rxb.tail + 1) (args.map some)) s) := rfl
  refine ⟨_, ?_, pushAll_appended .txb _ _⟩
  rw [hexec, dispatched_eq, hhandler, Res.bind_ok, done_ok, finishFrame_pushAll, frameEnd_eq, frameEnd_withEffect,
    frameEnd_withEffect]
  rfl

end Sys2Proof.Machine
end

section
/-! PROOFS. The machine right after reset (`10_state.md` section 9): it is sound whatever the legal configuration, and
O51. -/

namespace Sys2Proof.Machine

/-- The configuration `State.reset` stands for is legal (log 2). -/
theorem configOk_resetConfig : ConfigOk resetConfig := by
  unfold ConfigOk
  decide

/-- Nothing is queued in an empty ring (R22). -/
theorem QueuedWritten.of_empty {b : RingId} {s : State} (h : (ringOf s b).head = (ringOf s b).tail) :
    QueuedWritten b s := by
  intro k hk
  rw [(rbCount_toNat_eq_zero_iff b s).mpr h] at hk
  exact absurd hk (Nat.not_lt_zero k)

/-- Settles O51: the rings are empty and the parser awaits a header, so nothing is buffered and nothing queued. -/
theorem resetIsSound : Obligations.ResetIsSound := by
  unfold Obligations.ResetIsSound
  refine ⟨fun cfg hcfg => ?_, configOk_resetConfig, rfl⟩
  have ⟨h2, h255, _, _, _, htimeout⟩ := hcfg
  have hb := buildTable_of_legal h2 h255
  rw [resetWith_of_some hb]
  have hdrained : Drained { State.cold cfg with table := { entries := buildEntries cfg 0 cfg.commands } } :=
    ⟨rfl, rfl, .of_empty rfl⟩
  exact ⟨(sound_iff _).mpr ⟨⟨hcfg, hb⟩, hdrained.inbound⟩, ⟨emptyRing_wf, emptyRing_wf⟩, Nat.two_pow_pos _, htimeout⟩

end Sys2Proof.Machine
end

section
/-! PROOFS. The command table's reads and the handlers (`43_command_table.md` sections 2 to 4): `count`,
`required_bytes` and `name`, `invoke` of command-count, both answers of get-command-names, the handler that breaks its
contract, O25 to O27, O29, O30 and O33. -/

namespace Sys2Proof.Machine

/-! The strings of an entry (R172). -/

/-- The slots of an entry in order: name, parameter format, return format (D9). -/
theorem tableString_of_entry {tab : Table} {id slot : Byte} {e : Entry} (he : tab.entries[id.toNat]? = some e) :
    tableString tab id slot = [e.name, e.paramFormat, e.returnFormat][slot.toNat]? := by
  simp only [tableString, he]
  by_cases h0 : slot = 0x00#8
  · subst h0
    rfl
  by_cases h1 : slot = 0x01#8
  · subst h1
    rfl
  by_cases h2 : slot = 0x02#8
  · subst h2
    rfl
  have hout : 3 ≤ slot.toNat := by bv_omega
  rw [if_neg h0, if_neg h1, if_neg h2]
  exact (List.getElem?_eq_none hout).symm

/-- Outside the range of an id or of a slot there is no string (R172). -/
theorem tableString_eq_none {tab : Table} {id slot : Byte} (h : tableCount tab ≤ id.toNat ∨ 2 < slot.toNat) :
    tableString tab id slot = none := by
  cases he : tab.entries[id.toNat]? with
  | none => simp [tableString, he]
  | some e =>
    have hid : ¬ tableCount tab ≤ id.toNat := not_le.mpr (List.getElem?_eq_some_iff.mp he).1
    rw [tableString_of_entry he]
    exact List.getElem?_eq_none (h.resolve_left hid)

theorem exec_name {id slot : Byte} {str : List Byte} {s : State} (h : tableString s.table id slot = some str) :
    exec (.name id slot) s = .next { s with ret := .bytes str } := by
  show execName id slot s = _
  simp [execName, h, setRet]

/-- Settles O26: the string of the slot is what the operation returns. -/
theorem nameReturnsTheSlot : Obligations.NameReturnsTheSlot := by
  unfold Obligations.NameReturnsTheSlot
  intro s id slot e str he hstr
  exact exec_name ((tableString_of_entry he).trans hstr)

/-! The numbers the ROM holds (R173, R174). -/

theorem exec_requiredBytes {id : Byte} {s : State} {e : Entry} (he : s.table.entries[id.toNat]? = some e) :
    exec (.requiredBytes id) s = .next { s with ret := .nat e.required } := by
  show execRequiredBytes id s = _
  simp [execRequiredBytes, he, setRet]

/-- Settles O25: `count` is the length of the ROM, by definition, and `required_bytes` reads the entry. -/
theorem requiredBytesAndCountReadTheRom : Obligations.RequiredBytesAndCountReadTheRom := by
  unfold Obligations.RequiredBytesAndCountReadTheRom
  exact fun _ => ⟨rfl, fun _ _ he => exec_requiredBytes he⟩

/-! The built-in commands through `invoke` (R175). -/

theorem callHandler_commandCount {e : Entry} (h : e.handler = .commandCount) (f o : Byte) (s : State) :
    callHandler e f o s = commandCount s := by
  simp [callHandler, h]

theorem callHandler_commandNames {e : Entry} (h : e.handler = .commandNames) (f o : Byte) (s : State) :
    callHandler e f o s = commandNames o s := by
  simp [callHandler, h]

/-- Settles O27: the handler is command-count, and its one-byte reply fits. -/
theorem invokeCommandCount : Obligations.InvokeCommandCount := by
  unfold Obligations.InvokeCommandCount
  intro id offset s e he hcount hroom
  refine ⟨_, ?_, pushAll_appended .txb (countReply s) s⟩
  rw [exec_invoke he, callHandler_commandCount hcount, commandCount_room hroom, done_ok]

/-! get-command-names with valid arguments (R179, R191). -/

/-- A string without a zero byte is sent whole (log 28). -/
theorem stringBytes_eq_self {str : List Byte} (h : ∀ v ∈ str, v ≠ 0x00#8) : stringBytes str = str := by
  simpa using stringBytes_append str [] h (.inl rfl)

/-- The reply that carries the string `str` (R191). -/
def stringReply (str : List Byte) (s : State) : List Byte :=
  s.cfg.marker :: 0x00#8 :: BitVec.ofNat 8 str.length :: str

theorem namesReply_of_some {id slot : Byte} {str : List Byte} {s : State}
    (h : tableString s.table id slot = some str) : namesReply id slot s = sendStringFrame str s := by
  simp [namesReply, h]

theorem namesReply_of_none {id slot : Byte} {s : State} (h : tableString s.table id slot = none) :
    namesReply id slot s = namesError id slot s := by
  simp [namesReply, h]

theorem namesReply_room {id slot : Byte} {str : List Byte} {s : State} (h : tableString s.table id slot = some str)
    (hzero : ∀ v ∈ str, v ≠ 0x00#8) (hlen : str.length ≤ 255) (hroom : Room (3 + str.length) s) :
    namesReply id slot s = .ok () (pushAll .txb (stringReply str s) s) := by
  have hself := stringBytes_eq_self hzero
  rw [namesReply_of_some h, sendStringFrame_room str s (by rwa [hself]) (by rwa [hself]), hself]
  rfl

theorem exec_reqNames (m id slot : Byte) (s : State) :
    exec (.reqNames m id slot) s = done (dispatched 0x01#8 (namesReply id slot) s) := rfl

/-- Settles O29: the frame and `invoke` run the same reply, the first behind the dispatch, which touches neither TXB,
the parameters nor the table, the second once its argument bytes are peeked. -/
theorem namesRequestSendsTheString : Obligations.NamesRequestSendsTheString := by
  unfold Obligations.NamesRequestSendsTheString
  intro m id slot s e str he hstr hzero hlen hroom
  have hstring : tableString s.table id slot = some str := (tableString_of_entry he).trans hstr
  refine ⟨⟨_, ?_, pushAll_appended .txb (stringReply str s) _⟩,
    fun f offset h hh hnames hcells => ⟨_, ?_, pushAll_appended .txb (stringReply str s) s⟩⟩
  · rw [exec_reqNames, dispatched_eq, namesReply_room (s := dispatching 0x01#8 s) hstring hzero hlen hroom,
      Res.bind_ok, done_ok, finishFrame_pushAll, frameEnd_eq, frameEnd_dispatching]
    rfl
  · rw [exec_invoke hh, callHandler_commandNames hnames, commandNames_window hcells,
      namesReply_room hstring hzero hlen hroom, done_ok]

/-! get-command-names with an argument out of range (R179, R180). -/

/-- Only the id is out of range. -/
theorem namesError_id {id slot : Byte} {s : State} (hid : tableCount s.table ≤ id.toNat) (hslot : ¬ 2 < slot.toNat) :
    namesError id slot s = sendStatusFrame statusUndefinedFunction s := by
  rw [namesError, if_pos hid, if_neg hslot]

/-- Only the slot is out of range. -/
theorem namesError_slot {id slot : Byte} {s : State} (hid : ¬ tableCount s.table ≤ id.toNat) :
    namesError id slot s = sendStatusFrame statusValueError s := by
  rw [namesError, if_neg hid]

/-- Both are out of range: a draw decides (D10, log 10). -/
theorem namesError_both {id slot : Byte} {s : State} (hid : tableCount s.table ≤ id.toNat) (hslot : 2 < slot.toNat) :
    namesError id slot s =
      sendStatusFrame (if (drawBool s).1 then statusUndefinedFunction else statusValueError) (drawBool s).2 := by
  rw [namesError, if_pos hid, if_pos hslot]

/-- The frame of a request that is in error with `code`, `env` being `e` once the code is settled. -/
theorem exec_reqNames_error {m id slot code : Byte} {s : State} {e : Env} (hroom : Room 3 s)
    (hbad : tableCount s.table ≤ id.toNat ∨ 2 < slot.toNat)
    (herror : namesError id slot (dispatching 0x01#8 s) = sendStatusFrame code (setEnv (dispatching 0x01#8 s) e)) :
    ∃ t, exec (.reqNames m id slot) s = .next t ∧ t.env = e ∧
      Appended .txb [s.cfg.marker, code, 0x00#8]
        { frameEnd (noted [.invoke 0x01#8 (s.rxb.tail + 1)] s) with env := t.env } t := by
  have hreply : namesReply id slot (dispatching 0x01#8 s) =
      .ok () (pushAll .txb [s.cfg.marker, code, 0x00#8] (setEnv (dispatching 0x01#8 s) e)) := by
    rw [namesReply_of_none (s := dispatching 0x01#8 s) (tableString_eq_none hbad), herror]
    exact sendStatusFrame_room code (setEnv (dispatching 0x01#8 s) e) hroom
  have henv : (pushAll .txb [s.cfg.marker, code, 0x00#8] (finishFrame (setEnv (dispatching 0x01#8 s) e))).env = e :=
    pushAll_env _ _ _
  refine ⟨_, ?_, henv, ?_⟩
  · rw [exec_reqNames, dispatched_eq, hreply, Res.bind_ok, done_ok, finishFrame_pushAll]
  · rw [henv]
    exact pushAll_appended .txb _ _

/-- Settles O30: the two range checks decide the code, and where both fail the draw is that of the state the frame
found, as the dispatch leaves `env` alone. -/
theorem namesRequestReportsItsError : Obligations.NamesRequestReportsItsError := by
  unfold Obligations.NamesRequestReportsItsError
  intro m id slot s hroom hbad
  by_cases hid : tableCount s.table ≤ id.toNat
  · by_cases hslot : 2 < slot.toNat
    · have hdraw := drawBool_congr (s := s) (t := dispatching 0x01#8 s) rfl
      have herror := namesError_both (s := dispatching 0x01#8 s) hid hslot
      rw [hdraw] at herror
      obtain ⟨t, hexec, henv, happ⟩ := exec_reqNames_error (m := m) hroom hbad herror
      refine ⟨t, _, hexec, happ, fun h => absurd hslot (not_lt.mpr h), fun h => absurd hid (not_le.mpr h),
        fun _ _ => ⟨(drawBool s).1, ?_, rfl⟩⟩
      rw [henv]
      exact drew_drawBool s
    · obtain ⟨t, hexec, henv, happ⟩ := exec_reqNames_error (m := m) hroom hbad
        (namesError_id (s := dispatching 0x01#8 s) hid hslot)
      exact ⟨t, _, hexec, happ, fun _ => ⟨rfl, henv⟩, fun h => absurd hid (not_le.mpr h),
        fun _ h => absurd h hslot⟩
  · obtain ⟨t, hexec, henv, happ⟩ := exec_reqNames_error (m := m) hroom hbad
      (namesError_slot (s := dispatching 0x01#8 s) hid)
    have hslot := hbad.resolve_left hid
    exact ⟨t, _, hexec, happ, fun h => absurd hslot (not_lt.mpr h), fun _ => ⟨rfl, henv⟩, fun h => absurd h hid⟩

/-! A handler that breaks its contract (R176, R224). -/

theorem sendAnswer_too_long {status : Byte} {payload : List Byte} {effect : WdEffect} {s : State}
    (h : 255 < payload.length) : sendAnswer status payload effect s = raise .handlerContract s :=
  if_neg (not_le.mpr h)

theorem userHandler_breach {f o : Byte} {w : List (Option Byte)} {s : State} {e : Env}
    (hd : drawAnswer f o w s = (.breach, setEnv s e)) : userHandler f o w s = raise .handlerContract (setEnv s e) := by
  simp [userHandler, hd]

/-- More than 255 payload bytes behind peeks that succeed are a breach (log 8). -/
theorem userHandler_too_long {f o status : Byte} {w : List (Option Byte)} {reads payload : List Byte}
    {effect : WdEffect} {s : State} {e : Env}
    (hd : drawAnswer f o w s = (.reply reads status payload effect, setEnv s e))
    (hreads : ∀ k ∈ reads, Peekable w k) (hlen : 255 < payload.length) :
    userHandler f o w s = raise .handlerContract (setEnv s e) := by
  rw [userHandler_reply hd, peekArguments_ok hreads, Res.bind_ok, sendAnswer_too_long hlen]
  rfl

theorem exec_reqUser (m f : Byte) (args : List Byte) (s : State) :
    exec (.reqUser m f args) s = done (dispatched f (userHandler f (s.rxb.tail + 1) (args.map some)) s) := rfl

/-- Settles O33: either breach raises with the draw alone done behind the dispatch, so the frame does not end. -/
theorem handlerBreachRaises : Obligations.HandlerBreachRaises := by
  unfold Obligations.HandlerBreachRaises
  intro m f args answer s s1 hf hd hbreach
  have hd' := drawAnswer_congr (s := s) (t := dispatching f s) rfl hd
  have hraise : userHandler f (s.rxb.tail + 1) (args.map some) (dispatching f s) =
      raise .handlerContract (setEnv (dispatching f s) s1.env) := by
    obtain rfl | ⟨reads, status, payload, effect, rfl, hreads, hlen⟩ := hbreach
    · exact userHandler_breach hd'
    · exact userHandler_too_long hd' (fun k hk => peekable_arguments (hreads k hk)) hlen
  rw [exec_reqUser, dispatched_eq, hraise, raise, Res.bind_raised, done_raised,
    latch_of_fault_none (s := setEnv (dispatching f s) s1.env) _ hf]
  rfl

end Sys2Proof.Machine
end

section
/-! PROOFS. The response encoder (`44_response_encoder.md`): `send` with and without room for its frame, `send_string`,
O12 and O15. -/

namespace Sys2Proof.Machine

/-! `send` (R190). -/

theorem exec_send {payload : List Byte} {length : Byte} (status : Byte) (s : State)
    (h : length.toNat ≤ payload.length) :
    exec (.send payload length status) s = done (sendFrame payload length status s) :=
  if_pos h

/-- R190 without room: the bytes that fit stay enqueued. -/
theorem sendFrame_overflow {payload : List Byte} {length status : Byte} {s : State}
    (h : length.toNat ≤ payload.length) (hp : s.cfg.overflowPolicy = .fault)
    (hover : 255 < (rbCount .txb s).toNat + 3 + length.toNat) :
    sendFrame payload length status s = .raised (latch (.ringOverflow .txb)
      (pushAll .txb ((replyBytes payload length status s).take (255 - (rbCount .txb s).toNat)) s)) := by
  rw [sendFrame_eq, enqueueAll_overflow _ s hp]
  rw [replyBytes_length _ _ _ _ h]
  omega

/-- What is enqueued of a run of bytes that does not fit leaves the ring at count 255 (R125). -/
theorem rbCount_pushAll_take {b : RingId} {bs : List Byte} {s : State}
    (hover : 255 < (rbCount b s).toNat + bs.length) :
    (rbCount b (pushAll b (bs.take (255 - (rbCount b s).toNat)) s)).toNat = 255 := by
  have hcount := (rbCount b s).isLt
  rw [(pushAll_appended b _ s).count, List.length_take_of_le (by omega)]
  omega

/-- Settles O12: the frame is one run of guarded pushes, which fits or stops at count 255. -/
theorem sendEnqueuesOneFrame : Obligations.SendEnqueuesOneFrame := by
  unfold Obligations.SendEnqueuesOneFrame
  intro payload length status s hlen
  have hbytes := replyBytes_length payload length status s hlen
  refine ⟨fun hroom => ⟨_, ?_, pushAll_appended .txb (replyBytes payload length status s) s⟩,
    fun hf hp hover => ⟨_, ?_, rbCount_pushAll_take (bs := replyBytes payload length status s) ?_,
      pushAll_appended .txb _ s⟩⟩
  · rw [exec_send status s hlen, sendFrame_room payload length status s hlen hroom, done_ok]
  · rw [exec_send status s hlen, sendFrame_overflow hlen hp hover]
    exact done_raised_pushAll hf
  · omega

/-! `send_string` (R191). -/

theorem exec_sendString (str : List Byte) (s : State) : exec (.sendString str) s = done (sendStringFrame str s) := rfl

theorem sendStringFrame_too_long {str : List Byte} {s : State} (h : 255 < (stringBytes str).length) :
    sendStringFrame str s = raise (.stringTooLong (stringBytes str).length) s :=
  if_pos h

/-- Settles O15: what is sent are the bytes before the first zero, and their number alone decides. -/
theorem sendStringStopsAtTheZero : Obligations.SendStringStopsAtTheZero := by
  unfold Obligations.SendStringStopsAtTheZero
  intro str rest s hzero hrest
  have hstr := stringBytes_append str rest hzero hrest
  refine ⟨fun hlen hroom => ⟨_, ?_, pushAll_appended .txb (stringReply str s) s⟩, fun hlong hf => ?_⟩
  · rw [exec_sendString, sendStringFrame_room _ s (by rwa [hstr]) (by rwa [hstr]), hstr, done_ok]
    rfl
  · rw [exec_sendString, sendStringFrame_too_long (by rwa [hstr]), hstr, raise, done_raised, latch_of_fault_none _ hf]

end Sys2Proof.Machine
end

section
/-! PROOFS. The heartbeat watchdog (`45_watchdog.md`): what stop(), the check and the three writes leave, runs of ticks
and of steps, and O34 to O37. -/

namespace Sys2Proof.Machine

/-! `stop` (R205). -/

theorem exec_stop (s : State) : exec .stop s = .next (callStop s) := rfl

theorem callStop_always {s : State} (h : s.cfg.stopReturns = .always) : callStop s = s := by simp [callStop, h]

theorem callStop_never {s : State} (h : s.cfg.stopReturns = .never) : callStop s = { s with halted := true } := by
  simp [callStop, h, setHalted]

/-- A draw decides: true returns, false halts. -/
theorem callStop_any {s : State} (h : s.cfg.stopReturns = .any) :
    callStop s = { s with halted := s.halted || !(drawBool s).1, env := (drawBool s).2.env } := by
  obtain ⟨e, he⟩ := drawBool_setEnv s
  cases hr : (drawBool s).1 <;> simp [callStop, h, hr, he, setHalted, setEnv]

@[simp] theorem callStop_history (s : State) : (callStop s).history = s.history := by
  obtain ⟨e, b, h⟩ := callStop_eq s
  rw [h]

@[simp] theorem callStop_wd (s : State) : (callStop s).wd = s.wd := by
  obtain ⟨e, b, h⟩ := callStop_eq s
  rw [h]

/-- Settles O35: a lemma per setting, and `drew_drawBool` says which draw decides under `any`. -/
theorem stopReturnsOrHalts : Obligations.StopReturnsOrHalts := by
  unfold Obligations.StopReturnsOrHalts
  intro s
  simp only [exec_stop]
  refine ⟨fun h => ?_, fun h => ?_, fun h => ?_⟩
  · rw [callStop_always h]
  · rw [callStop_never h]
  · obtain ⟨hfixed, hfree⟩ := drew_drawBool s
    rw [callStop_any h]
    refine ⟨fun r rest hb => ?_, fun hb => ⟨(drawBool s).1, ?_⟩⟩
    · obtain ⟨hr, he⟩ := hfixed r rest hb
      rw [hr, he]
    · rw [hfree hb]

/-! `wd_check` (R200, R201). -/

theorem expired_iff (s : State) : expired s = true ↔ s.wd.timeout ≠ 0 ∧ s.wd.timeout < s.wd.elapsed := by
  simp [expired, armed]

theorem exec_wdCheck (s : State) : exec .wdCheck s = .next (checkWatchdog s) := rfl

theorem checkWatchdog_expired {s : State} (h : s.wd.timeout ≠ 0 ∧ s.wd.timeout < s.wd.elapsed) :
    checkWatchdog s = callStop (emit .stop s) := if_pos ((expired_iff s).mpr h)

theorem checkWatchdog_not_expired {s : State} (h : s.wd.timeout = 0 ∨ s.wd.elapsed ≤ s.wd.timeout) :
    checkWatchdog s = s := if_neg (by rw [expired_iff]; omega)

/-- An expired watchdog leaves one `stop` event (R200). -/
theorem checkWatchdog_history {s : State} (h : s.wd.timeout ≠ 0 ∧ s.wd.timeout < s.wd.elapsed) :
    (checkWatchdog s).history = s.history ++ [.stop] := by
  rw [checkWatchdog_expired h, callStop_history, emit_history]

/-- Settles O34: `expired` is the condition of R200, and stop() leaves the watchdog registers alone. -/
theorem checkCallsStopWhenExpired : Obligations.CheckCallsStopWhenExpired := by
  unfold Obligations.CheckCallsStopWhenExpired
  intro s
  refine ⟨fun h => ⟨callStop (emit .stop s), ?_, rfl, callStop_wd _⟩, fun h => ?_⟩
  · rw [exec_wdCheck, checkWatchdog_expired h]
  · rw [exec_wdCheck, checkWatchdog_not_expired h]

/-- An enabled core in phase (d) runs the check (R216). -/
theorem exec_coreStep_of_phase_d {s : State} (hd : s.phase = .d) (hrun : Running s) :
    exec .coreStep s = .next (advancePhase .d (checkWatchdog s)) := by
  obtain ⟨hh, hf⟩ := hrun
  show execCoreStep s = _
  simp [execCoreStep, hh, hf, phaseOperation_d hd, hd]

@[simp] theorem advancePhase_history (p : Phase) (s : State) : (advancePhase p s).history = s.history := by
  unfold advancePhase
  split <;> rfl

/-! The writes (R203, R204, R206). -/

theorem tickWord_of_lt {cfg : Config} {n : Nat} (h : n < 2 ^ cfg.tickBits) : tickWord cfg n = n := Nat.mod_eq_of_lt h

theorem exec_wdSetTimeout (n : Nat) (s : State) :
    exec (.wdSetTimeout n) s = .next { s with wd := { s.wd with timeout := tickWord s.cfg n } } := rfl

/-- Settles O36: the tick and the heartbeat are the model's definitions, and a value of `TICK_BITS` bits is the word the
register holds. -/
theorem watchdogWrites : Obligations.WatchdogWrites := by
  unfold Obligations.WatchdogWrites
  intro s n
  refine ⟨rfl, rfl, fun h => ?_⟩
  rw [exec_wdSetTimeout, tickWord_of_lt h]

/-! Ticks in a row, and runs of steps (R208, R219). -/

theorem ticks_extends (n : Nat) (s : State) : Extends s (ticks n s) := by
  induction n generalizing s with
  | zero => exact Extends.refl s
  | succ n ih => exact (tickWatchdog_extends s).trans (ih _)

theorem ticks_history (n : Nat) (s : State) : (ticks n s).history = s.history ++ List.replicate n .tick := by
  induction n generalizing s with
  | zero => simp [ticks]
  | succ n ih => simp [ticks, ih, tickWatchdog, List.replicate_succ]

theorem ticks_timeout (n : Nat) (s : State) : (ticks n s).wd.timeout = s.wd.timeout := by
  induction n generalizing s with
  | zero => rfl
  | succ n ih => exact ih (tickWatchdog s)

/-- Ticks in a row that do not wrap are counted. -/
theorem ticks_elapsed {n : Nat} {s : State} (h : s.wd.elapsed + n < 2 ^ s.cfg.tickBits) :
    (ticks n s).wd.elapsed = s.wd.elapsed + n := by
  simpa using (ticks_extends n s).elapsed _ (ticks_history n s) (by simp) (by simpa using h)

/-- No frame is `table_build` (R81). -/
theorem fetchFrame_ne_tableBuild {s : State} {i : Instr} (h : fetchFrame s = some i) : i ≠ .tableBuild := by
  obtain ⟨-, -, -, ⟨-, m, st, l, rfl | rfl | rfl⟩ | ⟨m, f, args, rfl | rfl | rfl | ⟨id, slot, rfl⟩ | rfl⟩⟩ :=
    fetchFrame_form h <;> nofun

theorem coreMove_extends {s t : State} (h : coreMove s = .next t) : Extends s t := by
  obtain h | ⟨i, hi, h⟩ := coreMove_cases h
  · exact execCoreStep_extends h
  · obtain ⟨u, hu, ⟨-, rfl⟩ | ⟨-, rfl⟩⟩ := afterFrame_cases h
    · exact (exec_extends (fetchFrame_ne_tableBuild hi) hu).trans (setPhase_extends u .d)
    · exact exec_extends (fetchFrame_ne_tableBuild hi) hu

/-- Whichever agent moves, the step extends the state: no move builds the table. -/
theorem step_extends {s t : State} (h : step s = .next t) : Extends s t := by
  obtain ⟨e, h | rfl | ⟨i, hi, h⟩⟩ := step_cases h
  · exact (setEnv_extends s e).trans (coreMove_extends h)
  · exact setEnv_extends s e
  · have hne : i ≠ .tableBuild := by
      obtain ⟨v, rfl⟩ | ⟨r, rfl⟩ | rfl := hi <;> nofun
    exact (setEnv_extends s e).trans (exec_extends hne h)

theorem steps_extends {k : Nat} {s t : State} (h : steps k s = .next t) : Extends s t := by
  induction k generalizing s with
  | zero =>
    cases h
    exact Extends.refl t
  | succ k ih =>
    unfold steps at h
    split at h
    · rename_i hstep
      exact (step_extends hstep).trans (ih h)
    · cases h
    · cases h

/-- Settles O37: `Extends` counts the ticks of any run without a heartbeat, so past the timeout the watchdog has
expired, and the check of an expired watchdog leaves `stop`. -/
theorem ticksPastTheDeadlineCallStop : Obligations.TicksPastTheDeadlineCallStop := by
  unfold Obligations.TicksPastTheDeadlineCallStop
  refine ⟨fun s n harmed hzero hpast hwrap => ?_, fun s t k evs hzero hrun hevs hbeat hwrap => ?_⟩
  · have hcount : (ticks n s).wd.elapsed = n := by rw [ticks_elapsed (by omega)]; omega
    have hexp : (ticks n s).wd.timeout ≠ 0 ∧ (ticks n s).wd.timeout < (ticks n s).wd.elapsed := by
      rw [ticks_timeout, hcount]
      exact ⟨harmed, hpast⟩
    refine ⟨_, exec_wdCheck _, List.replicate n .tick ++ [.stop], ?_, by simp⟩
    rw [checkWatchdog_history hexp, ticks_history, List.append_assoc]
  · have hcount : t.wd.elapsed = evs.count .tick := by
      rw [(steps_extends hrun).elapsed evs hevs hbeat (by omega)]
      omega
    refine ⟨hcount, fun harmed hpast => ?_⟩
    have hexp : t.wd.timeout ≠ 0 ∧ t.wd.timeout < t.wd.elapsed := ⟨harmed, hcount ▸ hpast⟩
    refine ⟨⟨_, exec_wdCheck t, checkWatchdog_history hexp⟩,
      fun hen hd => ⟨_, exec_coreStep_of_phase_d hd hen, ?_⟩⟩
    rw [advancePhase_history, checkWatchdog_history hexp]

end Sys2Proof.Machine
end

section
/-! PROOFS. The poll loop and its environment (`46_poll_loop.md`): a core step as the operation of its phase and an
advance, the deliveries, a step as one move, the quiescent states, and O39, O41, O42 and O45. -/

namespace Sys2Proof.Machine

/-! A core step (R215, R216). -/

theorem exec_phaseInstr (s : State) : exec (phaseInstr s.phase) s = .next (phaseOperation s).state := by
  cases hp : s.phase
  case a => rw [phaseOperation_a hp]; rfl
  case b => rw [phaseOperation_b hp]; rfl
  case c => rw [phaseOperation_c hp]; rfl
  case d => rw [phaseOperation_d hp]; rfl

/-- An operation of the poll loop that goes on leaves the fault latch alone, phase (d) included. -/
theorem phaseOperation_ok_fault {s t : State} (h : phaseOperation s = .ok () t) : t.fault = s.fault := by
  by_cases hd : s.phase = .d
  · cases (phaseOperation_d hd).symm.trans h
    exact checkWatchdog_fault s
  · have hset := phaseOperation_settles hd
    rw [h] at hset
    obtain ⟨hf, -⟩ := hset
    exact hf

/-- One that raises leaves the fault latch set; phase (d) has none (R200). -/
theorem phaseOperation_raised_fault {s t : State} (h : phaseOperation s = .raised t) : t.fault ≠ none := by
  by_cases hd : s.phase = .d
  · cases (phaseOperation_d hd).symm.trans h
  · have hset := phaseOperation_settles hd
    rw [h] at hset
    obtain ⟨hf, -⟩ := hset
    exact hf

/-- The advance is withheld exactly where the operation left a latch set: a raise set the fault, stop() the halt. -/
theorem exec_coreStep_of_running {s : State} (hrun : Running s) :
    exec .coreStep s = .next
      (if (phaseOperation s).state.fault = none ∧ (phaseOperation s).state.halted = false then
        setPhase (phaseOperation s).state (nextPhase s.phase)
      else (phaseOperation s).state) := by
  obtain ⟨hh, hf⟩ := hrun
  show execCoreStep s = _
  cases hr : phaseOperation s with
  | ok _ t =>
    have hft : t.fault = none := (phaseOperation_ok_fault hr).trans hf
    cases hht : t.halted <;> simp [execCoreStep, advancePhase, Res.state, hh, hf, hr, hft, hht]
  | raised t => simp [execCoreStep, Res.state, hh, hf, hr, phaseOperation_raised_fault hr]

/-- Settles O39: the operation's end decides on the advance. -/
theorem coreStepRunsOnePhase : Obligations.CoreStepRunsOnePhase := by
  unfold Obligations.CoreStepRunsOnePhase
  exact fun s hrun => ⟨_, exec_phaseInstr s, exec_coreStep_of_running hrun⟩

/-! The serial environment (R221). -/

theorem exec_envTxReady (r : Bool) (s : State) : exec (.envTxReady r) s = .next (setTxr s { ready := r }) := rfl

/-- With nothing waiting on the line any byte may arrive. -/
theorem exec_envRxArrive_of_line_nil {s : State} (v : Byte) (h : s.rxr.valid = false) (hl : s.env.line = []) :
    exec (.envRxArrive v) s = .next (deliver v s) := by
  show execEnvRxArrive v s = _
  simp [execEnvRxArrive, h, hl]

theorem exec_envRxArrive_next {s : State} {w : Byte} {rest : List Byte} (h : s.rxr.valid = false)
    (hl : s.env.line = w :: rest) :
    exec (.envRxArrive w) s = .next (deliver w (setEnv s { s.env with line := rest })) := by
  show execEnvRxArrive w s = _
  simp [execEnvRxArrive, h, hl]

theorem exec_envRxArrive_not_next {s : State} {v w : Byte} {rest : List Byte} (h : s.rxr.valid = false)
    (hl : s.env.line = w :: rest) (hv : v ≠ w) : exec (.envRxArrive v) s = .refused .notNextOnLine := by
  show execEnvRxArrive v s = _
  simp [execEnvRxArrive, h, hl, hv.symm]

theorem exec_envRxArrive_full {s : State} (v : Byte) (h : s.rxr.valid = true) :
    exec (.envRxArrive v) s = .refused .receiveOverrun := if_pos h

/-- Settles O41: RXR decides first, then the line. -/
theorem environmentSteps : Obligations.EnvironmentSteps := by
  unfold Obligations.EnvironmentSteps
  exact fun s v r => ⟨exec_envTxReady r s, exec_envRxArrive_of_line_nil v,
    fun _ _ h hl => ⟨exec_envRxArrive_next h hl, exec_envRxArrive_not_next h hl⟩, exec_envRxArrive_full v⟩

/-! A step as one move (R219, R220). -/

theorem step_of_moves {s : State} {m : Move} {rest : List Move} (h : s.env.moves = m :: rest) :
    step s = runMove m (setEnv s { s.env with moves := rest }) := by
  simp [step, takeMove, h]

theorem arriveMove_held_back {s : State} (h : s.rxr.valid = true) : arriveMove s = .next s := if_pos h

theorem arriveMove_next {s : State} {v : Byte} {line : List Byte} (h : s.rxr.valid = false)
    (hl : s.env.line = v :: line) : arriveMove s = exec (.envRxArrive v) s := by
  simp [arriveMove, takeByte, h, hl]

/-- Only in phase (c) does the core run a frame form (R81, R216). -/
theorem coreMove_of_phase_ne_c {s : State} (h : s.phase ≠ .c) : coreMove s = exec .coreStep s := by
  have hfetch : fetchFrame s = none := if_neg fun ⟨hc, _⟩ => h hc
  simp [coreMove, hfetch]

/-- Settles O42: consuming the move changes nothing the move looks at. -/
theorem stepIsOneMove : Obligations.StepIsOneMove := by
  unfold Obligations.StepIsOneMove
  intro s m rest hmoves
  rw [step_of_moves hmoves]
  refine ⟨?_, ?_, ?_, ?_, ?_⟩
  · rintro rfl
    rfl
  · rintro r rfl
    rfl
  · rintro rfl hfull
    exact arriveMove_held_back hfull
  · rintro v line rfl hempty hline
    exact arriveMove_next hempty hline
  · rintro rfl hc
    exact coreMove_of_phase_ne_c hc

/-! The quiescent states (R225). -/

theorem rxService_idle {s : State} (h : s.rxr.valid = false) : rxService s = .ok () s := by
  rw [rxService, tryReceive_empty h, Res.bind_ok]

/-- In a quiescent state no phase has anything to do. -/
theorem Quiescent.phaseOperation_idle {s : State} (hq : Quiescent s)
    (hwd : s.wd.timeout = 0 ∨ s.wd.elapsed ≤ s.wd.timeout) (p : Phase) :
    phaseOperation (setPhase s p) = .ok () (setPhase s p) := by
  obtain ⟨-, -, hrx, -, htx, hgate⟩ := hq
  cases p with
  | a => exact (phaseOperation_a rfl).trans (rxService_idle hrx)
  | b => exact (phaseOperation_b rfl).trans (tryTransmit_idle (.inl htx))
  | c => exact (phaseOperation_c rfl).trans (parseService_closed hgate)
  | d => exact (phaseOperation_d rfl).trans (congrArg _ (checkWatchdog_not_expired hwd))

theorem Quiescent.exec_coreStep {s : State} (hq : Quiescent s) (hh : s.halted = false)
    (hwd : s.wd.timeout = 0 ∨ s.wd.elapsed ≤ s.wd.timeout) (p : Phase) :
    exec .coreStep (setPhase s p) = .next (setPhase s (nextPhase p)) := by
  have hidle := hq.phaseOperation_idle hwd p
  obtain ⟨hf, -⟩ := hq
  rw [exec_coreStep_of_running (s := setPhase s p) ⟨hh, hf⟩, hidle]
  exact congrArg _ (if_pos ⟨hf, hh⟩)

/-- Settles O45: one idle phase after another, and phase (a) is where a quiescent state stands. -/
theorem quiescentStatesStayQuiet : Obligations.QuiescentStatesStayQuiet := by
  unfold Obligations.QuiescentStatesStayQuiet
  intro s hq hh hwd
  have hstep := hq.exec_coreStep hh hwd
  obtain ⟨-, hphase, -⟩ := hq
  have ha : setPhase s .a = s := by
    rw [← hphase]
    rfl
  refine ⟨?_, hstep .b, hstep .c, ?_⟩
  · calc exec .coreStep s = exec .coreStep (setPhase s .a) := by rw [ha]
      _ = .next { s with phase := .b } := hstep .a
  · calc exec .coreStep { s with phase := .d } = .next (setPhase s .a) := hstep .d
      _ = .next s := by rw [ha]

end Sys2Proof.Machine
end

section
/-! PROOFS. A heartbeat on behalf of a handler holds off the check of its iteration (R240), and operands outside the range
of a rule (log 21): O38 and O16. -/

namespace Sys2Proof.Machine

/-! What the reply behind a heartbeat leaves of the watchdog registers (R190, R204, log 9). -/

@[simp] theorem pushAll_wd (b : RingId) (bs : List Byte) (s : State) : (pushAll b bs s).wd = s.wd := by
  rw [(pushAll_appended b bs s).1]
  exact setRing_wd _ _ _

/-- A reply leaves the watchdog alone, sent or not. -/
theorem sendFrame_wd (payload : List Byte) (length status : Byte) (s : State) :
    (sendFrame payload length status s).state.wd = s.wd := by
  obtain ⟨bs, -, h | ⟨-, h⟩⟩ := sendFrame_cases payload length status s <;> rw [h]
  · exact pushAll_wd _ _ s
  · exact (latch_wd _ _).trans (pushAll_wd _ _ s)

/-- The heartbeat comes before the reply, so it is done whether or not the reply fits (log 9). -/
theorem sendAnswer_heartbeat_elapsed {status : Byte} {payload : List Byte} (s : State) (h : payload.length ≤ 255) :
    (sendAnswer status payload .heartbeat s).state.wd.elapsed = 0 := by
  rw [sendAnswer, if_pos h, sendFrame_wd]
  rfl

/-- Of the dispatch, the handler alone can touch the watchdog (R147). -/
theorem dispatched_wd (f : Byte) (handler : State → Res Unit) (s : State) :
    (dispatched f handler s).state.wd = (handler (dispatching f s)).state.wd := by
  rw [dispatched_eq]
  cases handler (dispatching f s) with
  | ok _ t => rfl
  | raised t => rfl

/-- Settles O38: the handler's call ends with elapsed 0, nothing after it in the frame touches the watchdog, and elapsed 0
is past no timeout. -/
theorem heartbeatPreventsStop : Obligations.HeartbeatPreventsStop := by
  unfold Obligations.HeartbeatPreventsStop
  intro m f status args reads payload s s1 t hd hreads hlen ht
  have hd' := drawAnswer_congr (s := s) (t := dispatching f s) rfl hd
  have helapsed : t.wd.elapsed = 0 := by
    rw [exec_reqUser, done] at ht
    injection ht with ht
    rw [← ht, dispatched_wd, userHandler_reply hd', peekArguments_ok fun k hk => peekable_arguments (hreads k hk),
      Res.bind_ok, sendAnswer_heartbeat_elapsed _ hlen]
  refine ⟨helapsed, ?_⟩
  rw [exec_wdCheck, checkWatchdog_not_expired (.inr (by omega))]

/-! Operands outside the range of a rule (log 21). -/

theorem exec_requiredBytes_refused {id : Byte} {s : State} (h : s.table.entries[id.toNat]? = none) :
    exec (.requiredBytes id) s = .refused (.operandOutOfRange "required_bytes") := by
  show execRequiredBytes id s = _
  simp [execRequiredBytes, h]

theorem exec_invoke_refused {id : Byte} (offset : Byte) {s : State} (h : s.table.entries[id.toNat]? = none) :
    exec (.invoke id offset) s = .refused (.operandOutOfRange "invoke") := by
  show execInvoke id offset s = _
  simp [execInvoke, h]

theorem exec_name_refused {id slot : Byte} {s : State} (h : tableString s.table id slot = none) :
    exec (.name id slot) s = .refused (.operandOutOfRange "name") := by
  show execName id slot s = _
  simp [execName, h]

theorem exec_send_refused {payload : List Byte} {length : Byte} (status : Byte) (s : State)
    (h : payload.length < length.toNat) :
    exec (.send payload length status) s = .refused (.operandOutOfRange "send") :=
  if_neg (not_le.mpr h)

/-- Settles O16: the table has no entry at the id, or no string in the slot, or the payload fails the check of `send`. -/
theorem operandsOutOfRangeAreRefused : Obligations.OperandsOutOfRangeAreRefused := by
  unfold Obligations.OperandsOutOfRangeAreRefused
  intro s id slot offset length status payload
  refine ⟨fun hid => ?_, fun hbad => ?_, fun hlen => ?_⟩
  · have hentry : s.table.entries[id.toNat]? = none := List.getElem?_eq_none hid
    exact ⟨exec_requiredBytes_refused hentry, exec_invoke_refused offset hentry⟩
  · exact exec_name_refused (tableString_eq_none hbad)
  · exact exec_send_refused status s hlen

end Sys2Proof.Machine
end
